-- ==== Sys2Proof/Word.lean ====
section
/-! DEFINITION. The word types of the command and response port (30_encoding R70, R71, R76). -/

namespace Sys2Proof

/-- A word of the command port, the response port or the status space: 32 bits (R70, R71). -/
abbrev Word := BitVec 32

/-- A symbol as a command names it: wide enough for both legal values of `SYM_W` (R5, R72). -/
abbrev Symbol := BitVec 16

end Sys2Proof
end

