-- ==== Sys2Proof/Config.lean ====
section
/-! DEFINITION. The two implementation parameters and the constants derived from them (00_scope R5, R6, R8).
The hardware leaves no value open once the two are chosen (93: "no case in this hardware needs a draw"), so this
file holds no free value. -/

namespace Sys2Proof

/-- The legal values of `SYM_W`, the symbol width (R5). -/
inductive SymWidth where
  | w8
  | w16
  deriving DecidableEq, Repr

/-- The width in bits. -/
abbrev SymWidth.bits : SymWidth → Nat
  | .w8 => 8
  | .w16 => 16

/-- The parameters of one implementation, fixed for a run (R5, R6, R36): the symbol width and the width of a
frequency counter, which is 1 to 64. -/
structure Params where
  symWidth : SymWidth
  cntW : Nat
  cntW_pos : 1 ≤ cntW
  cntW_le : cntW ≤ 64
  deriving DecidableEq, Repr

/-- The spec's defaults `SYM_W = 8`, `CNT_W = 32` (R5, R6). -/
def Params.standard : Params := ⟨.w8, 32, by decide, by decide⟩

namespace Params

variable (p : Params)

/-- `SYM_W` (R5). -/
abbrev symW : Nat := p.symWidth.bits

/-- `NSYM`: the number of symbol values (R8). -/
abbrev nsym : Nat := 2 ^ p.symW

/-- `CNT_MAX`: the largest count (R8). -/
abbrev cntMax : Nat := 2 ^ p.cntW - 1

/-- `W_W`: the width of a node weight (R8). -/
abbrev wW : Nat := p.cntW + p.symW

/-- `IDX_W`: the width of a node index (R8). -/
abbrev idxW : Nat := p.symW + 1

/-- `MAXNODE`: the depth of NODE (R8). -/
abbrev maxNode : Nat := 2 * p.nsym - 1

/-- `MAXLEN`: the longest possible code (R8). -/
abbrev maxLen : Nat := p.nsym - 1

/-- `LEN_W`: the width of a code's length (R8). -/
abbrev lenW : Nat := p.symW

/-- `NODE_W`: the width of a NODE word (R8). -/
abbrev nodeW : Nat := 1 + p.symW + 2 * p.idxW + p.wW

/-- `CODE_W`: the width of a CODE word (R8). -/
abbrev codeW : Nat := p.lenW + p.maxLen

end Params

end Sys2Proof
end

