-- ==== Sys2Proof/Syntax.lean ====
section
/-! DEFINITION. The eight commands of 30_encoding R73, one constructor per row of spec/opcode_table.json. -/

namespace Sys2Proof

/-- A command of the block (R73), with its one operand (R72). -/
inductive Instr where
  /-- `NOP` (R128). -/
  | nop
  /-- `CLR` (R129). -/
  | clr
  /-- `CNT sym` (R91). -/
  | cnt (sym : Symbol)
  /-- `BLD` (R97). -/
  | bld
  /-- `TBL` (R106). -/
  | tbl
  /-- `ENC sym` (R114). -/
  | enc (sym : Symbol)
  /-- `DEC bit` (R119). -/
  | dec (bit : Bool)
  /-- `END` (R122). -/
  | endStream
  deriving DecidableEq, Repr

end Sys2Proof
end

