-- ==== Sys2Proof/WellFormed.lean ====
section
/-! DEFINITION. Which commands can be spelled at given parameters: a symbol operand is below `NSYM`
(30_encoding R72, R74). -/

namespace Sys2Proof

/-- The command's operand is in its legal range (R72): `CNT` and `ENC` take a symbol below `NSYM`. -/
def Instr.wf (p : Params) : Instr → Bool
  | .nop => true
  | .clr => true
  | .cnt sym => decide (sym.toNat < p.nsym)
  | .bld => true
  | .tbl => true
  | .enc sym => decide (sym.toNat < p.nsym)
  | .dec _ => true
  | .endStream => true

end Sys2Proof
end

