-- ==== Sys2Proof/Decode.lean ====
section
/-! DEFINITION. Decoding of a command word, total on all 2^32 words, and the encoder (30_encoding R71 to R75). -/

namespace Sys2Proof

/-- Why a word is illegal (R74). -/
inductive DecodeError where
  /-- `op` is `0x8 .. 0xF` (R74, R75). -/
  | reservedOp
  /-- The reserved field `rz` is not zero (R74, R75). -/
  | reservedField
  /-- A command without an operand has `arg` not zero (R74). -/
  | argNotZero
  /-- `CNT` or `ENC` with `arg >= NSYM` (R74). -/
  | symbolOutOfRange
  /-- `DEC` with `arg > 1` (R74). -/
  | bitOutOfRange
  deriving DecidableEq, Repr

/-- The field `op`, bits `[31:28]` (R71). -/
def opField (w : Word) : BitVec 4 := w.extractLsb' 28 4

/-- The reserved field `rz`, bits `[27:24]` (R71). -/
def rzField (w : Word) : BitVec 4 := w.extractLsb' 24 4

/-- The operand field `arg`, bits `[23:0]` (R71). -/
def argField (w : Word) : BitVec 24 := w.extractLsb' 0 24

/-- A command without an operand: `arg` must be zero (R72). -/
def decodePlain (arg : BitVec 24) (i : Instr) : Except DecodeError Instr :=
  if arg = 0 then .ok i else .error .argNotZero

/-- A command with a symbol operand: `sym = arg[SYM_W-1:0]`, legal when `arg < NSYM` (R72). -/
def decodeSymbol (p : Params) (arg : BitVec 24) (mk : Symbol → Instr) : Except DecodeError Instr :=
  if arg.toNat < p.nsym then .ok (mk (arg.setWidth 16)) else .error .symbolOutOfRange

/-- A command with a bit operand: `bit = arg[0]`, legal when `arg <= 1` (R72). -/
def decodeBit (arg : BitVec 24) (mk : Bool → Instr) : Except DecodeError Instr :=
  if arg.toNat ≤ 1 then .ok (mk (arg.getLsbD 0)) else .error .bitOutOfRange

/-- The command a word spells at the parameters `p`, or why it is illegal (R73, R74). -/
def decode (p : Params) (w : Word) : Except DecodeError Instr :=
  if rzField w = 0 then
    match (opField w).toNat with
    | 0 => decodePlain (argField w) .nop
    | 1 => decodePlain (argField w) .clr
    | 2 => decodeSymbol p (argField w) .cnt
    | 3 => decodePlain (argField w) .bld
    | 4 => decodePlain (argField w) .tbl
    | 5 => decodeSymbol p (argField w) .enc
    | 6 => decodeBit (argField w) .dec
    | 7 => decodePlain (argField w) .endStream
    | _ => .error .reservedOp
  else .error .reservedField

/-- A command word from its fields, `rz` zero (R71). -/
def commandWord (op : BitVec 4) (arg : BitVec 24) : Word := op ++ (0 : BitVec 4) ++ arg

/-- The word that spells a command (R73). -/
def encode : Instr → Word
  | .nop => commandWord 0x0 0
  | .clr => commandWord 0x1 0
  | .cnt sym => commandWord 0x2 (sym.setWidth 24)
  | .bld => commandWord 0x3 0
  | .tbl => commandWord 0x4 0
  | .enc sym => commandWord 0x5 (sym.setWidth 24)
  | .dec bit => commandWord 0x6 (if bit then 1 else 0)
  | .endStream => commandWord 0x7 0

/-- The command word whose bits are `w`, every bit from `nbits` up zero. -/
def tableWord (nbits w : Nat) : Word := BitVec.ofNat 32 (w % 2 ^ nbits)

/-- The command the decoder reads, at the default parameters, from the opcode table's numbering of a word's bits:
a command is one 32-bit word and bit 0 is its least significant bit (R12, R71). -/
def decodeTableWord (nbits w : Nat) : Option Instr := (decode Params.standard (tableWord nbits w)).toOption

end Sys2Proof
end

