-- ==== Sys2Proof/Machine/State.lean ====
section
/-! DEFINITION. The state of the block (10_state R20), the host's side of its ports, the reasons a step can stop,
and the reset state (10_state R37). -/

namespace Sys2Proof.Machine

/-! ## The registers -/

/-- `PHASE`, the 2-bit register with three legal values (R23); the value 3 is never written and has no name here. -/
inductive Phase where
  /-- 0: the frequency map is being built. -/
  | count
  /-- 1: the tree is built. -/
  | tree
  /-- 2: the code table is built. -/
  | table
  deriving DecidableEq, Repr

/-- The five sticky flags `ERR` (R29). -/
structure ErrFlags where
  ill : Bool
  seq : Bool
  ovf : Bool
  nosym : Bool
  mal : Bool
  deriving DecidableEq, Repr

/-! ## The memories -/

/-- A word-indexed memory space (20_memory R50): the words that are not zero, by strictly rising index. -/
abbrev Memory (α : Type) : Type := List (Nat × α)

/-- The canonical form of a memory whose unlisted words are `z`: indices strictly rising, no word equal to `z`. -/
abbrev Memory.wf {α : Type} (z : α) (m : Memory α) : Prop :=
  m.Pairwise (fun a b => a.1 < b.1) ∧ ∀ c ∈ m, c.2 ≠ z

/-- Every listed index lies in the space's range `0 .. n-1` (R50). -/
abbrev Memory.below {α : Type} (n : Nat) (m : Memory α) : Prop := ∀ c ∈ m, c.1 < n

/-- One word of `NODE` (R33). -/
structure NodeWord (p : Params) where
  isLeaf : Bool
  sym : BitVec p.symW
  left : BitVec p.idxW
  right : BitVec p.idxW
  weight : BitVec p.wW
  deriving DecidableEq, Repr

/-- The NODE word with every field zero, which every index holds after reset (R37). -/
def NodeWord.zero (p : Params) : NodeWord p := ⟨false, 0, 0, 0, 0⟩

/-- One word of `CODE` (R34): position `i` of the code is bit `i` of `bits` (R13). -/
structure CodeWord (p : Params) where
  len : BitVec p.lenW
  bits : BitVec p.maxLen
  deriving DecidableEq, Repr

/-- The CODE word with `len = 0` and `bits = 0`: no code (R34, R37). -/
def CodeWord.zero (p : Params) : CodeWord p := ⟨0, 0⟩

/-! ## The block -/

/-- The block's state: exactly the table of R20. -/
structure Block (p : Params) where
  /-- `PHASE` (R23). -/
  phase : Phase
  /-- `NLEAF` (R24). -/
  nleaf : BitVec p.idxW
  /-- `NNODE` (R25). -/
  nnode : BitVec p.idxW
  /-- `ROOT` (R26). -/
  root : BitVec p.idxW
  /-- `ROOT_VALID` (R26). -/
  rootValid : Bool
  /-- `CUR` (R27). -/
  cur : BitVec p.idxW
  /-- `HALT` (R28). -/
  halt : Bool
  /-- `ERR` (R29). -/
  err : ErrFlags
  /-- `FREQ` (R32). -/
  freq : Memory (BitVec p.cntW)
  /-- `NODE` (R33). -/
  node : Memory (NodeWord p)
  /-- `CODE` (R34). -/
  code : Memory (CodeWord p)
  deriving DecidableEq, Repr

/-- The reset value of every piece of state (R37, R160). -/
def Block.reset (p : Params) : Block p where
  phase := .count
  nleaf := 0
  nnode := 0
  root := 0
  rootValid := false
  cur := 0
  halt := false
  err := ⟨false, false, false, false, false⟩
  freq := []
  node := []
  code := []

/-! ## The host's side -/

/-- The errors a command can report (60_exceptions R140), `OK` apart. -/
inductive Err where
  | illegal
  | seq
  | halted
  | countOverflow
  | symbolNotInTable
  | malformedDecodeInput
  deriving DecidableEq, Repr

/-- The response to one command (30_encoding R76). `err = none` is `OK`. -/
structure Rsp where
  err : Option Err
  symValid : Bool
  sym : Symbol
  bits : List Bool
  deriving DecidableEq, Repr

/-- What the host can do to the block (00_scope R11, 30_encoding R70): present a command word, assert `rst`, present an
index at one of the four read ports (20_memory R52). The index pins have the widths of `SYM_W = 16`. -/
inductive HostEvent where
  | cmd (w : Word)
  | rst
  | readFreq (a : BitVec 16)
  | readNode (a : BitVec 17)
  | readCode (a : BitVec 16)
  | readCsr (a : BitVec 3)
  deriving DecidableEq, Repr

/-- The word a read port returned (20_memory R52, 30_encoding R70). -/
inductive ReadWord (p : Params) where
  | freq (d : BitVec p.cntW)
  | node (d : BitVec p.nodeW)
  | code (d : BitVec p.codeW)
  | csr (d : Word)
  deriving DecidableEq, Repr

/-! ## The machine -/

/-- The machine: the implementation's parameters (R36: fixed for a run; no step changes them), the block, and the
host's side of its ports: what the host still presents, oldest first, the responses it has received (R10), and the
words it has read. -/
structure State where
  params : Params
  blk : Block params
  inbox : List HostEvent
  rsps : List Rsp
  reads : List (ReadWord params)
  deriving DecidableEq, Repr

/-- The machine right after reset at given parameters: the host has presented, received and read nothing. -/
def State.resetAt (p : Params) : State := ⟨p, Block.reset p, [], [], []⟩

/-- The machine right after reset (R37) at the spec's default parameters (R5, R6). -/
def State.reset : State := State.resetAt Params.standard

/-! ## Why a step can stop -/

/-- Why the machine stops. Both are for a tree that did not come from the tree builder, which no run reaches
(44_decoder R125, 93 U2 "refuse"); the hardware's own errors are responses, never a fault (60_exceptions R144). -/
inductive Fault where
  /-- Raised by `TBL` and `DEC` when a node index names no word of `NODE` (20_memory R53). Safe: the model stops. -/
  | nodeIndexOutOfRange
  /-- Raised by `DEC` when the cursor stands on a leaf of a tree whose root is internal (R125: "a node with no child
  for the given bit"), and by `TBL` when its walk does not end within `MAXLEN` levels (R109). Safe: the model stops. -/
  | malformedTree
  deriving DecidableEq, Repr

/-- Why an instruction has no meaning. -/
inductive Refusal where
  /-- Raised by `exec` for an instruction that has no meaning yet; none is left. Safe: the model stops. -/
  | notModelled (mnemonic : String)
  deriving DecidableEq, Repr

end Sys2Proof.Machine
end

