-- ==== Sys2Proof/Machine/Flags.lean ====
section
/-! DEFINITION. Flags, error codes and the checks every command shares (10_state R28 to R31, 30_encoding R73,
60_exceptions R140 to R143). -/

namespace Sys2Proof.Machine

open Sys2Proof (Instr Params Word)

/-- The value of `PHASE` (R23). -/
def Phase.bits : Phase → BitVec 2
  | .count => 0
  | .tree => 1
  | .table => 2

/-- The response code of an error (R140). -/
def Err.code : Err → BitVec 4
  | .illegal => 1
  | .seq => 2
  | .halted => 3
  | .countOverflow => 4
  | .symbolNotInTable => 5
  | .malformedDecodeInput => 6

/-- The fatal errors, which set `HALT` (R141, R142). -/
def Err.fatal : Err → Bool
  | .illegal => false
  | .seq => false
  | .halted => false
  | .countOverflow => true
  | .symbolNotInTable => true
  | .malformedDecodeInput => false

/-- The sticky flag an error sets; `HALTED` sets none (R141). -/
def ErrFlags.raised (f : ErrFlags) : Err → ErrFlags
  | .illegal => { f with ill := true }
  | .seq => { f with seq := true }
  | .halted => f
  | .countOverflow => { f with ovf := true }
  | .symbolNotInTable => { f with nosym := true }
  | .malformedDecodeInput => { f with mal := true }

/-- The phases that accept a command (R73). -/
def acceptedIn : Instr → Phase → Bool
  | .nop, _ => true
  | .clr, _ => true
  | .cnt _, ph => ph == .count
  | .bld, ph => ph == .count
  | .tbl, ph => ph == .tree
  | .enc _, ph => ph == .table
  | .dec _, ph => ph != .count
  | .endStream, ph => ph != .count

/-- `CLR` is the only command accepted while halted (R28, R129). -/
def acceptedWhileHalted : Instr → Bool
  | .clr => true
  | .nop => false
  | .cnt _ => false
  | .bld => false
  | .tbl => false
  | .enc _ => false
  | .dec _ => false
  | .endStream => false

/-- The first check that fails before a command's body: legality, then halt, then phase (R143). -/
def firstError {p : Params} (i : Instr) (b : Block p) : Option Err :=
  if !i.wf p then some .illegal
  else if b.halt && !acceptedWhileHalted i then some .halted
  else if !acceptedIn i b.phase then some .seq
  else none

/-- The word `STATUS`, packed as R31 says. -/
def statusWord {p : Params} (b : Block p) : Word :=
  (0 : BitVec 23) ++ BitVec.ofBool b.err.mal ++ BitVec.ofBool b.err.nosym ++ BitVec.ofBool b.err.ovf ++
    BitVec.ofBool b.err.seq ++ BitVec.ofBool b.err.ill ++ BitVec.ofBool b.halt ++ BitVec.ofBool b.rootValid ++
    b.phase.bits

/-- The status space `CSR` (R30): five words, indices 5 to 7 read as zero. -/
def csrRead {p : Params} (b : Block p) (a : BitVec 3) : Word :=
  match a.toNat with
  | 0 => statusWord b
  | 1 => b.nleaf.setWidth 32
  | 2 => b.nnode.setWidth 32
  | 3 => b.root.setWidth 32
  | 4 => b.cur.setWidth 32
  | _ => 0

end Sys2Proof.Machine
end

