-- ==== Sys2Proof/Machine/Ops.lean ====
section
/-! DEFINITION. The named operations over memories and over the block: reading and writing a word, answering a command,
raising an error, clearing the block, and the frame every command runs in (20_memory, 60_exceptions R141, R143, R144). -/

namespace Sys2Proof.Machine

open Sys2Proof (Instr Params Word Symbol)

/-! ## Memory words (20_memory R50, R55) -/

/-- The word at index `i`; an unlisted word is `z`, the word reset leaves. -/
def Memory.read {α : Type} (z : α) (m : Memory α) (i : Nat) : α :=
  match m with
  | [] => z
  | c :: rest => if c.1 = i then c.2 else Memory.read z rest i

/-- A memory with a word put at its place in the order of indices. -/
def Memory.put {α : Type} (m : Memory α) (i : Nat) (v : α) : Memory α :=
  match m with
  | [] => [(i, v)]
  | c :: rest => if i < c.1 then (i, v) :: c :: rest else c :: Memory.put rest i v

/-- Replace the word at index `i`; a word that becomes `z` is no longer listed. -/
def Memory.write {α : Type} [DecidableEq α] (z : α) (m : Memory α) (i : Nat) (v : α) : Memory α :=
  if v = z then m.filter (fun c => c.1 != i) else Memory.put (m.filter (fun c => c.1 != i)) i v

/-- `FREQ[i]` (R32). -/
def freqAt {p : Params} (b : Block p) (i : Nat) : BitVec p.cntW := Memory.read 0 b.freq i

/-- `CODE[i]` (R34). -/
def codeAt {p : Params} (b : Block p) (i : Nat) : CodeWord p := Memory.read (CodeWord.zero p) b.code i

/-- `NODE[i]` of a NODE memory (R33). -/
def nodeRead {p : Params} (m : Memory (NodeWord p)) (i : Nat) : NodeWord p := Memory.read (NodeWord.zero p) m i

/-- `NODE[i] <- w` (R33). -/
def nodeWrite {p : Params} (m : Memory (NodeWord p)) (i : Nat) (w : NodeWord p) : Memory (NodeWord p) :=
  Memory.write (NodeWord.zero p) m i w

/-- `CODE[i] <- w` (R34). -/
def codeWrite {p : Params} (m : Memory (CodeWord p)) (i : Nat) (w : CodeWord p) : Memory (CodeWord p) :=
  Memory.write (CodeWord.zero p) m i w

/-! ## Responses (30_encoding R76) -/

/-- `respond()`: `OK` with no symbol and no bits. -/
def Rsp.plain : Rsp := ⟨none, false, 0, []⟩

/-- `respond(sym = s)`: `OK` with a decoded symbol, zero-extended to 16 bits. -/
def Rsp.symbol {n : Nat} (s : BitVec n) : Rsp := ⟨none, true, s.setWidth 16, []⟩

/-- `respond(bits = l)`: `OK` with the bits of a code. -/
def Rsp.code (l : List Bool) : Rsp := ⟨none, false, 0, l⟩

/-- The response of an error: no symbol and no bits (R141). -/
def Rsp.error (e : Err) : Rsp := ⟨some e, false, 0, []⟩

/-- The response word: `err`, `sym_valid` and `sym` at the places of R76, everything else zero. -/
def Rsp.word (r : Rsp) : Word :=
  (0 : BitVec 8) ++ r.sym ++ (0 : BitVec 3) ++ BitVec.ofBool r.symValid ++
    (match r.err with | none => (0 : BitVec 4) | some e => e.code)

/-! ## Errors and clearing (60_exceptions R141, R144, R146) -/

/-- `raise e`: the error's sticky flag, `HALT` when it is fatal, and its response; nothing else changes (R141). -/
def raise {p : Params} (e : Err) (b : Block p) : Block p × Rsp :=
  ({ b with err := b.err.raised e, halt := b.halt || e.fatal }, Rsp.error e)

/-- The way out of the halted state (R146) and the start of a new run: every piece of state to its reset value
(R129, R160). `CLR` and `rst` both come here (R161). -/
def clearAll {p : Params} (_ : Block p) : Block p := Block.reset p

/-! ## Running a command (60_exceptions R143) -/

/-- The machine after a command: the block it leaves and its one response (R76). -/
def State.answer (s : State) (a : Block s.params × Rsp) : State :=
  { s with blk := a.1, rsps := s.rsps ++ [a.2] }

/-- Run a command: the first check that fails raises its error (R143), else the command's body gives the block and the
response, or stops on a tree the tree builder did not make. -/
def command (i : Instr) (s : State) (body : Block s.params → Except Fault (Block s.params × Rsp)) :
    Host.Outcome State Fault Refusal :=
  match firstError i s.blk with
  | some e => .next (s.answer (raise e s.blk))
  | none =>
    match body s.blk with
    | .ok a => .next (s.answer a)
    | .error f => .fault f

/-- A word that spells no command (R74): `ILLEGAL`, whatever the phase and also while halted (R143). -/
def rejectIllegal (s : State) : State := s.answer (raise .illegal s.blk)

end Sys2Proof.Machine
end

