-- ==== Sys2Proof/Machine/Operands.lean ====
section
/-! DEFINITION. The operand forms: a symbol used as a word index, a node index held in the state, a bit that chooses a
child, a code held in a word (30_encoding R72, 20_memory R51, 44_decoder R120, 00_scope R13); and the bit layouts of the
NODE and CODE words (10_state R33, R34). -/

namespace Sys2Proof.Machine

open Sys2Proof (Params Symbol)

/-- A symbol operand as an index of `FREQ` and `CODE` (R32, R34, R51). -/
def symIndex (sym : Symbol) : Nat := sym.toNat

/-- The NODE word a node index names; the index `MAXNODE` names none (R50, R53). -/
def nodeAt {p : Params} (m : Memory (NodeWord p)) (i : BitVec p.idxW) : Except Fault (NodeWord p) :=
  if i.toNat < p.maxNode then .ok (nodeRead m i.toNat) else .error .nodeIndexOutOfRange

/-- The child a bit chooses: 0 is left, 1 is right (R107, R120). -/
def NodeWord.child {p : Params} (w : NodeWord p) (bit : Bool) : BitVec p.idxW :=
  if bit then w.right else w.left

/-- The code a CODE word holds, first bit first: `bits[0], ..., bits[len-1]` (R13). -/
def CodeWord.toBits {p : Params} (c : CodeWord p) : List Bool :=
  (List.range c.len.toNat).map (fun i => c.bits.getLsbD i)

/-- The NODE word as the read port shows it, most significant field first (R33). -/
def NodeWord.pack {p : Params} (w : NodeWord p) : BitVec p.nodeW :=
  (BitVec.ofBool w.isLeaf ++ w.sym ++ w.left ++ w.right ++ w.weight).setWidth p.nodeW

/-- The CODE word as the read port shows it: `len` above `bits` (R34). -/
def CodeWord.pack {p : Params} (c : CodeWord p) : BitVec p.codeW := c.len ++ c.bits

end Sys2Proof.Machine
end

