-- ==== Sys2Proof/Machine/CodebookRom.lean ====
section
/-! DEFINITION. huffman_codebook_rom: `TBL`, which derives the code table from the tree (42_codebook_rom). -/

namespace Sys2Proof.Machine

open Sys2Proof (Instr Params)

/-- `walk(i, len, bits)` (R106): at a leaf record the code, else go left with a "0" appended, then right with a "1"
appended at bit position `len`. The first argument bounds the levels; a walk that needs more is no tree's (R109). -/
def walk {p : Params} (node : Memory (NodeWord p)) :
    Nat → BitVec p.idxW → Nat → BitVec p.maxLen → Memory (CodeWord p) → Except Fault (Memory (CodeWord p))
  | 0, _, _, _, _ => .error .malformedTree
  | fuel + 1, i, len, bits, code =>
    match nodeAt node i with
    | .error f => .error f
    | .ok w =>
      if w.isLeaf then .ok (codeWrite code w.sym.toNat ⟨BitVec.ofNat p.lenW len, bits⟩)
      else
        match walk node fuel (w.child false) (len + 1) bits code with
        | .error f => .error f
        | .ok code' => walk node fuel (w.child true) (len + 1) (bits ||| (1#p.maxLen <<< len)) code'

/-- The code table of a tree (R106): all words cleared, the fallback code "0" for a single leaf (R110), else the walk from
the root. A leaf lies at most `MAXLEN` levels down, so `MAXLEN + 1` levels suffice (R109). -/
def codeTable {p : Params} (b : Block p) : Except Fault (Memory (CodeWord p)) :=
  if b.rootValid then
    match nodeAt b.node b.root with
    | .error f => .error f
    | .ok w =>
      if w.isLeaf then .ok (codeWrite [] w.sym.toNat ⟨1, 0⟩)
      else walk b.node (p.maxLen + 1) b.root 0 0 []
  else .ok []

/-- The body of `TBL` (R106): the code table, phase 2. -/
def tblBody {p : Params} (b : Block p) : Except Fault (Block p × Rsp) :=
  match codeTable b with
  | .error f => .error f
  | .ok code => .ok ({ b with code := code, phase := .table }, Rsp.plain)

/-- `TBL` (R106). -/
def execTbl (s : State) : Host.Outcome State Fault Refusal :=
  command .tbl s tblBody

end Sys2Proof.Machine
end

