-- ==== Sys2Proof/Machine/Control.lean ====
section
/-! DEFINITION. Block control: `NOP` and `CLR` (45_control). -/

namespace Sys2Proof.Machine

open Sys2Proof (Instr)

/-- `NOP` (R128): respond, nothing else. -/
def execNop (s : State) : Host.Outcome State Fault Refusal :=
  command .nop s fun b => .ok (b, Rsp.plain)

/-- `CLR` (R129): the block's reset state, whatever the state before, also while halted. -/
def execClr (s : State) : Host.Outcome State Fault Refusal :=
  command .clr s fun b => .ok (clearAll b, Rsp.plain)

end Sys2Proof.Machine
end

