-- ==== Sys2Proof/Machine/Decoder.lean ====
section
/-! DEFINITION. huffman_decoder: `DEC` and `END`, the tree walker (44_decoder). -/

namespace Sys2Proof.Machine

open Sys2Proof (Instr Params)

/-- One transition of the cursor in a tree with an internal root (R119, R120): at a leaf its symbol is emitted and the
cursor returns to the root. The cursor on a leaf, which has no child, is the malformed tree of R125. -/
def moveCursor {p : Params} (bit : Bool) (b : Block p) : Except Fault (Block p × Rsp) :=
  match nodeAt b.node b.cur with
  | .error f => .error f
  | .ok here =>
    if here.isLeaf then .error .malformedTree
    else
      match nodeAt b.node (here.child bit) with
      | .error f => .error f
      | .ok next =>
        if next.isLeaf then .ok ({ b with cur := b.root }, Rsp.symbol next.sym)
        else .ok ({ b with cur := here.child bit }, Rsp.plain)

/-- The body of `DEC bit` (R119): no tree (R124), a single-leaf tree (R121), or a transition. -/
def decBody {p : Params} (bit : Bool) (b : Block p) : Except Fault (Block p × Rsp) :=
  if b.rootValid then
    match nodeAt b.node b.root with
    | .error f => .error f
    | .ok top => if top.isLeaf then .ok (b, Rsp.symbol top.sym) else moveCursor bit b
  else .ok (raise .malformedDecodeInput b)

/-- `DEC bit` (R119). -/
def execDec (bit : Bool) (s : State) : Host.Outcome State Fault Refusal :=
  command (.dec bit) s (decBody bit)

/-- The body of `END` (R122, R123): the stream must have stopped on a symbol boundary. -/
def endBody {p : Params} (b : Block p) : Block p × Rsp :=
  if b.cur ≠ b.root then raise .malformedDecodeInput { b with cur := b.root } else (b, Rsp.plain)

/-- `END` (R122). -/
def execEndStream (s : State) : Host.Outcome State Fault Refusal :=
  command .endStream s fun b => .ok (endBody b)

end Sys2Proof.Machine
end

