-- ==== Sys2Proof/Machine/Encoder.lean ====
section
/-! DEFINITION. huffman_encoder: `ENC`, the symbol to code look-up (43_encoder). -/

namespace Sys2Proof.Machine

open Sys2Proof (Instr Params Symbol)

/-- The body of `ENC sym` (R114, R115): the symbol's code, or `SYMBOL_NOT_IN_TABLE` when it has none. -/
def encBody {p : Params} (sym : Symbol) (b : Block p) : Block p × Rsp :=
  if (codeAt b (symIndex sym)).len = 0 then raise .symbolNotInTable b
  else (b, Rsp.code (codeAt b (symIndex sym)).toBits)

/-- `ENC sym` (R114). -/
def execEnc (sym : Symbol) (s : State) : Host.Outcome State Fault Refusal :=
  command (.enc sym) s fun b => .ok (encBody sym b)

end Sys2Proof.Machine
end

