-- ==== Sys2Proof/Machine/FreqCounter.lean ====
section
/-! DEFINITION. huffman_freq_counter: `CNT` (40_freq_counter). -/

namespace Sys2Proof.Machine

open Sys2Proof (Instr Params Symbol)

/-- The body of `CNT sym` (R91, R92): one more occurrence, or `COUNT_OVERFLOW` with the count left at `CNT_MAX`. -/
def cntBody {p : Params} (sym : Symbol) (b : Block p) : Block p × Rsp :=
  if (freqAt b (symIndex sym)).toNat = p.cntMax then raise .countOverflow b
  else ({ b with freq := Memory.write 0 b.freq (symIndex sym) (freqAt b (symIndex sym) + 1) }, Rsp.plain)

/-- `CNT sym` (R91). -/
def execCnt (sym : Symbol) (s : State) : Host.Outcome State Fault Refusal :=
  command (.cnt sym) s fun b => .ok (cntBody sym b)

end Sys2Proof.Machine
end

