-- ==== Sys2Proof/Machine/TreeBuilder.lean ====
section
/-! DEFINITION. huffman_tree_builder: `BLD`, the priority-queue merge (41_tree_builder). -/

namespace Sys2Proof.Machine

open Sys2Proof (Instr Params)

/-- The leaf of symbol `s` with count `c` (R97). -/
def leafWord {p : Params} (s : Nat) (c : BitVec p.cntW) : NodeWord p :=
  ⟨true, BitVec.ofNat p.symW s, 0, 0, c.setWidth p.wW⟩

/-- One pass of the leaf loop: a symbol with a count gets the next node index (R96 (a), R97). -/
def addLeaf {p : Params} (freq : Memory (BitVec p.cntW)) (acc : Memory (NodeWord p) × Nat) (s : Nat) :
    Memory (NodeWord p) × Nat :=
  if Memory.read 0 freq s = 0 then acc
  else (nodeWrite acc.1 acc.2 (leafWord s (Memory.read 0 freq s)), acc.2 + 1)

/-- The leaf loop over `s in 0 .. NSYM-1` ascending: the NODE memory and the number of leaves `K` (R97). -/
def buildLeaves {p : Params} (freq : Memory (BitVec p.cntW)) (node : Memory (NodeWord p)) :
    Memory (NodeWord p) × Nat :=
  (List.range p.nsym).foldl (addLeaf freq) (node, 0)

/-- `(NODE[i].weight, i) < (NODE[j].weight, j)`, lexicographic (R98, R12). -/
def lighter {p : Params} (node : Memory (NodeWord p)) (i j : Nat) : Bool :=
  decide ((nodeRead node i).weight < (nodeRead node j).weight) ||
    (decide ((nodeRead node i).weight = (nodeRead node j).weight) && decide (i < j))

/-- The lightest of the index `best` and the indices of a list. -/
def lightest {p : Params} (node : Memory (NodeWord p)) (best : Nat) (l : List Nat) : Nat :=
  l.foldl (fun m i => if lighter node i m then i else m) best

/-- `extract_min(PQ)`: the index with the least pair, and the queue without it (R98). -/
def extractMin {p : Params} (node : Memory (NodeWord p)) : List Nat → Option (Nat × List Nat)
  | [] => none
  | i :: rest => some (lightest node i rest, (i :: rest).erase (lightest node i rest))

/-- The internal node that joins `a`, extracted first, and `b` (R97, R99). -/
def mergeWord {p : Params} (node : Memory (NodeWord p)) (a b : Nat) : NodeWord p :=
  ⟨false, 0, BitVec.ofNat p.idxW a, BitVec.ofNat p.idxW b, (nodeRead node a).weight + (nodeRead node b).weight⟩

/-- The merge loop: while the queue holds two indices, join the two least (R97). `n` is the next free node index. The
first argument bounds the passes; each takes one index away, so the length of the queue suffices (R100). -/
def mergeLoop {p : Params} : Nat → Memory (NodeWord p) → List Nat → Nat → Memory (NodeWord p) × Nat
  | 0, node, _, n => (node, n)
  | fuel + 1, node, pq, n =>
    match extractMin node pq with
    | none => (node, n)
    | some (a, pq₁) =>
      match extractMin node pq₁ with
      | none => (node, n)
      | some (b, pq₂) => mergeLoop fuel (nodeWrite node n (mergeWord node a b)) (pq₂ ++ [n]) (n + 1)

/-- The body of `BLD` (R97, R102): the tree of the frequency map, the cursor at its root, phase 1. -/
def bldBody {p : Params} (b : Block p) : Block p × Rsp :=
  let leaves := buildLeaves b.freq b.node
  let k := leaves.2
  if k = 0 then
    ({ b with
        node := leaves.1, nleaf := 0, nnode := 0, root := 0, rootValid := false, cur := 0, phase := .tree },
      Rsp.plain)
  else
    let merged := mergeLoop k leaves.1 (List.range k) k
    let root := BitVec.ofNat p.idxW (merged.2 - 1)
    ({ b with
        node := merged.1, nleaf := BitVec.ofNat p.idxW k, nnode := BitVec.ofNat p.idxW merged.2,
        root := root, rootValid := true, cur := root, phase := .tree },
      Rsp.plain)

/-- `BLD` (R97). -/
def execBld (s : State) : Host.Outcome State Fault Refusal :=
  command .bld s fun b => .ok (bldBody b)

end Sys2Proof.Machine
end

