-- ==== Sys2Proof/Machine/Dispatch.lean ====
section
/-! DEFINITION. One arm per command of 30_encoding R73. -/

namespace Sys2Proof.Machine

open Sys2Proof (Instr)

/-- What a command does (R73). -/
def exec (i : Instr) (s : State) : Host.Outcome State Fault Refusal :=
  match i with
  | .nop => Sys2Proof.Machine.execNop s
  | .clr => Sys2Proof.Machine.execClr s
  | .cnt sym => Sys2Proof.Machine.execCnt sym s
  | .bld => Sys2Proof.Machine.execBld s
  | .tbl => Sys2Proof.Machine.execTbl s
  | .enc sym => Sys2Proof.Machine.execEnc sym s
  | .dec bit => Sys2Proof.Machine.execDec bit s
  | .endStream => Sys2Proof.Machine.execEndStream s

end Sys2Proof.Machine
end

