-- ==== Sys2Proof/Machine/HostPort.lean ====
section
/-! DEFINITION. The host's side: taking the next thing the host presents, the four read ports and `rst`
(20_memory R52, R53, 30_encoding R70, 70_reset R160). -/

namespace Sys2Proof.Machine

open Sys2Proof (Params Word)

/-- The `FREQ` read port (R52): an index with no word reads as zero (R53). -/
def readFreqPort {p : Params} (b : Block p) (a : BitVec 16) : BitVec p.cntW :=
  if a.toNat < p.nsym then freqAt b a.toNat else 0

/-- The `NODE` read port (R52): an index with no word reads as zero (R53). -/
def readNodePort {p : Params} (b : Block p) (a : BitVec 17) : BitVec p.nodeW :=
  if a.toNat < p.maxNode then (nodeRead b.node a.toNat).pack else 0

/-- The `CODE` read port (R52): an index with no word reads as zero (R53). -/
def readCodePort {p : Params} (b : Block p) (a : BitVec 16) : BitVec p.codeW :=
  if a.toNat < p.nsym then (codeAt b a.toNat).pack else 0

/-- What the host presents next. -/
inductive Fetched where
  /-- Nothing: the block is idle (R10, R149). -/
  | idle
  /-- A command word, and the machine without it. -/
  | command (w : Word) (s : State)
  /-- `rst` or a read, already served: the machine after it. -/
  | served (s : State)
  deriving DecidableEq, Repr

/-- The host has read a word; the block does not change (R52). -/
def State.readDone (s : State) (d : ReadWord s.params) : State := { s with reads := s.reads ++ [d] }

/-- `rst`: every piece of state to its reset value, and no response (R160). -/
def State.applyReset (s : State) : State := { s with blk := clearAll s.blk }

/-- The machine without the event it takes, which is the oldest. -/
def State.withInbox (s : State) (l : List HostEvent) : State := { s with inbox := l }

/-- Take the oldest thing the host presents: events are ordered, one at a time, and fall between commands (R57, R149). -/
def fetch (s : State) : Fetched :=
  match s.inbox with
  | [] => .idle
  | .cmd w :: rest => .command w (s.withInbox rest)
  | .rst :: rest => .served (s.withInbox rest).applyReset
  | .readFreq a :: rest => .served ((s.withInbox rest).readDone (.freq (readFreqPort s.blk a)))
  | .readNode a :: rest => .served ((s.withInbox rest).readDone (.node (readNodePort s.blk a)))
  | .readCode a :: rest => .served ((s.withInbox rest).readDone (.code (readCodePort s.blk a)))
  | .readCsr a :: rest => .served ((s.withInbox rest).readDone (.csr (csrRead s.blk a)))

end Sys2Proof.Machine
end

