-- ==== Sys2Proof/Machine/Step.lean ====
section
/-! DEFINITION. One step: the oldest thing the host presents takes effect (00_scope R7, R9). -/

namespace Sys2Proof.Machine

open Sys2Proof (Word decode tableWord)

/-- Run a command word: the command it spells, or `ILLEGAL` (R74, R75). -/
def runWord (w : Word) (s : State) : Host.Outcome State Fault Refusal :=
  match decode s.params w with
  | .ok i => exec i s
  | .error _ => .next (rejectIllegal s)

/-- One step. With nothing presented the block is idle (R149). -/
def step (s : State) : Host.Outcome State Fault Refusal :=
  match fetch s with
  | .idle => .next s
  | .command w s' => runWord w s'
  | .served s' => .next s'

/-- The machine with a command word presented ahead of everything else, so that the next step takes it. -/
def State.withFetchWord (s : State) (nbits w : Nat) : State :=
  s.withInbox (.cmd (tableWord nbits w) :: s.inbox)

end Sys2Proof.Machine
end

