-- ==== Sys2Proof/Safety.lean ====
section
/-! DEFINITION. What counts as a safe state and what a run shows: the invariants of 10_state R38, the observations of
00_scope R10, and the terms in which the obligations speak of trees and codes. -/

namespace Sys2Proof.Machine

open Sys2Proof (Params Symbol Word)

/-! ## Observations of a run (00_scope R10) -/

/-- The encoded stream: the `bits` of the `OK` responses, in order (R10). -/
def encodedStream (rs : List Rsp) : List Bool := (rs.filter (fun r => r.err == none)).flatMap (fun r => r.bits)

/-- The decoded sequence: the symbols of the `OK` responses that carry one, in order (R10). -/
def decodedSequence (rs : List Rsp) : List Symbol :=
  (rs.filter (fun r => r.err == none && r.symValid)).map (fun r => r.sym)

/-- Every response is `OK` (R10). -/
abbrev errorFree (rs : List Rsp) : Prop := ∀ r ∈ rs, r.err = none

/-- The machine with command words presented after everything it already holds. -/
def State.present (s : State) (l : List Instr) : State :=
  { s with inbox := s.inbox ++ l.map (fun i => HostEvent.cmd (encode i)) }

/-- `n` steps, stopping at the first fault or refusal. -/
def run : Nat → State → Host.Outcome State Fault Refusal
  | 0, s => .next s
  | n + 1, s =>
    match step s with
    | .next t => run n t
    | .fault f => .fault f
    | .refused r => .refused r

/-- What the host has received since the machine was `s`. -/
def State.newSince (t s : State) : List Rsp := t.rsps.drop s.rsps.length

/-! ## Words and reset -/

/-- A word matches no row of R73 (R74): `op` is bits 31:28, `rz` bits 27:24, `arg` bits 23:0 of its value (R71). -/
def wordIllegal (p : Params) (w : Word) : Prop :=
  8 ≤ w.toNat / 2 ^ 28 ∨ w.toNat / 2 ^ 24 % 16 ≠ 0 ∨
    (w.toNat / 2 ^ 28 ∈ [0, 1, 3, 4, 7] ∧ w.toNat % 2 ^ 24 ≠ 0) ∨
    (w.toNat / 2 ^ 28 ∈ [2, 5] ∧ p.nsym ≤ w.toNat % 2 ^ 24) ∨
    (w.toNat / 2 ^ 28 = 6 ∧ 1 < w.toNat % 2 ^ 24)

/-- Every piece of state has the value of the table of R37. -/
structure Block.AtReset {p : Params} (b : Block p) : Prop where
  phase : b.phase = .count
  nleaf : b.nleaf.toNat = 0
  nnode : b.nnode.toNat = 0
  root : b.root.toNat = 0
  rootValid : b.rootValid = false
  cur : b.cur.toNat = 0
  halt : b.halt = false
  err : b.err = ⟨false, false, false, false, false⟩
  freq : ∀ s, freqAt b s = 0
  node : ∀ i, nodeRead b.node i = ⟨false, 0, 0, 0, 0⟩
  code : ∀ s, codeAt b s = ⟨0, 0⟩
  status : csrRead b 0 = 0

/-! ## Trees and codes -/

/-- `NODE[i]`. -/
def nodeOf {p : Params} (b : Block p) (i : Nat) : NodeWord p := nodeRead b.node i

/-- The number of symbols with a count: the keys of the frequency map (R24, R32). -/
def keyCount {p : Params} (b : Block p) : Nat := (List.range p.nsym).countP (fun s => decide (freqAt b s ≠ 0))

/-- The length of the counted input: the sum of all counts (R100). -/
def countSum {p : Params} (b : Block p) : Nat := ((List.range p.nsym).map (fun s => (freqAt b s).toNat)).sum

/-- The symbol of the leaf that a bit string leads to from node `i`, 0 left and 1 right (R107, R120): `none` when the
string stops at an internal node or goes on past a leaf. -/
def leafAt {p : Params} (m : Memory (NodeWord p)) (i : BitVec p.idxW) : List Bool → Option (BitVec p.symW)
  | [] => if (nodeRead m i.toNat).isLeaf then some (nodeRead m i.toNat).sym else none
  | bit :: rest =>
    if (nodeRead m i.toNat).isLeaf then none else leafAt m ((nodeRead m i.toNat).child bit) rest

/-- The node index a bit string leads to from `i` through internal nodes of NODE, 0 left and 1 right: `none` when the string
goes on past a leaf or past an index that names no NODE word. -/
def nodeAlong {p : Params} (m : Memory (NodeWord p)) (i : BitVec p.idxW) : List Bool → Option (BitVec p.idxW)
  | [] => some i
  | bit :: rest =>
    if i.toNat < p.maxNode ∧ (nodeRead m i.toNat).isLeaf = false then
      nodeAlong m ((nodeRead m i.toNat).child bit) rest
    else none

/-- The key by which the queue is ordered, `(NODE[i].weight, i)` (R98). -/
def queueKey {p : Params} (b : Block p) (i : Nat) : Nat × Nat := ((nodeOf b i).weight.toNat, i)

/-- `(a, b) < (c, d)` on pairs (R12). -/
def pairLess (x y : Nat × Nat) : Prop := x.1 < y.1 ∨ (x.1 = y.1 ∧ x.2 < y.2)

/-- Node `i` is in the queue when node `n` is about to be made: it exists and no internal node made before `n` has it as
a child (R97). -/
def inQueue {p : Params} (b : Block p) (n i : Nat) : Prop :=
  i < n ∧ ∀ j, b.nleaf.toNat ≤ j → j < n → (nodeOf b j).left.toNat ≠ i ∧ (nodeOf b j).right.toNat ≠ i

/-! ## The invariant (10_state R38) -/

/-- Every memory is in its canonical form and lists only indices of its space (R50). -/
structure Block.MemoryWf {p : Params} (b : Block p) : Prop where
  freq : Memory.wf 0 b.freq
  freqBelow : Memory.below p.nsym b.freq
  node : Memory.wf (NodeWord.zero p) b.node
  nodeBelow : Memory.below p.maxNode b.node
  code : Memory.wf (CodeWord.zero p) b.code
  codeBelow : Memory.below p.nsym b.code

/-- R38 item 2: nothing is built in phase `COUNT`. -/
structure Block.NothingBuilt {p : Params} (b : Block p) : Prop where
  nleaf : b.nleaf = 0
  nnode : b.nnode = 0
  root : b.root = 0
  rootValid : b.rootValid = false
  cur : b.cur = 0
  node : ∀ i, nodeOf b i = NodeWord.zero p
  code : ∀ s, codeAt b s = CodeWord.zero p

/-- R38 item 3: the tree registers. -/
structure Block.TreeRegisters {p : Params} (b : Block p) : Prop where
  nleaf : b.nleaf.toNat = keyCount b
  empty : b.nleaf.toNat = 0 → b.nnode.toNat = 0 ∧ b.rootValid = false ∧ b.root.toNat = 0
  full : b.nleaf.toNat ≠ 0 →
    b.nnode.toNat = 2 * b.nleaf.toNat - 1 ∧ b.rootValid = true ∧ b.root.toNat = b.nnode.toNat - 1

/-- R38 item 4, with the fields R33 gives a leaf and an internal node and the one leaf per key of R96 (a). -/
structure Block.TreeShape {p : Params} (b : Block p) : Prop where
  leaf : ∀ i, i < b.nleaf.toNat →
    (nodeOf b i).isLeaf = true ∧ (nodeOf b i).left = 0 ∧ (nodeOf b i).right = 0 ∧
      freqAt b (nodeOf b i).sym.toNat ≠ 0 ∧
      (nodeOf b i).weight.toNat = (freqAt b (nodeOf b i).sym.toNat).toNat
  ascending : ∀ i, i + 1 < b.nleaf.toNat → (nodeOf b i).sym.toNat < (nodeOf b (i + 1)).sym.toNat
  keys : ∀ s, s < p.nsym → freqAt b s ≠ 0 → ∃ i, i < b.nleaf.toNat ∧ (nodeOf b i).sym.toNat = s
  inner : ∀ i, b.nleaf.toNat ≤ i → i < b.nnode.toNat →
    (nodeOf b i).isLeaf = false ∧ (nodeOf b i).sym = 0 ∧
      (nodeOf b i).left.toNat < i ∧ (nodeOf b i).right.toNat < i ∧ (nodeOf b i).left ≠ (nodeOf b i).right ∧
      (nodeOf b i).weight.toNat =
        (nodeOf b (nodeOf b i).left.toNat).weight.toNat + (nodeOf b (nodeOf b i).right.toNat).weight.toNat
  parent : ∀ j, j + 1 < b.nnode.toNat → ∃! e : Nat × Bool,
    b.nleaf.toNat ≤ e.1 ∧ e.1 < b.nnode.toNat ∧ ((nodeOf b e.1).child e.2).toNat = j
  rest : ∀ i, b.nnode.toNat ≤ i → nodeOf b i = NodeWord.zero p

/-- R38 item 5: the cursor is the root or an internal node. -/
structure Block.CursorOk {p : Params} (b : Block p) : Prop where
  inRange : b.cur.toNat < max b.nnode.toNat 1
  place : b.cur = b.root ∨ (b.nleaf.toNat ≤ b.cur.toNat ∧ (nodeOf b b.cur.toNat).isLeaf = false)

/-- The code of one symbol is its path from the root, or the fallback "0" of a single leaf (R106, R107, R110), and the
bits above its length are zero (R34). -/
structure Block.CodeOf {p : Params} (b : Block p) (s : Nat) : Prop where
  path : (nodeOf b b.root.toNat).isLeaf = false →
    (leafAt b.node b.root (codeAt b s).toBits).map (fun x => x.toNat) = some s
  fallback : (nodeOf b b.root.toNat).isLeaf = true →
    (codeAt b s).toBits = [false] ∧ (nodeOf b b.root.toNat).sym.toNat = s
  high : ∀ i, (codeAt b s).len.toNat ≤ i → (codeAt b s).bits.getLsbD i = false

/-- R38 item 6 in phase `TABLE`, with R34 and R108 (d): exactly the counted symbols have a code, the word of every other
symbol is zero as a whole, each code is its path, and no code is the beginning of another. -/
structure Block.TableOk {p : Params} (b : Block p) : Prop where
  keys : ∀ s, s < p.nsym → ((codeAt b s).len ≠ 0 ↔ freqAt b s ≠ 0)
  absent : ∀ s, s < p.nsym → (codeAt b s).len = 0 → codeAt b s = CodeWord.zero p
  codes : ∀ s, s < p.nsym → (codeAt b s).len ≠ 0 → b.CodeOf s
  noPrefix : ∀ s t, s < p.nsym → t < p.nsym → s ≠ t → (codeAt b s).len ≠ 0 → (codeAt b t).len ≠ 0 →
    ¬ (codeAt b s).toBits <+: (codeAt b t).toBits

/-- The invariant of R38, with the canonical form of the memories. Item 1 (`PHASE` is 0, 1 or 2) holds of every value of
`Phase`. -/
structure Block.Inv {p : Params} (b : Block p) : Prop where
  memory : b.MemoryWf
  counting : b.phase = .count → b.NothingBuilt
  registers : b.phase ≠ .count → b.TreeRegisters
  shape : b.phase ≠ .count → b.TreeShape
  cursor : b.phase ≠ .count → b.CursorOk
  noTable : b.phase ≠ .table → ∀ s, codeAt b s = CodeWord.zero p
  table : b.phase = .table → b.TableOk
  halted : b.halt = true → b.err.ovf = true ∨ b.err.nosym = true

/-- The invariant of the machine: that of its block. -/
abbrev State.Inv (s : State) : Prop := s.blk.Inv

/-- The machine but for its sticky flags and the words the host has read: what flags could influence (R145). -/
def State.withoutFlags (s : State) : State :=
  { s with blk := { s.blk with err := ⟨false, false, false, false, false⟩ }, reads := [] }

end Sys2Proof.Machine
end

