-- ==== Sys2Proof/Certificates/Slice0/Obligations.lean ====
section
/-! DEFINITION. The statements for the provers. Each docstring names the rules of spec/ that the statement formalises. -/

open Sys2Proof Sys2Proof.Machine

/-! ## Encoding and decoding -/

/-- R71, R72, R73: decoding the word of a well-formed command gives the command back, at all parameters and with every
operand at every value. -/
def Obligations.DecodeOfEncode : Prop :=
  ∀ (p : Params) (i : Instr), i.wf p = true → decode p (encode i) = .ok i

/-- R75: a word that is not illegal spells exactly one command, whose word it is. -/
def Obligations.EncodeOfDecode : Prop :=
  ∀ (p : Params) (w : Word) (i : Instr), decode p w = .ok i → i.wf p = true ∧ encode i = w

/-- R73: a word spells a command exactly when its masked bits match, with the masks of both symbol widths, and the operand is
the word's unmasked bits. -/
def Obligations.MatchAndMask : Prop :=
  ∀ (p : Params) (w : Word), ∀ symMask : Word,
    symMask = (match p.symWidth with | .w8 => 0xFFFFFF00 | .w16 => 0xFFFF0000) →
    (decode p w = .ok .nop ↔ w &&& 0xFFFFFFFF = 0x00000000) ∧
    (decode p w = .ok .clr ↔ w &&& 0xFFFFFFFF = 0x10000000) ∧
    (∀ sym : Symbol, decode p w = .ok (.cnt sym) ↔ w &&& symMask = 0x20000000 ∧ w &&& ~~~symMask = sym.setWidth 32) ∧
    (decode p w = .ok .bld ↔ w &&& 0xFFFFFFFF = 0x30000000) ∧
    (decode p w = .ok .tbl ↔ w &&& 0xFFFFFFFF = 0x40000000) ∧
    (∀ sym : Symbol, decode p w = .ok (.enc sym) ↔ w &&& symMask = 0x50000000 ∧ w &&& ~~~symMask = sym.setWidth 32) ∧
    (∀ bit : Bool, decode p w = .ok (.dec bit) ↔
      w &&& 0xFFFFFFFE = 0x60000000 ∧ w &&& 1 = (if bit then 1 else 0)) ∧
    (decode p w = .ok .endStream ↔ w &&& 0xFFFFFFFF = 0x70000000)

/-- R74: which words are illegal; what presenting one does, whatever the state, halted or not; and no two commands share a
word. -/
def Obligations.IllegalWords : Prop :=
  (∀ (p : Params) (w : Word), (∃ e, decode p w = .error e) ↔ wordIllegal p w) ∧
  (∀ (s : State) (w : Word) (rest : List HostEvent), s.inbox = .cmd w :: rest → wordIllegal s.params w →
    step s = .next { s with
      blk := { s.blk with err := { s.blk.err with ill := true } }
      inbox := rest
      rsps := s.rsps ++ [⟨some .illegal, false, 0, []⟩] }) ∧
  (∀ (p : Params) (i j : Instr), i.wf p = true → j.wf p = true → encode i = encode j → i = j)

/-- 30_encoding section 7 and 95_test_vectors 2.1: words written out in the spec decode as it says. -/
def Obligations.WorkedEncodings : Prop :=
  let p := Params.standard
  let q : Params := ⟨.w16, 32, by decide, by decide⟩
  decode p 0x00000000 = .ok .nop ∧ decode p 0x10000000 = .ok .clr ∧ decode p 0x20000061 = .ok (.cnt 0x61) ∧
    decode p 0x30000000 = .ok .bld ∧ decode p 0x40000000 = .ok .tbl ∧ decode p 0x50000072 = .ok (.enc 0x72) ∧
    decode p 0x60000001 = .ok (.dec true) ∧ decode p 0x70000000 = .ok .endStream ∧
    decode p 0x80000000 = .error .reservedOp ∧ decode p 0x21000061 = .error .reservedField ∧
    decode p 0x20000100 = .error .symbolOutOfRange ∧ decode q 0x20000100 = .ok (.cnt 0x100) ∧
    decode p 0x60000002 = .error .bitOutOfRange ∧ decode p 0x30000001 = .error .argNotZero

/-! ## The step -/

/-- R7, R57: the step takes the oldest command word the host presents and runs the command it spells. -/
def Obligations.StepRunsDecodedCommand : Prop :=
  ∀ (s : State) (w : Word) (rest : List HostEvent) (i : Instr),
    s.inbox = .cmd w :: rest → decode s.params w = .ok i → step s = exec i { s with inbox := rest }

/-- R57, R76, R149, R160: a step takes exactly the oldest thing the host presents, and nothing happens when there is none; a
command word gives exactly one response and no read, `rst` neither, a read-port access one word and no change of the block. -/
def Obligations.OneEventPerStep : Prop :=
  ∀ s t : State, step s = .next t →
    (s.inbox = [] ∧ t = s) ∨
      ∃ (e : HostEvent) (rest : List HostEvent) (b : Block s.params) (rs : List Rsp) (rd : List (ReadWord s.params)),
        s.inbox = e :: rest ∧ t = ⟨s.params, b, rest, s.rsps ++ rs, s.reads ++ rd⟩ ∧
        ((∃ w, e = .cmd w) → rs.length = 1 ∧ rd = []) ∧
        (e = .rst → rs = [] ∧ rd = []) ∧
        ((∀ w, e ≠ .cmd w) → e ≠ .rst → rs = [] ∧ rd.length = 1 ∧ b = s.blk)

/-- R160: `rst` puts every piece of state at its reset value, whatever the state, and gives no response. -/
def Obligations.ResetPin : Prop :=
  ∀ (s : State) (rest : List HostEvent), s.inbox = .rst :: rest →
    ∃ b : Block s.params, step s = .next { s with blk := b, inbox := rest } ∧ b.AtReset

/-- R37: the reset values, at every choice of the parameters, and the defaults of R5 and R6 at `State.reset`. -/
def Obligations.ResetState : Prop :=
  (∀ p : Params, (State.resetAt p).blk.AtReset ∧ (State.resetAt p).params = p) ∧
    State.reset.params.symW = 8 ∧ State.reset.params.cntW = 32 ∧ State.reset.blk.AtReset

/-- R52, R53: a read-port access returns the word at the index, all zeros outside the space, and changes nothing in the
block. -/
def Obligations.ReadPorts : Prop :=
  ∀ (s : State) (rest : List HostEvent),
    (∀ a : BitVec 16, s.inbox = .readFreq a :: rest →
      ∃ d, step s = .next { s with inbox := rest, reads := s.reads ++ [.freq d] } ∧
        (a.toNat < s.params.nsym → d = freqAt s.blk a.toNat) ∧ (s.params.nsym ≤ a.toNat → d = 0)) ∧
    (∀ a : BitVec 17, s.inbox = .readNode a :: rest →
      ∃ d, step s = .next { s with inbox := rest, reads := s.reads ++ [.node d] } ∧
        (a.toNat < s.params.maxNode → d = (nodeOf s.blk a.toNat).pack) ∧ (s.params.maxNode ≤ a.toNat → d = 0)) ∧
    (∀ a : BitVec 16, s.inbox = .readCode a :: rest →
      ∃ d, step s = .next { s with inbox := rest, reads := s.reads ++ [.code d] } ∧
        (a.toNat < s.params.nsym → d = (codeAt s.blk a.toNat).pack) ∧ (s.params.nsym ≤ a.toNat → d = 0)) ∧
    (∀ a : BitVec 3, s.inbox = .readCsr a :: rest →
      ∃ d, step s = .next { s with inbox := rest, reads := s.reads ++ [.csr d] } ∧ d = csrRead s.blk a ∧
        (5 ≤ a.toNat → d = 0))

/-! ## The checks every command shares -/

/-- R73, R28: the column "phase" of the command table, as behaviour: a legal command given to a block that is not halted is
refused with `SEQ` exactly in the phases the table does not list for it, and while halted every legal command but `CLR`, and
only those, is refused with `HALTED`. -/
def Obligations.AcceptanceTable : Prop :=
  ∀ (s : State) (i : Instr), i.wf s.params = true →
    (s.blk.halt = false →
      ((∃ t r, exec i s = .next t ∧ t.rsps = s.rsps ++ [r] ∧ r.err = some .seq) ↔
        match i with
        | .nop => False
        | .clr => False
        | .cnt _ => s.blk.phase ≠ .count
        | .bld => s.blk.phase ≠ .count
        | .tbl => s.blk.phase ≠ .tree
        | .enc _ => s.blk.phase ≠ .table
        | .dec _ => s.blk.phase = .count
        | .endStream => s.blk.phase = .count)) ∧
    ((∃ t r, exec i s = .next t ∧ t.rsps = s.rsps ++ [r] ∧ r.err = some .halted) ↔ s.blk.halt = true ∧ i ≠ .clr)

/-- R143: the checks in their order, each with its whole effect: legality, then halt, then phase; a command that passes them
reports only the error of its own body, under that error's condition. -/
def Obligations.CheckOrder : Prop :=
  (∀ (s : State) (w : Word) (rest : List HostEvent), s.inbox = .cmd w :: rest → wordIllegal s.params w →
    step s = .next { s with
      blk := { s.blk with err := { s.blk.err with ill := true } }
      inbox := rest
      rsps := s.rsps ++ [⟨some .illegal, false, 0, []⟩] }) ∧
  (∀ (s : State) (i : Instr), i.wf s.params = true → s.blk.halt = true → i ≠ .clr →
    exec i s = .next { s with rsps := s.rsps ++ [⟨some .halted, false, 0, []⟩] }) ∧
  (∀ (s : State) (i : Instr), i.wf s.params = true → s.blk.halt = false → acceptedIn i s.blk.phase = false →
    exec i s = .next { s with
      blk := { s.blk with err := { s.blk.err with seq := true } }, rsps := s.rsps ++ [⟨some .seq, false, 0, []⟩] }) ∧
  (∀ (s t : State) (i : Instr) (r : Rsp) (e : Err), i.wf s.params = true → (s.blk.halt = false ∨ i = .clr) →
    acceptedIn i s.blk.phase = true → exec i s = .next t → t.rsps = s.rsps ++ [r] → r.err = some e →
    (e = .countOverflow ∧ ∃ sym, i = .cnt sym ∧ (freqAt s.blk sym.toNat).toNat = s.params.cntMax) ∨
    (e = .symbolNotInTable ∧ ∃ sym, i = .enc sym ∧ (codeAt s.blk sym.toNat).len = 0) ∨
    (e = .malformedDecodeInput ∧
      ((i = .endStream ∧ s.blk.cur ≠ s.blk.root) ∨ ((∃ bit, i = .dec bit) ∧ s.blk.rootValid = false))))

/-- R28: `HALT` is set by nothing but a fatal error, a fatal error sets it, it refuses every legal command but `CLR` without a
change, and it is cleared only by `CLR` and reset. -/
def Obligations.HaltRule : Prop :=
  (∀ s t : State, step s = .next t → s.blk.halt = false → t.blk.halt = true →
    ∃ r, t.rsps = s.rsps ++ [r] ∧ (r.err = some .countOverflow ∨ r.err = some .symbolNotInTable)) ∧
  (∀ (s t : State) (r : Rsp), step s = .next t → t.rsps = s.rsps ++ [r] →
    r.err = some .countOverflow ∨ r.err = some .symbolNotInTable → t.blk.halt = true) ∧
  (∀ (s : State) (w : Word) (rest : List HostEvent) (i : Instr), s.blk.halt = true → s.inbox = .cmd w :: rest →
    decode s.params w = .ok i → i ≠ .clr →
    step s = .next { s with inbox := rest, rsps := s.rsps ++ [⟨some .halted, false, 0, []⟩] }) ∧
  (∀ s t : State, step s = .next t → s.blk.halt = true → t.blk.halt = false →
    ∃ rest, s.inbox = .cmd (encode .clr) :: rest ∨ s.inbox = .rst :: rest)

/-- R29, R141: a step that is no `CLR` and no reset sets exactly the flag of the error it reports and clears none; `CLR`,
halted or not, and reset clear all five. -/
def Obligations.FlagsAreSticky : Prop :=
  (∀ s t : State, step s = .next t → (∀ rest, s.inbox ≠ .rst :: rest) →
    (∀ rest, s.inbox ≠ .cmd (encode .clr) :: rest) →
    (t.blk.err.ill = true ↔ s.blk.err.ill = true ∨ ∃ r ∈ t.newSince s, r.err = some .illegal) ∧
    (t.blk.err.seq = true ↔ s.blk.err.seq = true ∨ ∃ r ∈ t.newSince s, r.err = some .seq) ∧
    (t.blk.err.ovf = true ↔ s.blk.err.ovf = true ∨ ∃ r ∈ t.newSince s, r.err = some .countOverflow) ∧
    (t.blk.err.nosym = true ↔ s.blk.err.nosym = true ∨ ∃ r ∈ t.newSince s, r.err = some .symbolNotInTable) ∧
    (t.blk.err.mal = true ↔ s.blk.err.mal = true ∨ ∃ r ∈ t.newSince s, r.err = some .malformedDecodeInput)) ∧
  (∀ (s t : State) (rest : List HostEvent), step s = .next t →
    s.inbox = .rst :: rest ∨ s.inbox = .cmd (encode .clr) :: rest → t.blk.err = ⟨false, false, false, false, false⟩)

/-- R29, R145: no flag changes behaviour. Machines that differ only in their flags (and in what the host has read) step alike:
same responses, same state but for the flags, same stop. -/
def Obligations.FlagsGateNothing : Prop :=
  ∀ s s' : State, s.withoutFlags = s'.withoutFlags →
    match step s, step s' with
    | .next t, .next t' => t.withoutFlags = t'.withoutFlags
    | .fault f, .fault f' => f = f'
    | _, _ => False

/-- R145: over steps without a `CLR` or a reset, from a machine without a flag and not halted, every response was `OK` exactly
when `STATUS[8:3]` is zero at the end. -/
def Obligations.ErrorFreeIffStatusClear : Prop :=
  ∀ (n : Nat) (s t : State), s.blk.halt = false → s.blk.err = ⟨false, false, false, false, false⟩ →
    (∀ e ∈ s.inbox, e ≠ .rst ∧ e ≠ .cmd (encode .clr)) → run n s = .next t →
    (errorFree (t.newSince s) ↔ (statusWord t.blk).extractLsb' 3 6 = 0)

/-! ## Block control -/

/-- R128: `NOP` responds `OK` and changes nothing in every phase; while halted it is refused and changes nothing. -/
def Obligations.NopDoesNothing : Prop :=
  ∀ s : State,
    (s.blk.halt = false → exec .nop s = .next { s with rsps := s.rsps ++ [⟨none, false, 0, []⟩] }) ∧
    (s.blk.halt = true → exec .nop s = .next { s with rsps := s.rsps ++ [⟨some .halted, false, 0, []⟩] })

/-- R129: `CLR` leaves exactly the reset state, whatever the state before, in every phase and while halted. -/
def Obligations.ClrResets : Prop :=
  ∀ s : State, exec .clr s = .next { s with
    blk := (State.resetAt s.params).blk, rsps := s.rsps ++ [⟨none, false, 0, []⟩] } ∧
    (State.resetAt s.params).blk.AtReset

/-! ## Frequency counter -/

/-- R91, R93: an accepted `CNT` below the bound adds exactly one to the symbol's count and changes nothing else. -/
def Obligations.CntCountsOne : Prop :=
  ∀ (s : State) (sym : Symbol), sym.toNat < s.params.nsym → s.blk.halt = false → s.blk.phase = .count →
    (freqAt s.blk sym.toNat).toNat < s.params.cntMax →
    ∃ f : Memory (BitVec s.params.cntW),
      exec (.cnt sym) s = .next { s with
        blk := { s.blk with freq := f }, rsps := s.rsps ++ [⟨none, false, 0, []⟩] } ∧
      (Memory.read 0 f sym.toNat).toNat = (freqAt s.blk sym.toNat).toNat + 1 ∧
      ∀ i, i ≠ sym.toNat → Memory.read 0 f i = freqAt s.blk i

/-- R92: a `CNT` at `CNT_MAX` raises `COUNT_OVERFLOW`: the count stays, `ERR.OVF` and `HALT` are set, nothing else
changes. -/
def Obligations.CntOverflowHalts : Prop :=
  ∀ (s : State) (sym : Symbol), sym.toNat < s.params.nsym → s.blk.halt = false → s.blk.phase = .count →
    (freqAt s.blk sym.toNat).toNat = s.params.cntMax →
    exec (.cnt sym) s = .next { s with
      blk := { s.blk with halt := true, err := { s.blk.err with ovf := true } }
      rsps := s.rsps ++ [⟨some .countOverflow, false, 0, []⟩] }

/-- R32, R90: after a run of `CNT` commands from reset, none past the bound, every word of `FREQ` is the number of times its
symbol was counted, every response was `OK`, and nothing else changed. -/
def Obligations.FreqIsCount : Prop :=
  ∀ (p : Params) (l : List Symbol), (∀ x ∈ l, x.toNat < p.nsym) → (∀ x, l.count x ≤ p.cntMax) →
    ∃ f : Memory (BitVec p.cntW),
      run l.length ((State.resetAt p).present (l.map .cnt)) = .next { State.resetAt p with
        blk := { Block.reset p with freq := f }, rsps := l.map (fun _ => ⟨none, false, 0, []⟩) } ∧
      ∀ x : Symbol, (Memory.read 0 f x.toNat).toNat = l.count x

/-- R90: the order of the `CNT` commands does not matter: two orders of the same symbols leave equal machines. -/
def Obligations.CountOrderIrrelevant : Prop :=
  ∀ (p : Params) (l l' : List Symbol), l.Perm l' → (∀ x ∈ l, x.toNat < p.nsym) → (∀ x, l.count x ≤ p.cntMax) →
    ∃ t, run l.length ((State.resetAt p).present (l.map .cnt)) = .next t ∧
      run l'.length ((State.resetAt p).present (l'.map .cnt)) = .next t

/-! ## Tree builder -/

/-- R96 (a), R97, R24: an accepted `BLD` completes; its leaves are the counted symbols in ascending order with their counts, and
it writes nothing but the tree, its registers, the cursor and the phase. -/
def Obligations.BldLeaves : Prop :=
  ∀ s : State, s.blk.halt = false → s.blk.phase = .count →
    ∃ b : Block s.params,
      exec .bld s = .next { s with
        blk := { s.blk with
          phase := .tree, node := b.node, nleaf := b.nleaf, nnode := b.nnode, root := b.root,
          rootValid := b.rootValid, cur := b.root }
        rsps := s.rsps ++ [⟨none, false, 0, []⟩] } ∧
      b.nleaf.toNat = keyCount s.blk ∧
      (∀ i, i < b.nleaf.toNat → (nodeOf b i).isLeaf = true ∧ (nodeOf b i).left = 0 ∧ (nodeOf b i).right = 0 ∧
        freqAt s.blk (nodeOf b i).sym.toNat ≠ 0 ∧
        (nodeOf b i).weight.toNat = (freqAt s.blk (nodeOf b i).sym.toNat).toNat) ∧
      (∀ i, i + 1 < b.nleaf.toNat → (nodeOf b i).sym.toNat < (nodeOf b (i + 1)).sym.toNat) ∧
      (∀ x, x < s.params.nsym → freqAt s.blk x ≠ 0 → ∃ i, i < b.nleaf.toNat ∧ (nodeOf b i).sym.toNat = x) ∧
      (∀ i, b.nnode.toNat ≤ i → nodeOf b i = nodeOf s.blk i)

/-- R96 (b), R96 (c), R98, R99: every internal node an accepted `BLD` makes has the two least nodes of the queue it was made
from as its children, by weight and then by index, the least on the left. -/
def Obligations.BldMergesLeastTwo : Prop :=
  ∀ s : State, s.blk.halt = false → s.blk.phase = .count →
    ∃ b : Block s.params,
      exec .bld s = .next { s with blk := b, rsps := s.rsps ++ [⟨none, false, 0, []⟩] } ∧
      ∀ n, b.nleaf.toNat ≤ n → n < b.nnode.toNat →
        inQueue b n (nodeOf b n).left.toNat ∧ inQueue b n (nodeOf b n).right.toNat ∧
        pairLess (queueKey b (nodeOf b n).left.toNat) (queueKey b (nodeOf b n).right.toNat) ∧
        ∀ c, inQueue b n c → c ≠ (nodeOf b n).left.toNat → c ≠ (nodeOf b n).right.toNat →
          pairLess (queueKey b (nodeOf b n).right.toNat) (queueKey b c)

/-- R100: with `K >= 1` symbols counted, `BLD` leaves `2K - 1` nodes, the internal ones above the leaves, the root last, every
other node the child of exactly one internal node with a greater index, and the root's weight is the sum of all counts. -/
def Obligations.BldTreeShape : Prop :=
  ∀ s : State, s.blk.halt = false → s.blk.phase = .count → 1 ≤ keyCount s.blk →
    ∃ b : Block s.params,
      exec .bld s = .next { s with blk := b, rsps := s.rsps ++ [⟨none, false, 0, []⟩] } ∧
      b.nleaf.toNat = keyCount s.blk ∧ b.nnode.toNat = 2 * keyCount s.blk - 1 ∧ b.root.toNat = 2 * keyCount s.blk - 2 ∧
      b.rootValid = true ∧
      (∀ i, i < b.nleaf.toNat → (nodeOf b i).isLeaf = true) ∧
      (∀ i, b.nleaf.toNat ≤ i → i < b.nnode.toNat → (nodeOf b i).isLeaf = false ∧
        (nodeOf b i).left.toNat < i ∧ (nodeOf b i).right.toNat < i) ∧
      (∀ j, j < b.nnode.toNat → j ≠ b.root.toNat → ∃! e : Nat × Bool,
        b.nleaf.toNat ≤ e.1 ∧ e.1 < b.nnode.toNat ∧ ((nodeOf b e.1).child e.2).toNat = j) ∧
      (nodeOf b b.root.toNat).weight.toNat = countSum s.blk

/-- R101: no weight overflows its field: an internal node's weight is the exact sum of its children's. -/
def Obligations.WeightsAreExact : Prop :=
  ∀ s : State, s.blk.halt = false → s.blk.phase = .count →
    ∃ b : Block s.params,
      exec .bld s = .next { s with blk := b, rsps := s.rsps ++ [⟨none, false, 0, []⟩] } ∧
      ∀ i, b.nleaf.toNat ≤ i → i < b.nnode.toNat →
        (nodeOf b i).weight.toNat =
          (nodeOf b (nodeOf b i).left.toNat).weight.toNat + (nodeOf b (nodeOf b i).right.toNat).weight.toNat

/-- R102: the edge cases. With nothing counted `BLD` writes no NODE word and leaves no tree; with one symbol counted it leaves
one leaf, which is the root. -/
def Obligations.BldEdgeCases : Prop :=
  ∀ s : State, s.blk.halt = false → s.blk.phase = .count →
    ∃ b : Block s.params,
      exec .bld s = .next { s with blk := b, rsps := s.rsps ++ [⟨none, false, 0, []⟩] } ∧ b.phase = .tree ∧
      (keyCount s.blk = 0 → b.nleaf.toNat = 0 ∧ b.nnode.toNat = 0 ∧ b.rootValid = false ∧ b.root.toNat = 0 ∧
        b.cur.toNat = 0 ∧ ∀ i, nodeOf b i = nodeOf s.blk i) ∧
      (keyCount s.blk = 1 → b.nleaf.toNat = 1 ∧ b.nnode.toNat = 1 ∧ b.rootValid = true ∧ b.root.toNat = 0 ∧
        b.cur.toNat = 0 ∧ (nodeOf b 0).isLeaf = true ∧ (nodeOf b 0).weight.toNat = countSum s.blk)

/-- R96, R103: the tree is a function of `FREQ` alone: two blocks whose counts agree get the same nodes and registers, whatever
stood in `NODE`, `CODE` and the flags before. -/
def Obligations.TreeDependsOnCountsAlone : Prop :=
  ∀ (s : State) (c : Block s.params), s.blk.halt = false → s.blk.phase = .count → c.halt = false → c.phase = .count →
    (∀ x, x < s.params.nsym → freqAt s.blk x = freqAt c x) →
    ∃ b d : Block s.params,
      exec .bld s = .next { s with blk := b, rsps := s.rsps ++ [⟨none, false, 0, []⟩] } ∧
      exec .bld { s with blk := c } = .next { s with blk := d, rsps := s.rsps ++ [⟨none, false, 0, []⟩] } ∧
      b.nleaf = d.nleaf ∧ b.nnode = d.nnode ∧ b.root = d.root ∧ b.rootValid = d.rootValid ∧ b.cur = d.cur ∧
      ∀ i, i < b.nnode.toNat → nodeOf b i = nodeOf d i

/-! ## Codebook -/

/-- R106, R107, R108, R110: from a state of R38 an accepted `TBL` completes, writes `CODE` and `PHASE` only, and leaves a table
in which exactly the counted symbols have a code and every other symbol's word is zero as a whole, each code the path of its
leaf ("0" left, "1" right, first bit at bit 0) or the fallback "0" of a single leaf, zero above its length, and no code is the
beginning of another. -/
def Obligations.TblMakesTable : Prop :=
  ∀ s : State, s.Inv → s.blk.halt = false → s.blk.phase = .tree →
    ∃ c : Memory (CodeWord s.params),
      exec .tbl s = .next { s with
        blk := { s.blk with code := c, phase := .table }, rsps := s.rsps ++ [⟨none, false, 0, []⟩] } ∧
      Block.TableOk { s.blk with code := c, phase := .table }

/-- R109: a code is no longer than one less than the number of leaves when there are two or more, which fits the field. -/
def Obligations.CodeLengthBound : Prop :=
  ∀ s : State, s.Inv → s.blk.phase = .table → 2 ≤ s.blk.nleaf.toNat →
    s.blk.nleaf.toNat - 1 ≤ s.params.maxLen ∧
    ∀ x, x < s.params.nsym → (codeAt s.blk x).len.toNat ≤ s.blk.nleaf.toNat - 1

/-! ## Encoder -/

/-- R114: an accepted `ENC` of a symbol with a code responds with the code's bits, first bit first, and changes no state. -/
def Obligations.EncEmitsCode : Prop :=
  ∀ (s : State) (sym : Symbol), sym.toNat < s.params.nsym → s.blk.halt = false → s.blk.phase = .table →
    (codeAt s.blk sym.toNat).len.toNat ≠ 0 →
    ∃ l : List Bool,
      exec (.enc sym) s = .next { s with rsps := s.rsps ++ [⟨none, false, 0, l⟩] } ∧
      l.length = (codeAt s.blk sym.toNat).len.toNat ∧ l ≠ [] ∧
      ∀ i, i < l.length → l[i]? = some ((codeAt s.blk sym.toNat).bits.getLsbD i)

/-- R115: an accepted `ENC` of a symbol without a code raises `SYMBOL_NOT_IN_TABLE`: no bits, `ERR.NOSYM` and `HALT` set, nothing
else changed. -/
def Obligations.EncAbsentHalts : Prop :=
  ∀ (s : State) (sym : Symbol), sym.toNat < s.params.nsym → s.blk.halt = false → s.blk.phase = .table →
    (codeAt s.blk sym.toNat).len.toNat = 0 →
    exec (.enc sym) s = .next { s with
      blk := { s.blk with halt := true, err := { s.blk.err with nosym := true } }
      rsps := s.rsps ++ [⟨some .symbolNotInTable, false, 0, []⟩] }

/-- R116: from a state of R38 with its table, encoding a sequence in which every symbol occurs as often as it was counted is
error-free and emits the weighted path length in bits. -/
def Obligations.StreamLength : Prop :=
  ∀ (s : State) (l : List Symbol), s.Inv → s.blk.halt = false → s.blk.phase = .table → s.inbox = [] →
    (∀ x ∈ l, x.toNat < s.params.nsym) →
    (∀ x : Symbol, x.toNat < s.params.nsym → l.count x = (freqAt s.blk x.toNat).toNat) →
    ∃ t, run l.length (s.present (l.map .enc)) = .next t ∧ errorFree (t.newSince s) ∧
      (encodedStream (t.newSince s)).length =
        ((List.range s.params.nsym).map
          (fun x => (freqAt s.blk x).toNat * (codeAt s.blk x).len.toNat)).sum

/-! ## Decoder -/

/-- R124: `DEC` with no tree raises `MALFORMED_DECODE_INPUT` and sets `ERR.MAL`; the cursor and all else stay. -/
def Obligations.DecWithoutTree : Prop :=
  ∀ (s : State) (bit : Bool), s.blk.halt = false → s.blk.phase ≠ .count → s.blk.rootValid = false →
    exec (.dec bit) s = .next { s with
      blk := { s.blk with err := { s.blk.err with mal := true } }
      rsps := s.rsps ++ [⟨some .malformedDecodeInput, false, 0, []⟩] }

/-- R121: with a single-leaf tree every `DEC`, of a 0 or of a 1, emits the root's symbol and changes no state. -/
def Obligations.DecSingleLeaf : Prop :=
  ∀ (s : State) (bit : Bool), s.blk.halt = false → s.blk.phase ≠ .count → s.blk.rootValid = true →
    s.blk.root.toNat < s.params.maxNode → (nodeOf s.blk s.blk.root.toNat).isLeaf = true →
    exec (.dec bit) s = .next { s with
      rsps := s.rsps ++ [⟨none, true, (nodeOf s.blk s.blk.root.toNat).sym.setWidth 16, []⟩] }

/-- R119, R120: with an internal root `DEC` moves the cursor to the left child on 0 and to the right child on 1; at a leaf it
emits the leaf's symbol and returns the cursor to the root. Only the cursor changes. -/
def Obligations.DecMovesCursor : Prop :=
  ∀ (s : State) (bit : Bool) (next : BitVec s.params.idxW), s.blk.halt = false → s.blk.phase ≠ .count →
    s.blk.rootValid = true → s.blk.root.toNat < s.params.maxNode → (nodeOf s.blk s.blk.root.toNat).isLeaf = false →
    s.blk.cur.toNat < s.params.maxNode → (nodeOf s.blk s.blk.cur.toNat).isLeaf = false →
    next = (if bit then (nodeOf s.blk s.blk.cur.toNat).right else (nodeOf s.blk s.blk.cur.toNat).left) →
    next.toNat < s.params.maxNode →
    ((nodeOf s.blk next.toNat).isLeaf = true →
      exec (.dec bit) s = .next { s with
        blk := { s.blk with cur := s.blk.root }
        rsps := s.rsps ++ [⟨none, true, (nodeOf s.blk next.toNat).sym.setWidth 16, []⟩] }) ∧
    ((nodeOf s.blk next.toNat).isLeaf = false →
      exec (.dec bit) s = .next { s with
        blk := { s.blk with cur := next }, rsps := s.rsps ++ [⟨none, false, 0, []⟩] })

/-- The model's choice of log entry 6, for states that violate R38, to which R125 gives no meaning and in which R53 does not
hold: exactly where `DEC` and `TBL` stop, and that nothing else does. `DEC` stops at a root, cursor or child index that names no
NODE word, and at a cursor on a leaf below an internal root. `TBL` stops when some path down from the root leaves the memory or
passes more than `MAXLEN` internal nodes; when no path does the one, it stops for the other. -/
def Obligations.StopsOffTree : Prop :=
  (∀ (s : State) (i : Instr) (f : Fault), exec i s = .fault f →
    s.blk.halt = false ∧ s.blk.rootValid = true ∧
      ((i = .tbl ∧ s.blk.phase = .tree) ∨ ((∃ bit, i = .dec bit) ∧ s.blk.phase ≠ .count))) ∧
  (∀ (s : State) (bit : Bool), s.blk.halt = false → s.blk.rootValid = true → s.blk.phase ≠ .count →
    (exec (.dec bit) s = .fault .nodeIndexOutOfRange ↔
      s.params.maxNode ≤ s.blk.root.toNat ∨
        ((nodeOf s.blk s.blk.root.toNat).isLeaf = false ∧
          (s.params.maxNode ≤ s.blk.cur.toNat ∨
            ((nodeOf s.blk s.blk.cur.toNat).isLeaf = false ∧
              s.params.maxNode ≤ ((nodeOf s.blk s.blk.cur.toNat).child bit).toNat)))) ∧
    (exec (.dec bit) s = .fault .malformedTree ↔
      s.blk.root.toNat < s.params.maxNode ∧ (nodeOf s.blk s.blk.root.toNat).isLeaf = false ∧
        s.blk.cur.toNat < s.params.maxNode ∧ (nodeOf s.blk s.blk.cur.toNat).isLeaf = true)) ∧
  (∀ s : State, s.blk.halt = false → s.blk.rootValid = true → s.blk.phase = .tree →
    ((∃ f, exec .tbl s = .fault f) ↔
      ∃ l j, nodeAlong s.blk.node s.blk.root l = some j ∧ (s.params.maxLen < l.length ∨ s.params.maxNode ≤ j.toNat)) ∧
    ((∀ l j, nodeAlong s.blk.node s.blk.root l = some j → j.toNat < s.params.maxNode) →
      exec .tbl s ≠ .fault .nodeIndexOutOfRange) ∧
    ((∀ l j, nodeAlong s.blk.node s.blk.root l = some j → l.length ≤ s.params.maxLen) →
      exec .tbl s ≠ .fault .malformedTree))

/-- R122, R123: `END` on a symbol boundary is `OK` and changes nothing; in the middle of a code it raises
`MALFORMED_DECODE_INPUT`, sets `ERR.MAL` (not `HALT`) and returns the cursor to the root. -/
def Obligations.EndChecksBoundary : Prop :=
  ∀ s : State, s.blk.halt = false → s.blk.phase ≠ .count →
    (s.blk.cur = s.blk.root →
      exec .endStream s = .next { s with rsps := s.rsps ++ [⟨none, false, 0, []⟩] }) ∧
    (s.blk.cur ≠ s.blk.root →
      exec .endStream s = .next { s with
        blk := { s.blk with cur := s.blk.root, err := { s.blk.err with mal := true } }
        rsps := s.rsps ++ [⟨some .malformedDecodeInput, false, 0, []⟩] })

/-! ## Whole-machine rules -/

/-- R51, R76: what each command may write. `FREQ` only `CNT` (the operand's word) and `CLR`; `NODE` and the tree registers only
`BLD` and `CLR`; `CODE` only `TBL` and `CLR`; the phase only `BLD`, `TBL` and `CLR`; the cursor only `BLD`, `DEC`, `END` and
`CLR`; a command that answers `OK` and is no `CLR` leaves `HALT` and the flags; every command gives exactly one response, and
touches nothing of the host's. -/
def Obligations.CommandFrame : Prop :=
  ∀ (s t : State) (i : Instr), exec i s = .next t →
    ∃ (b : Block s.params) (r : Rsp), t = { s with blk := b, rsps := s.rsps ++ [r] } ∧
      (i ≠ .clr →
        (∀ x, (∀ sym, i = .cnt sym → sym.toNat ≠ x) → freqAt b x = freqAt s.blk x) ∧
        (i ≠ .bld → b.node = s.blk.node ∧ b.nleaf = s.blk.nleaf ∧ b.nnode = s.blk.nnode ∧ b.root = s.blk.root ∧
          b.rootValid = s.blk.rootValid) ∧
        (i ≠ .tbl → b.code = s.blk.code) ∧
        (i ≠ .bld → i ≠ .tbl → b.phase = s.blk.phase) ∧
        (i ≠ .bld → (∀ bit, i ≠ .dec bit) → i ≠ .endStream → b.cur = s.blk.cur) ∧
        (r.err = none → b.halt = s.blk.halt ∧ b.err = s.blk.err))

/-- R27: only `BLD`, `DEC`, `END`, `CLR` and reset move the cursor. -/
def Obligations.CursorWriters : Prop :=
  ∀ s t : State, step s = .next t → t.blk.cur.toNat ≠ s.blk.cur.toNat →
    ∃ rest, s.inbox = .rst :: rest ∨ s.inbox = .cmd (encode .bld) :: rest ∨ s.inbox = .cmd (encode .clr) :: rest ∨
      s.inbox = .cmd (encode .endStream) :: rest ∨ ∃ bit, s.inbox = .cmd (encode (.dec bit)) :: rest

/-- R23: the phase moves only 0 to 1 by `BLD`, 1 to 2 by `TBL`, and to 0 by `CLR` or reset. -/
def Obligations.PhaseMoves : Prop :=
  ∀ s t : State, step s = .next t → t.blk.phase ≠ s.blk.phase →
    ∃ rest,
      (s.blk.phase = .count ∧ t.blk.phase = .tree ∧ s.inbox = .cmd (encode .bld) :: rest) ∨
      (s.blk.phase = .tree ∧ t.blk.phase = .table ∧ s.inbox = .cmd (encode .tbl) :: rest) ∨
      (t.blk.phase = .count ∧ (s.inbox = .cmd (encode .clr) :: rest ∨ s.inbox = .rst :: rest))

/-- R61: the immutability windows. While the phase is not `COUNT` no step changes `FREQ`, `NODE`, `NLEAF`, `NNODE`, `ROOT` or
`ROOT_VALID`, and in phase `TABLE` none changes `CODE`, unless it clears the block. -/
def Obligations.ImmutabilityWindows : Prop :=
  ∀ s t : State, step s = .next t → s.blk.phase ≠ .count → t.blk.phase ≠ .count →
    ∃ (b : Block s.params) (l : List HostEvent) (rs : List Rsp) (rd : List (ReadWord s.params)),
      t = ⟨s.params, b, l, rs, rd⟩ ∧ b.freq = s.blk.freq ∧ b.node = s.blk.node ∧ b.nleaf = s.blk.nleaf ∧
      b.nnode = s.blk.nnode ∧ b.root = s.blk.root ∧ b.rootValid = s.blk.rootValid ∧
      (s.blk.phase = .table → b.code = s.blk.code)

/-- R76: the shape of every command's response. -/
def Obligations.ResponseShape : Prop :=
  ∀ (s t : State) (i : Instr), exec i s = .next t →
    ∃ r, t.rsps = s.rsps ++ [r] ∧
      (r.err ≠ none → r.symValid = false ∧ r.sym = 0 ∧ r.bits = []) ∧
      (r.symValid = true → ∃ bit, i = .dec bit) ∧
      (r.symValid = false → r.sym = 0) ∧
      r.sym.toNat < s.params.nsym ∧
      (r.bits ≠ [] → ∃ sym, i = .enc sym) ∧
      (∀ sym, i = .enc sym → r.err = none → 1 ≤ r.bits.length ∧ r.bits.length ≤ s.params.maxLen)

/-! ## Layouts -/

/-- R76, R140: the response word and the response codes. -/
def Obligations.ResponseWord : Prop :=
  ∀ r : Rsp,
    r.word.extractLsb' 0 4 = (match r.err with
      | none => 0 | some .illegal => 1 | some .seq => 2 | some .halted => 3 | some .countOverflow => 4
      | some .symbolNotInTable => 5 | some .malformedDecodeInput => 6) ∧
    r.word.getLsbD 4 = r.symValid ∧ r.word.extractLsb' 5 3 = 0 ∧ r.word.extractLsb' 8 16 = r.sym ∧
    r.word.extractLsb' 24 8 = 0

/-- R30, R31: the status space, and `STATUS` bit by bit. -/
def Obligations.StatusSpace : Prop :=
  ∀ (p : Params) (b : Block p),
    (csrRead b 0).extractLsb' 0 2 = (match b.phase with | .count => 0 | .tree => 1 | .table => 2) ∧
    (csrRead b 0).getLsbD 2 = b.rootValid ∧ (csrRead b 0).getLsbD 3 = b.halt ∧ (csrRead b 0).getLsbD 4 = b.err.ill ∧
    (csrRead b 0).getLsbD 5 = b.err.seq ∧ (csrRead b 0).getLsbD 6 = b.err.ovf ∧ (csrRead b 0).getLsbD 7 = b.err.nosym ∧
    (csrRead b 0).getLsbD 8 = b.err.mal ∧ (csrRead b 0).extractLsb' 9 23 = 0 ∧
    (csrRead b 1).toNat = b.nleaf.toNat ∧ (csrRead b 2).toNat = b.nnode.toNat ∧ (csrRead b 3).toNat = b.root.toNat ∧
    (csrRead b 4).toNat = b.cur.toNat ∧ csrRead b 5 = 0 ∧ csrRead b 6 = 0 ∧ csrRead b 7 = 0

/-- R33, R34: the fields of a NODE word and of a CODE word at their places in the packed word. -/
def Obligations.PackedWords : Prop :=
  ∀ p : Params,
    (∀ w : NodeWord p,
      w.pack.getLsbD (p.nodeW - 1) = w.isLeaf ∧ w.pack.extractLsb' (p.wW + 2 * p.idxW) p.symW = w.sym ∧
      w.pack.extractLsb' (p.wW + p.idxW) p.idxW = w.left ∧ w.pack.extractLsb' p.wW p.idxW = w.right ∧
      w.pack.extractLsb' 0 p.wW = w.weight) ∧
    (∀ c : CodeWord p, c.pack.extractLsb' p.maxLen p.lenW = c.len ∧ c.pack.extractLsb' 0 p.maxLen = c.bits)

/-! ## Invariants -/

/-- R38 holds at reset, at all parameters. -/
def Obligations.InvariantAtReset : Prop := ∀ p : Params, (State.resetAt p).Inv

/-- R38: every step from a state in which it holds leads to a state in which it holds. -/
def Obligations.InvariantKept : Prop := ∀ s t : State, s.Inv → step s = .next t → t.Inv

/-- R167: from a state of R38 every step completes, and a command gets exactly one response. -/
def Obligations.NeverStops : Prop :=
  ∀ s : State, s.Inv → ∃ t, step s = .next t ∧
    ∀ w rest, s.inbox = .cmd w :: rest → t.inbox = rest ∧ ∃ r, t.rsps = s.rsps ++ [r]

/-- Every step keeps the memories in their canonical form, and the parameters, also in states no run reaches (R36, R50; the
canonical form is the model's, log entry 4). -/
def Obligations.MemoryFormKept : Prop :=
  ∀ s t : State, s.blk.MemoryWf → step s = .next t → t.blk.MemoryWf ∧ t.params = s.params

/-! ## Round trips -/

/-- R148: empty input is not an error: no tree, an empty table, nothing encoded, nothing decoded. -/
def Obligations.EmptyInput : Prop :=
  ∀ p : Params, ∃ b : Block p,
    run 3 ((State.resetAt p).present [.bld, .tbl, .endStream]) = .next { State.resetAt p with
      blk := b, rsps := [⟨none, false, 0, []⟩, ⟨none, false, 0, []⟩, ⟨none, false, 0, []⟩] } ∧
    b.phase = .table ∧ b.rootValid = false ∧ (∀ s, freqAt b s = 0) ∧ (∀ s, codeAt b s = ⟨0, 0⟩)

/-- R107, R119, R120, R165: from a state of R38 with its table and the cursor at the root, the bits that `ENC` emits for a
counted symbol, given to `DEC` one by one, emit that symbol and nothing else, without an error, and leave the cursor at the
root. -/
def Obligations.SymbolRoundTrip : Prop :=
  ∀ (s : State) (sym : Symbol), s.Inv → s.blk.halt = false → s.blk.phase = .table → s.inbox = [] →
    s.blk.cur = s.blk.root → sym.toNat < s.params.nsym → freqAt s.blk sym.toNat ≠ 0 →
    ∃ (l : List Bool) (t u : State),
      run 1 (s.present [.enc sym]) = .next t ∧ t.newSince s = [⟨none, false, 0, l⟩] ∧
      run l.length (t.present (l.map .dec)) = .next u ∧ errorFree (u.newSince t) ∧
      decodedSequence (u.newSince t) = [sym] ∧ u.blk.cur.toNat = u.blk.root.toNat

/-- R126: the round trip. For every finite sequence of symbols in which none occurs more than `CNT_MAX` times, the run from reset
that counts it, builds the tree and the table, encodes it, decodes the encoded stream and ends is error-free, and decodes the
sequence itself. -/
def Obligations.PipelineRoundTrip : Prop :=
  ∀ (p : Params) (l : List Symbol), (∀ x ∈ l, x.toNat < p.nsym) → (∀ x, l.count x ≤ p.cntMax) →
    ∃ t u : State,
      run (2 * l.length + 2) ((State.resetAt p).present (l.map .cnt ++ [.bld, .tbl] ++ l.map .enc)) = .next t ∧
      errorFree t.rsps ∧
      run ((encodedStream t.rsps).length + 1) (t.present ((encodedStream t.rsps).map .dec ++ [.endStream])) = .next u ∧
      errorFree u.rsps ∧ decodedSequence u.rsps = l

/-- R103: optimality. From a counting state of R38, the table that `BLD` and `TBL` make has the least weighted sum of code
lengths among all assignments of non-empty codes to the counted symbols in which no code is the beginning of another. -/
def Obligations.HuffmanOptimal : Prop :=
  ∀ s : State, s.Inv → s.blk.halt = false → s.blk.phase = .count →
    ∃ (t : State) (b : Block s.params),
      exec .bld s = .next t ∧
      exec .tbl t = .next { s with blk := b, rsps := s.rsps ++ [⟨none, false, 0, []⟩, ⟨none, false, 0, []⟩] } ∧
      ∀ code : Nat → List Bool,
        (∀ x, x < s.params.nsym → freqAt s.blk x ≠ 0 → code x ≠ []) →
        (∀ x y, x < s.params.nsym → y < s.params.nsym → x ≠ y → freqAt s.blk x ≠ 0 → freqAt s.blk y ≠ 0 →
          ¬ code x <+: code y) →
        ((List.range s.params.nsym).map (fun x => (freqAt s.blk x).toNat * (codeAt b x).len.toNat)).sum ≤
          ((List.range s.params.nsym).map (fun x => (freqAt s.blk x).toNat * (code x).length)).sum
end

