-- ==== Sys2Proof/Laws/Config.lean ====
section
/-! SUPPORT. The derived constants of 00_scope R8 in the form arithmetic uses. -/

namespace Sys2Proof.Params

variable (p : Params)

theorem maxNode_eq : p.maxNode = 2 * p.nsym - 1 := rfl

theorem maxLen_eq : p.maxLen = p.nsym - 1 := rfl

theorem nsym_pos : 0 < p.nsym := Nat.two_pow_pos _

/-- There are at least 256 symbol values (R5). -/
theorem nsym_ge : 256 ≤ p.nsym := by
  unfold nsym symW
  cases p.symWidth <;> decide

/-- Symbol values fit the 16-bit symbol operand (R5). -/
theorem nsym_le : p.nsym ≤ 65536 := by
  unfold nsym symW
  cases p.symWidth <;> decide

theorem symW_le : p.symW ≤ 16 := by
  unfold symW
  cases p.symWidth <;> decide

/-- A node index has one bit more than a symbol (R8). -/
theorem two_pow_idxW : 2 ^ p.idxW = 2 * p.nsym := by rw [idxW, Nat.pow_succ, Nat.mul_comm]

/-- The weight of a whole input fits the weight field (R101). -/
theorem two_pow_wW : 2 ^ p.wW = 2 ^ p.cntW * p.nsym := by rw [wW, Nat.pow_add]

end Sys2Proof.Params
end

