-- ==== Sys2Proof/Laws/Decode.lean ====
section
/-! SUPPORT. The fields of a command word as numbers, so that facts about words are arithmetic (R71). -/

namespace Sys2Proof

theorem opField_toNat (w : Word) : (opField w).toNat = w.toNat / 2 ^ 28 := by
  have := w.isLt
  rw [opField, BitVec.extractLsb'_toNat, Nat.shiftRight_eq_div_pow, Nat.mod_eq_of_lt (by omega)]

theorem rzField_toNat (w : Word) : (rzField w).toNat = w.toNat / 2 ^ 24 % 16 := by
  rw [rzField, BitVec.extractLsb'_toNat, Nat.shiftRight_eq_div_pow]

theorem argField_toNat (w : Word) : (argField w).toNat = w.toNat % 2 ^ 24 := by
  rw [argField, BitVec.extractLsb'_toNat, Nat.shiftRight_zero]

/-- A command word's value from its fields, `rz` zero (R71). -/
theorem commandWord_toNat (op : BitVec 4) (arg : BitVec 24) :
    (commandWord op arg).toNat = op.toNat * 2 ^ 28 + arg.toNat := by
  have h : (commandWord op arg).toNat = (op ++ (0 : BitVec 4) ++ arg : BitVec (4 + 4 + 24)).toNat := rfl
  have ha := arg.isLt
  have h0 : (0 : BitVec 4).toNat = 0 := rfl
  rw [h, BitVec.toNat_append, ← Nat.shiftLeft_add_eq_or_of_lt ha, BitVec.toNat_append, h0, Nat.or_zero, Nat.shiftLeft_eq,
    Nat.shiftLeft_eq]
  omega

@[simp] theorem opField_commandWord (op : BitVec 4) (arg : BitVec 24) : opField (commandWord op arg) = op := by
  apply BitVec.eq_of_toNat_eq
  have := arg.isLt
  rw [opField_toNat, commandWord_toNat]; omega

@[simp] theorem rzField_commandWord (op : BitVec 4) (arg : BitVec 24) : rzField (commandWord op arg) = 0 := by
  apply BitVec.eq_of_toNat_eq
  have := arg.isLt
  rw [rzField_toNat, commandWord_toNat]
  show _ = 0
  omega

@[simp] theorem argField_commandWord (op : BitVec 4) (arg : BitVec 24) : argField (commandWord op arg) = arg := by
  apply BitVec.eq_of_toNat_eq
  have := arg.isLt
  rw [argField_toNat, commandWord_toNat]; omega

/-- A word whose reserved field is zero is made of its other two fields (R71). -/
theorem eq_commandWord {w : Word} (h : rzField w = 0) : w = commandWord (opField w) (argField w) := by
  apply BitVec.eq_of_toNat_eq
  have h' := rzField_toNat w
  rw [h] at h'
  have h0 : (0 : BitVec 4).toNat = 0 := rfl
  rw [commandWord_toNat, opField_toNat, argField_toNat]
  omega

/-- A symbol operand, zero-extended to the operand field and cut back, is the symbol (R72). -/
@[simp] theorem symbol_roundTrip (sym : Symbol) : (sym.setWidth 24).setWidth 16 = sym := by
  apply BitVec.eq_of_toNat_eq
  have := sym.isLt
  rw [BitVec.toNat_setWidth, BitVec.toNat_setWidth]; omega

theorem symbol_setWidth_toNat (sym : Symbol) : (sym.setWidth 24).toNat = sym.toNat := by
  have := sym.isLt
  rw [BitVec.toNat_setWidth]; omega

end Sys2Proof
end

