-- ==== Sys2Proof/Laws/Memory.lean ====
section
/-! SUPPORT. Laws of the memories: a read after a write, the canonical form is kept, and equal reads of canonical
memories mean equal memories. -/

namespace Sys2Proof.Machine

variable {α : Type}

@[simp] theorem Memory.read_nil (z : α) (i : Nat) : Memory.read z [] i = z := rfl

theorem Memory.read_cons (z : α) (c : Nat × α) (m : Memory α) (i : Nat) :
    Memory.read z (c :: m) i = if c.1 = i then c.2 else Memory.read z m i := rfl

/-- An index that is not listed reads as the word reset leaves. -/
theorem Memory.read_unlisted (z : α) (m : Memory α) (i : Nat) (h : ∀ c ∈ m, c.1 ≠ i) : Memory.read z m i = z := by
  induction m with
  | nil => rfl
  | cons c m ih =>
    rw [Memory.read_cons, if_neg (h c (by simp))]
    exact ih fun d hd => h d (by simp [hd])

theorem Memory.read_erase (z : α) (m : Memory α) (i j : Nat) :
    Memory.read z (m.filter (fun c => c.1 != i)) j = if j = i then z else Memory.read z m j := by
  induction m with
  | nil => simp
  | cons c m ih =>
    by_cases hc : c.1 = i
    · rw [List.filter_cons_of_neg (by simp [hc]), ih, Memory.read_cons]
      by_cases hj : j = i
      · simp [hj]
      · rw [if_neg hj, if_neg hj, if_neg (by omega)]
    · rw [List.filter_cons_of_pos (by simp [hc]), Memory.read_cons, ih, Memory.read_cons]
      by_cases hj : j = i
      · rw [if_pos hj, if_pos hj, if_neg (by omega)]
      · rw [if_neg hj, if_neg hj]

theorem Memory.read_put (z : α) (m : Memory α) (i : Nat) (v : α) (j : Nat) (h : ∀ c ∈ m, c.1 ≠ i) :
    Memory.read z (Memory.put m i v) j = if j = i then v else Memory.read z m j := by
  induction m with
  | nil => simp [Memory.put, Memory.read_cons, eq_comm]
  | cons c m ih =>
    have hc : c.1 ≠ i := h c (by simp)
    have ih' := ih fun d hd => h d (by simp [hd])
    unfold Memory.put
    split
    · rw [Memory.read_cons]; simp only [eq_comm]
    · rw [Memory.read_cons, ih', Memory.read_cons]
      by_cases hj : j = i
      · rw [if_pos hj, if_pos hj, if_neg (by omega)]
      · rw [if_neg hj, if_neg hj]

variable [DecidableEq α]

/-- A read after a write: the word written at its own index, every other word as before. -/
theorem Memory.read_write (z : α) (m : Memory α) (i : Nat) (v : α) (j : Nat) :
    Memory.read z (Memory.write z m i v) j = if j = i then v else Memory.read z m j := by
  unfold Memory.write
  split
  · next hv => rw [Memory.read_erase, hv]
  · rw [Memory.read_put _ _ _ _ _ (by simp), Memory.read_erase]
    split <;> rfl

@[simp] theorem Memory.read_write_same (z : α) (m : Memory α) (i : Nat) (v : α) :
    Memory.read z (Memory.write z m i v) i = v := by
  rw [Memory.read_write, if_pos rfl]

theorem Memory.read_write_other (z : α) (m : Memory α) (i : Nat) (v : α) (j : Nat) (h : j ≠ i) :
    Memory.read z (Memory.write z m i v) j = Memory.read z m j := by
  rw [Memory.read_write, if_neg h]

omit [DecidableEq α] in
theorem Memory.mem_put (m : Memory α) (i : Nat) (v : α) (c : Nat × α) :
    c ∈ Memory.put m i v ↔ c = (i, v) ∨ c ∈ m := by
  induction m with
  | nil => simp [Memory.put]
  | cons d m ih =>
    unfold Memory.put
    split
    · simp
    · simp only [List.mem_cons, ih]; tauto

omit [DecidableEq α] in
theorem Memory.pairwise_put (m : Memory α) (i : Nat) (v : α) (hm : m.Pairwise (fun a b => a.1 < b.1))
    (h : ∀ c ∈ m, c.1 ≠ i) : (Memory.put m i v).Pairwise (fun a b => a.1 < b.1) := by
  induction m with
  | nil => simp [Memory.put]
  | cons d m ih =>
    rw [List.pairwise_cons] at hm
    unfold Memory.put
    split
    · next hlt =>
      refine List.pairwise_cons.2 ⟨?_, List.pairwise_cons.2 hm⟩
      intro c hc
      rcases List.mem_cons.1 hc with rfl | hc
      · exact hlt
      · exact lt_trans hlt (hm.1 c hc)
    · next hlt =>
      refine List.pairwise_cons.2 ⟨?_, ih hm.2 fun c hc => h c (by simp [hc])⟩
      intro c hc
      rcases (Memory.mem_put m i v c).1 hc with rfl | hc
      · have := h d (by simp)
        simp only; omega
      · exact hm.1 c hc

/-- A write keeps the canonical form. -/
theorem Memory.wf_write (z : α) (m : Memory α) (i : Nat) (v : α) (h : Memory.wf z m) :
    Memory.wf z (Memory.write z m i v) := by
  have hp : (m.filter (fun c => c.1 != i)).Pairwise (fun a b => a.1 < b.1) := h.1.filter _
  unfold Memory.write
  split
  · exact ⟨hp, fun c hc => h.2 c (List.mem_of_mem_filter hc)⟩
  · next hv =>
    refine ⟨Memory.pairwise_put _ _ _ hp (by simp), fun c hc => ?_⟩
    rcases (Memory.mem_put _ _ _ _).1 hc with rfl | hc
    · exact hv
    · exact h.2 c (List.mem_of_mem_filter hc)

/-- A write inside the space keeps every listed index inside the space. -/
theorem Memory.below_write (z : α) (m : Memory α) (n i : Nat) (v : α) (h : Memory.below n m) (hi : i < n) :
    Memory.below n (Memory.write z m i v) := by
  unfold Memory.write
  split
  · exact fun c hc => h c (List.mem_of_mem_filter hc)
  · intro c hc
    rcases (Memory.mem_put _ _ _ _).1 hc with rfl | hc
    · exact hi
    · exact h c (List.mem_of_mem_filter hc)

omit [DecidableEq α] in
@[simp] theorem Memory.wf_nil (z : α) : Memory.wf z ([] : Memory α) := ⟨List.Pairwise.nil, by simp⟩

omit [DecidableEq α] in
/-- A listed word is what its index reads. -/
theorem Memory.read_of_mem (z : α) (m : Memory α) (h : m.Pairwise (fun a b => a.1 < b.1)) (c : Nat × α) (hc : c ∈ m) :
    Memory.read z m c.1 = c.2 := by
  induction m with
  | nil => simp at hc
  | cons d m ih =>
    rw [List.pairwise_cons] at h
    rw [Memory.read_cons]
    rcases List.mem_cons.1 hc with rfl | hc
    · simp
    · rw [if_neg (by have := h.1 c hc; omega), ih h.2 hc]

omit [DecidableEq α] in
/-- Two canonical memories that read alike everywhere are equal. -/
theorem Memory.ext_of_wf (z : α) (m m' : Memory α) (h : Memory.wf z m) (h' : Memory.wf z m')
    (e : ∀ i, Memory.read z m i = Memory.read z m' i) : m = m' := by
  have sub : ∀ m m' : Memory α, Memory.wf z m → Memory.wf z m' → (∀ i, Memory.read z m i = Memory.read z m' i) →
      ∀ c ∈ m, c ∈ m' := by
    intro m m' h h' e c hc
    have hr := Memory.read_of_mem z m h.1 c hc
    by_contra hn
    have hz : Memory.read z m' c.1 ≠ z := by rw [← e, hr]; exact h.2 c hc
    have : ∃ d ∈ m', d.1 = c.1 := by
      by_contra hall
      exact hz (Memory.read_unlisted z m' c.1 fun d hd he => hall ⟨d, hd, he⟩)
    obtain ⟨d, hd, hdc⟩ := this
    have := Memory.read_of_mem z m' h'.1 d hd
    rw [hdc, ← e, hr] at this
    exact hn (by rwa [show c = d from Prod.ext hdc.symm this])
  have nd : ∀ m : Memory α, Memory.wf z m → m.Nodup := fun m h =>
    h.1.imp fun hab => by rintro rfl; exact absurd hab (lt_irrefl _)
  have hperm : m.Perm m' := (List.perm_ext_iff_of_nodup (nd m h) (nd m' h')).2 fun c =>
    ⟨sub m m' h h' e c, sub m' m h' h (fun i => (e i).symm) c⟩
  exact List.Perm.eq_of_pairwise (fun a b _ _ hab hba => absurd hab (by omega)) h.1 h'.1 hperm

end Sys2Proof.Machine
end

