-- ==== Sys2Proof/Laws/State.lean ====
section
/-! SUPPORT. The small lemmas of the state's updates: one per field per update, and of the four kinds of response. -/

namespace Sys2Proof.Machine

open Sys2Proof (Params)

section answer

variable (s : State) (a : Block s.params × Rsp)

@[simp] theorem State.answer_params : (s.answer a).params = s.params := rfl
@[simp] theorem State.answer_blk : (s.answer a).blk = a.1 := rfl
@[simp] theorem State.answer_inbox : (s.answer a).inbox = s.inbox := rfl
@[simp] theorem State.answer_rsps : (s.answer a).rsps = s.rsps ++ [a.2] := rfl
@[simp] theorem State.answer_reads : (s.answer a).reads = s.reads := rfl

end answer

section host

variable (s : State) (l : List HostEvent) (d : ReadWord s.params)

@[simp] theorem State.withInbox_params : (s.withInbox l).params = s.params := rfl
@[simp] theorem State.withInbox_blk : (s.withInbox l).blk = s.blk := rfl
@[simp] theorem State.withInbox_inbox : (s.withInbox l).inbox = l := rfl
@[simp] theorem State.withInbox_rsps : (s.withInbox l).rsps = s.rsps := rfl
@[simp] theorem State.withInbox_reads : (s.withInbox l).reads = s.reads := rfl

@[simp] theorem State.readDone_params : (s.readDone d).params = s.params := rfl
@[simp] theorem State.readDone_blk : (s.readDone d).blk = s.blk := rfl
@[simp] theorem State.readDone_inbox : (s.readDone d).inbox = s.inbox := rfl
@[simp] theorem State.readDone_rsps : (s.readDone d).rsps = s.rsps := rfl
@[simp] theorem State.readDone_reads : (s.readDone d).reads = s.reads ++ [d] := rfl

@[simp] theorem State.applyReset_params : s.applyReset.params = s.params := rfl
@[simp] theorem State.applyReset_blk : s.applyReset.blk = Block.reset s.params := rfl
@[simp] theorem State.applyReset_inbox : s.applyReset.inbox = s.inbox := rfl
@[simp] theorem State.applyReset_rsps : s.applyReset.rsps = s.rsps := rfl
@[simp] theorem State.applyReset_reads : s.applyReset.reads = s.reads := rfl

end host

section raise

variable {p : Params} (e : Err) (b : Block p)

@[simp] theorem raise_phase : (raise e b).1.phase = b.phase := rfl
@[simp] theorem raise_nleaf : (raise e b).1.nleaf = b.nleaf := rfl
@[simp] theorem raise_nnode : (raise e b).1.nnode = b.nnode := rfl
@[simp] theorem raise_root : (raise e b).1.root = b.root := rfl
@[simp] theorem raise_rootValid : (raise e b).1.rootValid = b.rootValid := rfl
@[simp] theorem raise_cur : (raise e b).1.cur = b.cur := rfl
@[simp] theorem raise_halt : (raise e b).1.halt = (b.halt || e.fatal) := rfl
@[simp] theorem raise_err : (raise e b).1.err = b.err.raised e := rfl
@[simp] theorem raise_freq : (raise e b).1.freq = b.freq := rfl
@[simp] theorem raise_node : (raise e b).1.node = b.node := rfl
@[simp] theorem raise_code : (raise e b).1.code = b.code := rfl
@[simp] theorem raise_rsp : (raise e b).2 = Rsp.error e := rfl

end raise

@[simp] theorem Rsp.plain_err : Rsp.plain.err = none := rfl
@[simp] theorem Rsp.plain_symValid : Rsp.plain.symValid = false := rfl
@[simp] theorem Rsp.plain_bits : Rsp.plain.bits = [] := rfl
@[simp] theorem Rsp.symbol_err {n : Nat} (x : BitVec n) : (Rsp.symbol x).err = none := rfl
@[simp] theorem Rsp.symbol_symValid {n : Nat} (x : BitVec n) : (Rsp.symbol x).symValid = true := rfl
@[simp] theorem Rsp.symbol_sym {n : Nat} (x : BitVec n) : (Rsp.symbol x).sym = x.setWidth 16 := rfl
@[simp] theorem Rsp.symbol_bits {n : Nat} (x : BitVec n) : (Rsp.symbol x).bits = [] := rfl
@[simp] theorem Rsp.code_err (l : List Bool) : (Rsp.code l).err = none := rfl
@[simp] theorem Rsp.code_symValid (l : List Bool) : (Rsp.code l).symValid = false := rfl
@[simp] theorem Rsp.code_bits (l : List Bool) : (Rsp.code l).bits = l := rfl
@[simp] theorem Rsp.error_err (e : Err) : (Rsp.error e).err = some e := rfl
@[simp] theorem Rsp.error_symValid (e : Err) : (Rsp.error e).symValid = false := rfl
@[simp] theorem Rsp.error_bits (e : Err) : (Rsp.error e).bits = [] := rfl

end Sys2Proof.Machine
end

