-- ==== Sys2Proof/Laws/Ops.lean ====
section
/-! SUPPORT. One lemma per shared operation, saying everything it can do: the frame every command runs in, the node
access, and the check order. -/

namespace Sys2Proof.Machine

open Sys2Proof (Params Instr Word decode)

/-- A command answers a next state in exactly two ways: a check fails and its error is raised, or the body ran. -/
theorem command_next {i : Instr} {s t : State} {body : Block s.params → Except Fault (Block s.params × Rsp)}
    (h : command i s body = .next t) :
    (∃ e, firstError i s.blk = some e ∧ t = s.answer (raise e s.blk)) ∨
      (firstError i s.blk = none ∧ ∃ a, body s.blk = .ok a ∧ t = s.answer a) := by
  unfold command at h
  split at h
  · next e he => exact .inl ⟨e, he, by injection h with h; exact h.symm⟩
  · next hn =>
    split at h
    · next a ha => exact .inr ⟨hn, a, ha, by injection h with h; exact h.symm⟩
    · cases h

/-- A command whose check fails raises that error. -/
theorem command_of_error {i : Instr} {s : State} {body : Block s.params → Except Fault (Block s.params × Rsp)} {e : Err}
    (h : firstError i s.blk = some e) : command i s body = .next (s.answer (raise e s.blk)) := by
  unfold command; rw [h]

/-- A command that passes the checks runs its body. -/
theorem command_of_ok {i : Instr} {s : State} {body : Block s.params → Except Fault (Block s.params × Rsp)}
    {a : Block s.params × Rsp} (h : firstError i s.blk = none) (ha : body s.blk = .ok a) :
    command i s body = .next (s.answer a) := by
  unfold command; rw [h, ha]

/-- A command stops exactly when it passes the checks and its body stops. -/
theorem command_fault {i : Instr} {s : State} {body : Block s.params → Except Fault (Block s.params × Rsp)} {f : Fault} :
    command i s body = .fault f ↔ firstError i s.blk = none ∧ body s.blk = .error f := by
  unfold command
  cases hf : firstError i s.blk with
  | some e => simp
  | none => cases hb : body s.blk with
    | ok a => simp
    | error g => simp

/-- A command is never refused. -/
theorem command_not_refused {i : Instr} {s : State} {body : Block s.params → Except Fault (Block s.params × Rsp)}
    {r : Refusal} : command i s body ≠ .refused r := by
  unfold command
  cases hf : firstError i s.blk with
  | some e => simp
  | none => cases hb : body s.blk with
    | ok a => simp
    | error g => simp

/-- The checks pass exactly when the command is legal, the block is not halted (or the command is `CLR`), and the phase
accepts it (R143). -/
theorem firstError_none {p : Params} {i : Instr} {b : Block p} :
    firstError i b = none ↔
      i.wf p = true ∧ (b.halt = false ∨ acceptedWhileHalted i = true) ∧ acceptedIn i b.phase = true := by
  unfold firstError
  cases i.wf p <;> cases b.halt <;> cases acceptedWhileHalted i <;> cases acceptedIn i b.phase <;> simp

/-- What the first failing check is (R143). -/
theorem firstError_some {p : Params} {i : Instr} {b : Block p} {e : Err} (h : firstError i b = some e) :
    (e = .illegal ∧ i.wf p = false) ∨
      (e = .halted ∧ i.wf p = true ∧ b.halt = true ∧ acceptedWhileHalted i = false) ∨
      (e = .seq ∧ i.wf p = true ∧ (b.halt = false ∨ acceptedWhileHalted i = true) ∧ acceptedIn i b.phase = false) := by
  unfold firstError at h
  revert h
  cases i.wf p <;> cases b.halt <;> cases acceptedWhileHalted i <;> cases acceptedIn i b.phase <;> simp <;>
    exact fun h => h.symm

/-- A node access inside the space reads the word. -/
theorem nodeAt_ok {p : Params} {m : Memory (NodeWord p)} {i : BitVec p.idxW} (h : i.toNat < p.maxNode) :
    nodeAt m i = .ok (nodeRead m i.toNat) := if_pos h

/-- A node access that answers has read the word of an index inside the space. -/
theorem nodeAt_eq_ok {p : Params} {m : Memory (NodeWord p)} {i : BitVec p.idxW} {w : NodeWord p} :
    nodeAt m i = .ok w ↔ i.toNat < p.maxNode ∧ w = nodeRead m i.toNat := by
  unfold nodeAt
  split
  · next h => simp [h, eq_comm]
  · next h => simp [h]

theorem nodeRead_write {p : Params} (m : Memory (NodeWord p)) (i : Nat) (w : NodeWord p) (j : Nat) :
    nodeRead (nodeWrite m i w) j = if j = i then w else nodeRead m j := Memory.read_write _ _ _ _ _

theorem nodeWrite_wf {p : Params} (m : Memory (NodeWord p)) (i : Nat) (w : NodeWord p)
    (h : Memory.wf (NodeWord.zero p) m) : Memory.wf (NodeWord.zero p) (nodeWrite m i w) := Memory.wf_write _ _ _ _ h

theorem nodeWrite_below {p : Params} (m : Memory (NodeWord p)) (n i : Nat) (w : NodeWord p)
    (h : Memory.below n m) (hi : i < n) : Memory.below n (nodeWrite m i w) := Memory.below_write _ _ _ _ _ h hi

/-- The code of a CODE word has the length its `len` says. -/
@[simp] theorem CodeWord.length_toBits {p : Params} (c : CodeWord p) : c.toBits.length = c.len.toNat := by
  simp [CodeWord.toBits]

/-- Position `i` of a code is bit `i` of the field (R13). -/
theorem CodeWord.getElem_toBits {p : Params} (c : CodeWord p) (i : Nat) (h : i < c.toBits.length) :
    c.toBits[i] = c.bits.getLsbD i := by
  simp [CodeWord.toBits]

@[simp] theorem NodeWord.child_false {p : Params} (w : NodeWord p) : w.child false = w.left := rfl
@[simp] theorem NodeWord.child_true {p : Params} (w : NodeWord p) : w.child true = w.right := rfl

end Sys2Proof.Machine
end

