-- ==== Sys2Proof/Laws/Step.lean ====
section
/-! SUPPORT. What one step can do, and what each command's body can do: the inversion lemmas that whole-machine proofs cite
instead of unfolding the step. -/

namespace Sys2Proof.Machine

open Sys2Proof (Params Instr Word Symbol decode DecodeError)

/-- The body each command runs once the checks pass (files 40 to 45). -/
def bodyOf {p : Params} : Instr → Block p → Except Fault (Block p × Rsp)
  | .nop => fun b => .ok (b, Rsp.plain)
  | .clr => fun b => .ok (clearAll b, Rsp.plain)
  | .cnt sym => fun b => .ok (cntBody sym b)
  | .bld => fun b => .ok (bldBody b)
  | .tbl => tblBody
  | .enc sym => fun b => .ok (encBody sym b)
  | .dec bit => decBody bit
  | .endStream => fun b => .ok (endBody b)

theorem exec_eq (i : Instr) (s : State) : exec i s = command i s (bodyOf i) := by cases i <;> rfl

/-- Everything a command can answer: the first failing check's error, or what its body leaves. -/
theorem exec_next {i : Instr} {s t : State} (h : exec i s = .next t) :
    (∃ e, firstError i s.blk = some e ∧ t = s.answer (raise e s.blk)) ∨
      (firstError i s.blk = none ∧ ∃ a, bodyOf i s.blk = .ok a ∧ t = s.answer a) :=
  command_next (by rwa [exec_eq] at h)

theorem exec_of_error {i : Instr} {s : State} {e : Err} (h : firstError i s.blk = some e) :
    exec i s = .next (s.answer (raise e s.blk)) := by rw [exec_eq]; exact command_of_error h

theorem exec_of_ok {i : Instr} {s : State} {a : Block s.params × Rsp} (h : firstError i s.blk = none)
    (ha : bodyOf i s.blk = .ok a) : exec i s = .next (s.answer a) := by rw [exec_eq]; exact command_of_ok h ha

theorem exec_fault {i : Instr} {s : State} {f : Fault} :
    exec i s = .fault f ↔ firstError i s.blk = none ∧ bodyOf i s.blk = .error f := by rw [exec_eq]; exact command_fault

theorem exec_not_refused {i : Instr} {s : State} {r : Refusal} : exec i s ≠ .refused r := by
  rw [exec_eq]; exact command_not_refused

/-- Every command answers with one more response, and touches only the block. -/
theorem exec_answer {i : Instr} {s t : State} (h : exec i s = .next t) : ∃ a, t = s.answer a := by
  rcases exec_next h with ⟨e, _, rfl⟩ | ⟨_, a, _, rfl⟩
  · exact ⟨_, rfl⟩
  · exact ⟨a, rfl⟩

section bodies

variable {p : Params}

/-- The body of `CNT`: past the bound, or one more. -/
theorem cntBody_cases (sym : Symbol) (b : Block p) :
    ((freqAt b sym.toNat).toNat = p.cntMax ∧ cntBody sym b = raise .countOverflow b) ∨
      ((freqAt b sym.toNat).toNat ≠ p.cntMax ∧
        cntBody sym b =
          ({ b with freq := Memory.write 0 b.freq sym.toNat (freqAt b sym.toNat + 1) }, Rsp.plain)) := by
  unfold cntBody symIndex
  split
  · next h => exact .inl ⟨h, rfl⟩
  · next h => exact .inr ⟨h, rfl⟩

/-- A count below the bound grows by exactly one (R93). -/
theorem freq_succ_toNat (c : BitVec p.cntW) (h : c.toNat ≠ p.cntMax) : (c + 1).toNat = c.toNat + 1 := by
  have h1 := c.isLt
  have hp := p.cntW_pos
  have hone : (1 : BitVec p.cntW).toNat = 1 := by
    rw [BitVec.ofNat_eq_ofNat, BitVec.toNat_ofNat, Nat.mod_eq_of_lt (Nat.one_lt_two_pow (by omega))]
  have h' : c.toNat ≠ 2 ^ p.cntW - 1 := h
  rw [BitVec.toNat_add, hone, Nat.mod_eq_of_lt (by omega)]

/-- The body of `ENC`: no code, or the code's bits. -/
theorem encBody_cases (sym : Symbol) (b : Block p) :
    ((codeAt b sym.toNat).len = 0 ∧ encBody sym b = raise .symbolNotInTable b) ∨
      ((codeAt b sym.toNat).len ≠ 0 ∧ encBody sym b = (b, Rsp.code (codeAt b sym.toNat).toBits)) := by
  unfold encBody symIndex
  split
  · next h => exact .inl ⟨h, rfl⟩
  · next h => exact .inr ⟨h, rfl⟩

/-- The body of `END`: in the middle of a code, or on a symbol boundary. -/
theorem endBody_cases (b : Block p) :
    (b.cur ≠ b.root ∧ endBody b = raise .malformedDecodeInput { b with cur := b.root }) ∨
      (b.cur = b.root ∧ endBody b = (b, Rsp.plain)) := by
  unfold endBody
  split
  · next h => exact .inl ⟨h, rfl⟩
  · next h => exact .inr ⟨not_not.1 h, rfl⟩

/-- What the body of `TBL` leaves: the code table. -/
theorem tblBody_ok {b : Block p} {a : Block p × Rsp} (h : tblBody b = .ok a) :
    ∃ code, codeTable b = .ok code ∧ a = ({ b with code := code, phase := .table }, Rsp.plain) := by
  unfold tblBody at h
  cases hc : codeTable b with
  | error f => rw [hc] at h; cases h
  | ok code => rw [hc] at h; injection h with h; exact ⟨code, rfl, h.symm⟩

theorem tblBody_of_ok {b : Block p} {code : Memory (CodeWord p)} (h : codeTable b = .ok code) :
    tblBody b = .ok ({ b with code := code, phase := .table }, Rsp.plain) := by
  unfold tblBody; rw [h]

/-- What the body of `DEC` can answer: no tree, a single leaf, a leaf reached, an internal node reached (R119). -/
theorem decBody_ok {bit : Bool} {b : Block p} {a : Block p × Rsp} (h : decBody bit b = .ok a) :
    (b.rootValid = false ∧ a = raise .malformedDecodeInput b) ∨
      (b.rootValid = true ∧ (nodeRead b.node b.root.toNat).isLeaf = true ∧
        a = (b, Rsp.symbol (nodeRead b.node b.root.toNat).sym)) ∨
      (b.rootValid = true ∧ (nodeRead b.node b.root.toNat).isLeaf = false ∧
        (nodeRead b.node b.cur.toNat).isLeaf = false ∧
        ((nodeRead b.node ((nodeRead b.node b.cur.toNat).child bit).toNat).isLeaf = true ∧
            a = ({ b with cur := b.root },
              Rsp.symbol (nodeRead b.node ((nodeRead b.node b.cur.toNat).child bit).toNat).sym) ∨
          (nodeRead b.node ((nodeRead b.node b.cur.toNat).child bit).toNat).isLeaf = false ∧
            a = ({ b with cur := (nodeRead b.node b.cur.toNat).child bit }, Rsp.plain))) := by
  unfold decBody at h
  by_cases hv : b.rootValid = true
  · rw [if_pos hv] at h
    cases hr : nodeAt b.node b.root with
    | error f => rw [hr] at h; cases h
    | ok top =>
      rw [hr] at h
      obtain ⟨-, rfl⟩ := nodeAt_eq_ok.1 hr
      simp only at h
      by_cases ht : (nodeRead b.node b.root.toNat).isLeaf = true
      · rw [if_pos ht] at h
        injection h with h
        exact .inr (.inl ⟨hv, ht, h.symm⟩)
      · rw [if_neg ht] at h
        unfold moveCursor at h
        cases hc : nodeAt b.node b.cur with
        | error f => rw [hc] at h; cases h
        | ok here =>
          rw [hc] at h
          obtain ⟨-, rfl⟩ := nodeAt_eq_ok.1 hc
          simp only at h
          by_cases hl : (nodeRead b.node b.cur.toNat).isLeaf = true
          · rw [if_pos hl] at h; cases h
          · rw [if_neg hl] at h
            cases hn : nodeAt b.node ((nodeRead b.node b.cur.toNat).child bit) with
            | error f => rw [hn] at h; cases h
            | ok next =>
              rw [hn] at h
              obtain ⟨-, rfl⟩ := nodeAt_eq_ok.1 hn
              simp only at h
              refine .inr (.inr ⟨hv, by simpa using ht, by simpa using hl, ?_⟩)
              split at h
              · next hx => injection h with h; exact .inl ⟨hx, h.symm⟩
              · next hx => injection h with h; exact .inr ⟨by simpa using hx, h.symm⟩
  · rw [if_neg hv] at h
    injection h with h
    exact .inl ⟨by simpa using hv, h.symm⟩

/-- `DEC` with a single-leaf tree (R121). -/
theorem decBody_single {bit : Bool} {b : Block p} (hv : b.rootValid = true) (hr : b.root.toNat < p.maxNode)
    (hl : (nodeRead b.node b.root.toNat).isLeaf = true) :
    decBody bit b = .ok (b, Rsp.symbol (nodeRead b.node b.root.toNat).sym) := by
  unfold decBody
  rw [if_pos hv, nodeAt_ok hr]
  simp only [hl, if_true]

/-- `DEC` in a tree with an internal root, at an internal cursor (R119). -/
theorem decBody_move {bit : Bool} {b : Block p} (hv : b.rootValid = true) (hr : b.root.toNat < p.maxNode)
    (hl : (nodeRead b.node b.root.toNat).isLeaf = false) (hc : b.cur.toNat < p.maxNode)
    (hcl : (nodeRead b.node b.cur.toNat).isLeaf = false)
    (hn : ((nodeRead b.node b.cur.toNat).child bit).toNat < p.maxNode) :
    decBody bit b = .ok
      (if (nodeRead b.node ((nodeRead b.node b.cur.toNat).child bit).toNat).isLeaf = true then
        ({ b with cur := b.root }, Rsp.symbol (nodeRead b.node ((nodeRead b.node b.cur.toNat).child bit).toNat).sym)
      else ({ b with cur := (nodeRead b.node b.cur.toNat).child bit }, Rsp.plain)) := by
  unfold decBody moveCursor
  rw [if_pos hv, nodeAt_ok hr]
  simp only [hl]
  rw [if_neg (by simp), nodeAt_ok hc]
  simp only [hcl]
  rw [if_neg (by simp), nodeAt_ok hn]
  simp only
  split <;> rfl

end bodies

/-- Everything a step can do. -/
theorem step_cases {s t : State} (h : step s = .next t) :
    (s.inbox = [] ∧ t = s) ∨
      (∃ w rest i, s.inbox = .cmd w :: rest ∧ decode s.params w = .ok i ∧ exec i (s.withInbox rest) = .next t) ∨
      (∃ w rest e, s.inbox = .cmd w :: rest ∧ decode s.params w = .error e ∧ t = rejectIllegal (s.withInbox rest)) ∨
      (∃ rest, s.inbox = .rst :: rest ∧ t = (s.withInbox rest).applyReset) ∨
      (∃ e rest d, s.inbox = e :: rest ∧ (∀ w, e ≠ .cmd w) ∧ e ≠ .rst ∧ t = (s.withInbox rest).readDone d) := by
  unfold step fetch at h
  split at h
  · next hf =>
    injection h with h
    split at hf <;> first | (next hi => exact .inl ⟨hi, h.symm⟩) | cases hf
  · next w s' hf =>
    split at hf <;> try cases hf
    next rest hi =>
    unfold runWord at h
    split at h
    · next i hd => exact .inr (.inl ⟨w, rest, i, hi, hd, h⟩)
    · next e hd => injection h with h; exact .inr (.inr (.inl ⟨w, rest, e, hi, hd, h.symm⟩))
  · next s' hf =>
    injection h with h
    subst h
    split at hf <;> try cases hf
    · next rest hi => exact .inr (.inr (.inr (.inl ⟨rest, hi, rfl⟩)))
    all_goals
      next a rest hi =>
      exact .inr (.inr (.inr (.inr ⟨_, rest, _, hi, by simp, by simp, rfl⟩)))

/-- A step on a word that spells a command runs the command. -/
theorem step_cmd {s : State} {w : Word} {rest : List HostEvent} {i : Instr} (hi : s.inbox = .cmd w :: rest)
    (hd : decode s.params w = .ok i) : step s = exec i (s.withInbox rest) := by
  unfold step fetch
  rw [hi]
  simp only [runWord]
  rw [State.withInbox_params, hd]

/-- A step on a word that spells none rejects it. -/
theorem step_illegal {s : State} {w : Word} {rest : List HostEvent} {e : DecodeError} (hi : s.inbox = .cmd w :: rest)
    (hd : decode s.params w = .error e) : step s = .next (rejectIllegal (s.withInbox rest)) := by
  unfold step fetch
  rw [hi]
  simp only [runWord]
  rw [State.withInbox_params, hd]

/-- What a command answers on a block: the first failing check's error raised, or what its body leaves (R143). -/
def Answers {p : Params} (i : Instr) (b : Block p) (a : Block p × Rsp) : Prop :=
  (∃ e, firstError i b = some e ∧ a = raise e b) ∨ (firstError i b = none ∧ bodyOf i b = .ok a)

/-- A command answers with a block and one response, and leaves the rest of the machine. -/
theorem exec_block {i : Instr} {s t : State} :
    exec i s = .next t ↔ ∃ a, Answers i s.blk a ∧ t = ⟨s.params, a.1, s.inbox, s.rsps ++ [a.2], s.reads⟩ := by
  constructor
  · intro h
    rcases exec_next h with ⟨e, he, rfl⟩ | ⟨hf, a, ha, rfl⟩
    · exact ⟨_, .inl ⟨e, he, rfl⟩, rfl⟩
    · exact ⟨a, .inr ⟨hf, ha⟩, rfl⟩
  · rintro ⟨a, ⟨e, he, rfl⟩ | ⟨hf, ha⟩, rfl⟩
    · exact exec_of_error he
    · exact exec_of_ok hf ha

/-- Everything a step can do, field by field: nothing; a command; an illegal word; `rst`; a read. -/
theorem step_block {s t : State} (h : step s = .next t) :
    (s.inbox = [] ∧ t = s) ∨
      (∃ w rest i a, s.inbox = .cmd w :: rest ∧ decode s.params w = .ok i ∧ Answers i s.blk a ∧
        t = ⟨s.params, a.1, rest, s.rsps ++ [a.2], s.reads⟩) ∨
      (∃ w rest e, s.inbox = .cmd w :: rest ∧ decode s.params w = .error e ∧
        t = ⟨s.params, (raise .illegal s.blk).1, rest, s.rsps ++ [Rsp.error .illegal], s.reads⟩) ∨
      (∃ rest, s.inbox = .rst :: rest ∧ t = ⟨s.params, Block.reset s.params, rest, s.rsps, s.reads⟩) ∨
      (∃ e rest d, s.inbox = e :: rest ∧ (∀ w, e ≠ .cmd w) ∧ e ≠ .rst ∧
        t = ⟨s.params, s.blk, rest, s.rsps, s.reads ++ [d]⟩) := by
  rcases step_cases h with h | ⟨w, rest, i, hi, hd, hx⟩ | ⟨w, rest, e, hi, hd, rfl⟩ | ⟨rest, hi, rfl⟩ |
    ⟨e, rest, d, hi, h1, h2, rfl⟩
  · exact .inl h
  · obtain ⟨a, ha, rfl⟩ := exec_block.1 hx
    exact .inr (.inl ⟨w, rest, i, a, hi, hd, ha, rfl⟩)
  · exact .inr (.inr (.inl ⟨w, rest, e, hi, hd, rfl⟩))
  · exact .inr (.inr (.inr (.inl ⟨rest, hi, rfl⟩)))
  · exact .inr (.inr (.inr (.inr ⟨e, rest, d, hi, h1, h2, rfl⟩)))

end Sys2Proof.Machine
end

