-- ==== Sys2Proof/Laws/Leaves.lean ====
section
/-! SUPPORT. What the leaf loop of `BLD` makes: one leaf per counted symbol, in ascending order of symbols (R96 (a)). -/

namespace Sys2Proof.Machine

open Sys2Proof (Params)

/-- The counted symbols below `n`, ascending. -/
def keysBelow {p : Params} (freq : Memory (BitVec p.cntW)) (n : Nat) : List Nat :=
  (List.range n).filter (fun s => decide (Memory.read 0 freq s ≠ 0))

theorem keysBelow_succ {p : Params} (freq : Memory (BitVec p.cntW)) (n : Nat) :
    keysBelow freq (n + 1) = keysBelow freq n ++ if Memory.read 0 freq n = 0 then [] else [n] := by
  unfold keysBelow
  rw [List.range_succ, List.filter_append]
  congr 1
  by_cases h : Memory.read 0 freq n = 0
  · rw [if_pos h, List.filter_cons_of_neg (by simpa using h)]; rfl
  · rw [if_neg h, List.filter_cons_of_pos (by simpa using h)]; rfl

theorem mem_keysBelow {p : Params} (freq : Memory (BitVec p.cntW)) (n s : Nat) :
    s ∈ keysBelow freq n ↔ s < n ∧ Memory.read 0 freq s ≠ 0 := by
  simp [keysBelow]

theorem keysBelow_sorted {p : Params} (freq : Memory (BitVec p.cntW)) (n : Nat) :
    (keysBelow freq n).Pairwise (· < ·) := List.pairwise_lt_range.filter _

theorem keysBelow_length_le {p : Params} (freq : Memory (BitVec p.cntW)) (n : Nat) : (keysBelow freq n).length ≤ n :=
  (List.length_filter_le _ _).trans_eq List.length_range

/-- What the leaf loop has made after the symbols below `n`. -/
structure LeavesMade {p : Params} (freq : Memory (BitVec p.cntW)) (node : Memory (NodeWord p)) (n : Nat)
    (r : Memory (NodeWord p) × Nat) : Prop where
  count : r.2 = (keysBelow freq n).length
  leaf : ∀ i, (h : i < (keysBelow freq n).length) →
    nodeRead r.1 i = leafWord (keysBelow freq n)[i] (Memory.read 0 freq (keysBelow freq n)[i])
  rest : ∀ i, (keysBelow freq n).length ≤ i → nodeRead r.1 i = nodeRead node i
  wf : Memory.wf (NodeWord.zero p) node → Memory.wf (NodeWord.zero p) r.1
  below : n ≤ p.nsym → Memory.below p.maxNode node → Memory.below p.maxNode r.1

theorem leavesMade_fold {p : Params} (freq : Memory (BitVec p.cntW)) (node : Memory (NodeWord p)) (n : Nat) :
    LeavesMade freq node n ((List.range n).foldl (addLeaf freq) (node, 0)) := by
  induction n with
  | zero => exact ⟨rfl, by simp [keysBelow], by simp, id, fun _ => id⟩
  | succ n ih =>
    rw [List.range_succ, List.foldl_append, List.foldl_cons, List.foldl_nil]
    generalize (List.range n).foldl (addLeaf freq) (node, 0) = r at ih
    have hk := keysBelow_succ freq n
    unfold addLeaf
    by_cases h0 : Memory.read 0 freq n = 0
    · rw [if_pos h0] at hk ⊢
      rw [List.append_nil] at hk
      exact ⟨by rw [hk]; exact ih.count, by rw [hk]; exact ih.leaf, by rw [hk]; exact ih.rest, ih.wf,
        fun hn => ih.below (by omega)⟩
    · rw [if_neg h0] at hk ⊢
      have hl : (keysBelow freq (n + 1)).length = (keysBelow freq n).length + 1 := by rw [hk]; simp
      refine ⟨by rw [hl, ← ih.count], ?_, ?_, fun hw => nodeWrite_wf r.1 r.2 (leafWord n _) (ih.wf hw), ?_⟩
      · intro i hi
        simp only [nodeRead_write, ih.count, hk]
        by_cases hlast : i = (keysBelow freq n).length
        · simp [hlast]
        · have : i < (keysBelow freq n).length := by omega
          rw [if_neg hlast, List.getElem_append_left this]
          exact ih.leaf i this
      · intro i hi
        rw [nodeRead_write, if_neg (by rw [ih.count]; omega)]
        exact ih.rest i (by omega)
      · intro hn hb
        refine nodeWrite_below r.1 _ r.2 (leafWord n _) (ih.below (by omega) hb) ?_
        rw [ih.count]
        have := keysBelow_length_le freq n
        have := p.maxNode_eq
        omega

/-- What the leaf loop makes (R96 (a), R97). -/
theorem buildLeaves_made {p : Params} (freq : Memory (BitVec p.cntW)) (node : Memory (NodeWord p)) :
    LeavesMade freq node p.nsym (buildLeaves freq node) := leavesMade_fold freq node p.nsym

/-- A leaf keeps its symbol: symbols below `NSYM` fit the field. -/
theorem leafWord_sym {p : Params} (s : Nat) (c : BitVec p.cntW) (h : s < p.nsym) :
    (leafWord s c : NodeWord p).sym.toNat = s := by
  simp [leafWord, Nat.mod_eq_of_lt h]

/-- A leaf keeps its count: counts fit the weight field (R101). -/
theorem leafWord_weight {p : Params} (s : Nat) (c : BitVec p.cntW) :
    (leafWord s c : NodeWord p).weight.toNat = c.toNat := by
  have : c.toNat < 2 ^ p.wW := lt_of_lt_of_le c.isLt (Nat.pow_le_pow_right (by omega) (by simp [Params.wW]))
  simp [leafWord, Nat.mod_eq_of_lt this]

/-- The number of counted symbols is the number of keys. -/
theorem keysBelow_length {p : Params} (b : Block p) : (keysBelow b.freq p.nsym).length = keyCount b :=
  List.countP_eq_length_filter.symm

end Sys2Proof.Machine
end

