-- ==== Sys2Proof/Laws/Merge.lean ====
section
/-! SUPPORT. What the merge loop of `BLD` makes: the queue's minimum, one pass of the loop, and the invariant every pass
keeps (R97 to R101). -/

namespace Sys2Proof.Machine

open Sys2Proof (Params)

variable {p : Params}

/-- The pair by which the queue is ordered, in a NODE memory (R98). -/
def memKey (m : Memory (NodeWord p)) (i : Nat) : Nat × Nat := ((nodeRead m i).weight.toNat, i)

theorem pairLess_trans {x y z : Nat × Nat} (h : pairLess x y) (h' : pairLess y z) : pairLess x z := by
  unfold pairLess at *; omega

theorem pairLess_irrefl (x : Nat × Nat) : ¬ pairLess x x := by unfold pairLess; omega

/-- Of two different nodes one is lighter: the pairs differ in the index (R98). -/
theorem pairLess_total (m : Memory (NodeWord p)) {i j : Nat} (h : i ≠ j) (hn : ¬ pairLess (memKey m i) (memKey m j)) :
    pairLess (memKey m j) (memKey m i) := by
  unfold pairLess memKey at *; simp only at *; omega

theorem lighter_iff (m : Memory (NodeWord p)) (i j : Nat) :
    lighter m i j = true ↔ pairLess (memKey m i) (memKey m j) := by
  simp [lighter, pairLess, memKey, BitVec.lt_def, ← BitVec.toNat_inj]

theorem lightest_spec (m : Memory (NodeWord p)) (l : List Nat) (best : Nat) :
    lightest m best l ∈ best :: l ∧
      ∀ c ∈ best :: l, c ≠ lightest m best l → pairLess (memKey m (lightest m best l)) (memKey m c) := by
  induction l generalizing best with
  | nil => simp [lightest]
  | cons i l ih =>
    have step : lightest m best (i :: l) = lightest m (if lighter m i best then i else best) l := rfl
    rw [step]
    by_cases hl : lighter m i best = true
    · rw [if_pos hl]
      obtain ⟨hm, hmin⟩ := ih i
      refine ⟨List.mem_cons_of_mem _ hm, fun c hc hne => ?_⟩
      rcases List.mem_cons.1 hc with rfl | hc
      · by_cases hi : i = lightest m i l
        · rw [← hi]; exact (lighter_iff m _ _).1 hl
        · exact pairLess_trans (hmin i (by simp) hi) ((lighter_iff m _ _).1 hl)
      · exact hmin c hc hne
    · rw [if_neg hl]
      obtain ⟨hm, hmin⟩ := ih best
      refine ⟨by rcases List.mem_cons.1 hm with h | h <;> simp [h], fun c hc hne => ?_⟩
      rcases List.mem_cons.1 hc with rfl | hc
      · exact hmin c (by simp) hne
      · rcases List.mem_cons.1 hc with rfl | hc
        · by_cases hb : c = best
          · exact hmin c (by simp [hb]) hne
          · have hbc := pairLess_total m hb (by rwa [← lighter_iff])
            by_cases he : best = lightest m best l
            · rw [← he]; exact hbc
            · exact pairLess_trans (hmin best (by simp) he) hbc
        · exact hmin c (by simp [hc]) hne

/-- `extract_min` takes the index with the least pair (R98). -/
theorem extractMin_some {m : Memory (NodeWord p)} {l r : List Nat} {a : Nat} (h : extractMin m l = some (a, r)) :
    a ∈ l ∧ r = l.erase a ∧ ∀ c ∈ l, c ≠ a → pairLess (memKey m a) (memKey m c) := by
  cases l with
  | nil => simp [extractMin] at h
  | cons i l =>
    simp only [extractMin, Option.some.injEq, Prod.mk.injEq] at h
    obtain ⟨rfl, rfl⟩ := h
    exact ⟨(lightest_spec m l i).1, rfl, (lightest_spec m l i).2⟩

theorem extractMin_none {m : Memory (NodeWord p)} {l : List Nat} : extractMin m l = none ↔ l = [] := by
  cases l <;> simp [extractMin]

/-- Node `c` is in the queue when node `n` is about to be made, in a NODE memory with `k` leaves (R97). -/
def memInQueue (m : Memory (NodeWord p)) (k n c : Nat) : Prop :=
  c < n ∧ ∀ j, k ≤ j → j < n → (nodeRead m j).left.toNat ≠ c ∧ (nodeRead m j).right.toNat ≠ c

/-- The edge `e` (an internal node made before `n`, and a bit) leads to node `j`. -/
def isEdgeTo (m : Memory (NodeWord p)) (k n : Nat) (e : Nat × Bool) (j : Nat) : Prop :=
  k ≤ e.1 ∧ e.1 < n ∧ ((nodeRead m e.1).child e.2).toNat = j

/-- The fields of internal node `i` (R33, R97). -/
structure InnerNode (m : Memory (NodeWord p)) (i : Nat) : Prop where
  notLeaf : (nodeRead m i).isLeaf = false
  sym : (nodeRead m i).sym = 0
  left : (nodeRead m i).left.toNat < i
  right : (nodeRead m i).right.toNat < i
  weight : (nodeRead m i).weight.toNat =
    (nodeRead m (nodeRead m i).left.toNat).weight.toNat + (nodeRead m (nodeRead m i).right.toNat).weight.toNat

/-- The children of internal node `i` are the two least of the queue it was made from, the least on the left
(R98, R99). -/
structure LeastTwo (m : Memory (NodeWord p)) (k i : Nat) : Prop where
  left : memInQueue m k i (nodeRead m i).left.toNat
  right : memInQueue m k i (nodeRead m i).right.toNat
  ordered : pairLess (memKey m (nodeRead m i).left.toNat) (memKey m (nodeRead m i).right.toNat)
  least : ∀ c, memInQueue m k i c → c ≠ (nodeRead m i).left.toNat → c ≠ (nodeRead m i).right.toNat →
    pairLess (memKey m (nodeRead m i).right.toNat) (memKey m c)

/-- What holds between two passes of the merge loop: `k` leaves as in `m₀`, internal nodes `k .. n-1`, the queue `pq`
with total weight `total`. -/
structure MergeInv (m₀ : Memory (NodeWord p)) (k total : Nat) (m : Memory (NodeWord p)) (pq : List Nat) (n : Nat) :
    Prop where
  bound : total < 2 ^ p.wW
  kmax : k ≤ p.nsym
  le : k ≤ n
  size : n + pq.length = 2 * k
  nonempty : pq ≠ []
  nodup : pq.Nodup
  leaf : ∀ i, i < k → nodeRead m i = nodeRead m₀ i
  rest : ∀ i, n ≤ i → nodeRead m i = nodeRead m₀ i
  inner : ∀ i, k ≤ i → i < n → InnerNode m i
  least : ∀ i, k ≤ i → i < n → LeastTwo m k i
  queue : ∀ c, c ∈ pq ↔ memInQueue m k n c
  parent : ∀ j, j < n → j ∉ pq → ∃! e, isEdgeTo m k n e j
  sum : (pq.map (fun i => (nodeRead m i).weight.toNat)).sum = total
  wf : Memory.wf (NodeWord.zero p) m₀ → Memory.wf (NodeWord.zero p) m
  below : Memory.below p.maxNode m₀ → Memory.below p.maxNode m

theorem memInQueue_congr {m m' : Memory (NodeWord p)} {k n c : Nat} (h : ∀ i, i < n → nodeRead m' i = nodeRead m i) :
    memInQueue m' k n c ↔ memInQueue m k n c := by
  unfold memInQueue
  refine and_congr_right fun _ => forall_congr' fun j => forall_congr' fun _ => forall_congr' fun hj => ?_
  rw [h j hj]

theorem memKey_congr {m m' : Memory (NodeWord p)} {i : Nat} (h : nodeRead m' i = nodeRead m i) :
    memKey m' i = memKey m i := by
  unfold memKey; rw [h]

theorem InnerNode.congr {m m' : Memory (NodeWord p)} {i : Nat} (hi : InnerNode m i)
    (h : ∀ j, j ≤ i → nodeRead m' j = nodeRead m j) : InnerNode m' i := by
  have hl := hi.left
  have hr := hi.right
  constructor
  · rw [h i le_rfl]; exact hi.notLeaf
  · rw [h i le_rfl]; exact hi.sym
  · rw [h i le_rfl]; exact hl
  · rw [h i le_rfl]; exact hr
  · rw [h i le_rfl, h _ hl.le, h _ hr.le]; exact hi.weight

theorem LeastTwo.congr {m m' : Memory (NodeWord p)} {k i : Nat} (hi : LeastTwo m k i)
    (h : ∀ j, j ≤ i → nodeRead m' j = nodeRead m j) : LeastTwo m' k i := by
  have h' : ∀ j, j < i → nodeRead m' j = nodeRead m j := fun j hj => h j hj.le
  have kl := memKey_congr (h' _ hi.left.1)
  have kr := memKey_congr (h' _ hi.right.1)
  constructor
  · rw [h i le_rfl, memInQueue_congr h']; exact hi.left
  · rw [h i le_rfl, memInQueue_congr h']; exact hi.right
  · rw [h i le_rfl, kl, kr]; exact hi.ordered
  · rw [h i le_rfl]
    intro c hc h1 h2
    rw [kr, memKey_congr (h' c hc.1)]
    exact hi.least c ((memInQueue_congr h').1 hc) h1 h2

/-- An index in the queue has no parent among the nodes made so far. -/
theorem memInQueue.no_edge {m : Memory (NodeWord p)} {k n c : Nat} (h : memInQueue m k n c) (e : Nat × Bool) :
    ¬ isEdgeTo m k n e c := by
  rintro ⟨h1, h2, h3⟩
  have := h.2 e.1 h1 h2
  obtain ⟨i, b⟩ := e
  cases b
  · exact this.1 h3
  · exact this.2 h3

/-- A node made so far that is not in the queue has a parent. -/
theorem exists_edge_of_not_inQueue {m : Memory (NodeWord p)} {k n c : Nat} (hc : c < n) (h : ¬ memInQueue m k n c) :
    ∃ e, isEdgeTo m k n e c := by
  by_contra hno
  exact h ⟨hc, fun j hk hj => ⟨fun hl => hno ⟨(j, false), hk, hj, hl⟩, fun hr => hno ⟨(j, true), hk, hj, hr⟩⟩⟩

/-- One pass of the merge loop keeps the invariant (R97, R98, R99, R101). -/
theorem MergeInv.pass {m₀ m : Memory (NodeWord p)} {k total n a b : Nat} {pq pq₁ pq₂ : List Nat}
    (h : MergeInv m₀ k total m pq n) (ha : extractMin m pq = some (a, pq₁)) (hb : extractMin m pq₁ = some (b, pq₂)) :
    MergeInv m₀ k total (nodeWrite m n (mergeWord m a b)) (pq₂ ++ [n]) (n + 1) := by
  obtain ⟨haq, rfl, hamin⟩ := extractMin_some ha
  obtain ⟨hbq, rfl, hbmin⟩ := extractMin_some hb
  have hb' : b ≠ a ∧ b ∈ pq := (h.nodup.mem_erase_iff).1 hbq
  have qa := (h.queue a).1 haq
  have qb := (h.queue b).1 hb'.2
  have memq : ∀ c, c ∈ (pq.erase a).erase b ↔ c ≠ b ∧ c ≠ a ∧ c ∈ pq := fun c => by
    rw [(h.nodup.erase a).mem_erase_iff, h.nodup.mem_erase_iff]
  have perm : (a :: b :: (pq.erase a).erase b).Perm pq :=
    ((List.perm_cons_erase hbq).symm.cons a).trans (List.perm_cons_erase haq).symm
  have len : ((pq.erase a).erase b).length + 2 = pq.length := by simpa using perm.length_eq
  have hn : n < 2 * p.nsym := by have := h.size; have := h.kmax; omega
  have ia : (BitVec.ofNat p.idxW a).toNat = a := by
    rw [BitVec.toNat_ofNat, p.two_pow_idxW, Nat.mod_eq_of_lt (by have := qa.1; omega)]
  have ib : (BitVec.ofNat p.idxW b).toNat = b := by
    rw [BitVec.toNat_ofNat, p.two_pow_idxW, Nat.mod_eq_of_lt (by have := qb.1; omega)]
  generalize hw : mergeWord m a b = w
  have wl : w.left.toNat = a := by rw [← hw]; exact ia
  have wr : w.right.toNat = b := by rw [← hw]; exact ib
  have hsum : (nodeRead m a).weight.toNat + ((nodeRead m b).weight.toNat +
      (((pq.erase a).erase b).map (fun i => (nodeRead m i).weight.toNat)).sum) = total := by
    rw [← h.sum, ← (perm.map _).sum_eq]; simp
  have ww : w.weight.toNat = (nodeRead m a).weight.toNat + (nodeRead m b).weight.toNat := by
    rw [← hw]
    show ((nodeRead m a).weight + (nodeRead m b).weight).toNat = _
    rw [BitVec.toNat_add, Nat.mod_eq_of_lt]
    have := h.bound; omega
  generalize hm' : nodeWrite m n w = m'
  have rd : ∀ i, nodeRead m' i = if i = n then w else nodeRead m i := fun i => by rw [← hm', nodeRead_write]
  have old : ∀ i, i < n → nodeRead m' i = nodeRead m i := fun i hi => by rw [rd, if_neg (by omega)]
  have new : nodeRead m' n = w := by rw [rd, if_pos rfl]
  have hle := h.le
  have edge_new : ∀ e j, e.1 < n → (isEdgeTo m' k (n + 1) e j ↔ isEdgeTo m k n e j) := fun e j he => by
    unfold isEdgeTo
    rw [old _ he]
    constructor <;> rintro ⟨h1, _, h3⟩ <;> exact ⟨h1, by omega, h3⟩
  refine ⟨h.bound, h.kmax, by omega, ?_, by simp, ?_, ?_, ?_, ?_, ?_, ?_, ?_, ?_, ?_, ?_⟩
  · have := h.size
    simp only [List.length_append, List.length_singleton]; omega
  · rw [List.nodup_append]
    refine ⟨(h.nodup.erase a).erase b, by simp, ?_⟩
    rintro c hc d hd rfl
    have := ((h.queue c).1 ((memq c).1 hc).2.2).1
    simp only [List.mem_singleton] at hd
    omega
  · intro i hi
    rw [old i (by omega)]; exact h.leaf i hi
  · intro i hi
    rw [rd, if_neg (by omega)]; exact h.rest i (by omega)
  · intro i hk hi
    by_cases hin : i < n
    · exact (h.inner i hk hin).congr fun j hj => old j (by omega)
    · obtain rfl : i = n := by omega
      constructor
      · rw [new, ← hw]; rfl
      · rw [new, ← hw]; rfl
      · rw [new, wl]; exact qa.1
      · rw [new, wr]; exact qb.1
      · rw [new, wl, wr, old a qa.1, old b qb.1]; exact ww
  · intro i hk hi
    by_cases hin : i < n
    · exact (h.least i hk hin).congr fun j hj => old j (by omega)
    · obtain rfl : i = n := by omega
      have ka := memKey_congr (old a qa.1)
      have kb := memKey_congr (old b qb.1)
      constructor
      · rw [new, wl, memInQueue_congr old]; exact qa
      · rw [new, wr, memInQueue_congr old]; exact qb
      · rw [new, wl, wr, ka, kb]; exact hamin b hb'.2 hb'.1
      · rw [new, wl, wr]
        intro c hc hca hcb
        rw [memInQueue_congr old] at hc
        rw [kb, memKey_congr (old c hc.1)]
        exact hbmin c ((h.nodup.mem_erase_iff).2 ⟨hca, (h.queue c).2 hc⟩) hcb
  · intro c
    rw [List.mem_append, List.mem_singleton, memq, h.queue]
    constructor
    · rintro (⟨hcb, hca, hc⟩ | rfl)
      · refine ⟨by have := hc.1; omega, fun j hk hj => ?_⟩
        by_cases hjn : j < n
        · rw [old j hjn]; exact hc.2 j hk hjn
        · obtain rfl : j = n := by omega
          rw [new, wl, wr]; exact ⟨Ne.symm hca, Ne.symm hcb⟩
      · refine ⟨by omega, fun j hk hj => ?_⟩
        by_cases hjn : j < c
        · rw [old j hjn]
          have := (h.inner j hk hjn).left
          have := (h.inner j hk hjn).right
          omega
        · obtain rfl : j = c := by omega
          rw [new, wl, wr]
          have := qa.1
          have := qb.1
          omega
    · intro hc
      by_cases hcn : c = n
      · exact .inr hcn
      · left
        have hnew := hc.2 n hle (by omega)
        rw [new, wl, wr] at hnew
        refine ⟨fun e => hnew.2 e.symm, fun e => hnew.1 e.symm, by have := hc.1; omega, fun j hk hj => ?_⟩
        rw [← old j hj]; exact hc.2 j hk (by omega)
  · intro j hj hnot
    rw [List.mem_append, List.mem_singleton, not_or, memq] at hnot
    have hjn : j < n := by omega
    by_cases hja : j = a
    · subst hja
      refine ⟨(n, false), ⟨hle, by simp, by simp only [new]; exact wl⟩, ?_⟩
      rintro ⟨i, bit⟩ he
      by_cases hin : i < n
      · exact absurd ((edge_new (i, bit) j hin).1 he) (qa.no_edge _)
      · obtain rfl : i = n := by have := he.2.1; simp only at this; omega
        cases bit
        · rfl
        · exfalso
          have := he.2.2
          simp only [new, NodeWord.child_true] at this
          omega
    · by_cases hjb : j = b
      · subst hjb
        refine ⟨(n, true), ⟨hle, by simp, by simp only [new]; exact wr⟩, ?_⟩
        rintro ⟨i, bit⟩ he
        by_cases hin : i < n
        · exact absurd ((edge_new (i, bit) j hin).1 he) (qb.no_edge _)
        · obtain rfl : i = n := by have := he.2.1; simp only at this; omega
          cases bit
          · exfalso
            have := he.2.2
            simp only [new, NodeWord.child_false] at this
            omega
          · rfl
      · have hjq : j ∉ pq := fun hq => hnot.1 ⟨hjb, hja, hq⟩
        obtain ⟨e, he, hu⟩ := h.parent j hjn hjq
        refine ⟨e, (edge_new e j he.2.1).2 he, ?_⟩
        rintro ⟨i, bit⟩ he'
        by_cases hin : i < n
        · exact hu _ ((edge_new (i, bit) j hin).1 he')
        · obtain rfl : i = n := by have := he'.2.1; simp only at this; omega
          exfalso
          have := he'.2.2
          cases bit
          · simp only [new, NodeWord.child_false] at this; omega
          · simp only [new, NodeWord.child_true] at this; omega
  · rw [List.map_append, List.sum_append]
    have : ((pq.erase a).erase b).map (fun i => (nodeRead m' i).weight.toNat) =
        ((pq.erase a).erase b).map (fun i => (nodeRead m i).weight.toNat) :=
      List.map_congr_left fun c hc => by rw [old c ((h.queue c).1 ((memq c).1 hc).2.2).1]
    rw [this]
    simp only [List.map_cons, List.map_nil, List.sum_cons, List.sum_nil, new, ww]
    omega
  · intro hwf
    rw [← hm']; exact nodeWrite_wf _ _ _ (h.wf hwf)
  · intro hbl
    rw [← hm']
    refine nodeWrite_below m _ n w (h.below hbl) ?_
    have := h.size
    have := h.kmax
    have := p.maxNode_eq
    omega

/-- The merge loop ends with one index in the queue (R97, R100). -/
theorem MergeInv.loop {m₀ : Memory (NodeWord p)} {k total : Nat} (fuel : Nat) :
    ∀ {m : Memory (NodeWord p)} {pq : List Nat} {n : Nat}, MergeInv m₀ k total m pq n → pq.length ≤ fuel + 1 →
      ∃ r, MergeInv m₀ k total (mergeLoop fuel m pq n).1 [r] (mergeLoop fuel m pq n).2 := by
  induction fuel with
  | zero =>
    intro m pq n h hl
    obtain ⟨r, rfl⟩ : ∃ r, pq = [r] :=
      List.length_eq_one_iff.1 (by have := List.length_pos_iff.2 h.nonempty; omega)
    exact ⟨r, h⟩
  | succ fuel ih =>
    intro m pq n h hl
    cases ha : extractMin m pq with
    | none => exact absurd (extractMin_none.1 ha) h.nonempty
    | some x =>
      obtain ⟨a, pq₁⟩ := x
      cases hb : extractMin m pq₁ with
      | none =>
        have hr := extractMin_none.1 hb
        obtain ⟨hmem, hr', _⟩ := extractMin_some ha
        rw [hr'] at hr
        have hlen := List.length_erase_of_mem hmem
        obtain ⟨r, rfl⟩ : ∃ r, pq = [r] := List.length_eq_one_iff.1 (by
          have := List.length_pos_iff.2 h.nonempty
          rw [hr, List.length_nil] at hlen; omega)
        refine ⟨r, ?_⟩
        simp only [mergeLoop, ha, hb]; exact h
      | some y =>
        obtain ⟨b, pq₂⟩ := y
        simp only [mergeLoop, ha, hb]
        have hp := h.pass ha hb
        refine ih hp ?_
        have := h.size
        have := hp.size
        omega

end Sys2Proof.Machine
end

