-- ==== Sys2Proof/Laws/Tree.lean ====
section
/-! SUPPORT. The tree that `BLD` leaves, from any state: its leaves, its internal nodes, its registers, its weight
(R96 to R102). -/

namespace Sys2Proof.Machine

open Sys2Proof (Params)

variable {p : Params}

/-- The sum of all counts is below what the weight field holds (R101). -/
theorem countSum_lt (b : Block p) : countSum b < 2 ^ p.wW := by
  have h : countSum b ≤ p.nsym * (2 ^ p.cntW - 1) := by
    have := List.sum_le_card_nsmul ((List.range p.nsym).map (fun s => (freqAt b s).toNat)) (2 ^ p.cntW - 1) (by
      intro x hx
      obtain ⟨s, _, rfl⟩ := List.mem_map.1 hx
      have := (freqAt b s).isLt
      omega)
    simpa [countSum] using this
  have hp := Nat.two_pow_pos p.cntW
  have hn := p.nsym_pos
  rw [p.two_pow_wW]
  calc countSum b ≤ p.nsym * (2 ^ p.cntW - 1) := h
    _ < p.nsym * 2 ^ p.cntW := Nat.mul_lt_mul_of_pos_left (by omega) hn
    _ = 2 ^ p.cntW * p.nsym := Nat.mul_comm _ _

/-- Only counted symbols add to the sum of counts. -/
theorem sum_keysBelow (b : Block p) (n : Nat) :
    ((keysBelow b.freq n).map (fun s => (freqAt b s).toNat)).sum =
      ((List.range n).map (fun s => (freqAt b s).toNat)).sum := by
  induction n with
  | zero => rfl
  | succ n ih =>
    rw [keysBelow_succ, List.range_succ, List.map_append, List.sum_append, List.map_append, List.sum_append, ih]
    congr 1
    by_cases h : Memory.read 0 b.freq n = 0
    · have h' : freqAt b n = 0 := h
      rw [if_pos h]; simp [h']
    · rw [if_neg h]

/-- What the leaf loop hands to the merge loop meets the merge loop's invariant. -/
theorem mergeInv_init (b : Block p) (hk : (buildLeaves b.freq b.node).2 ≠ 0) :
    MergeInv (buildLeaves b.freq b.node).1 (keyCount b) (countSum b) (buildLeaves b.freq b.node).1
      (List.range (keyCount b)) (keyCount b) := by
  have hl := buildLeaves_made b.freq b.node
  have hc : (buildLeaves b.freq b.node).2 = keyCount b := by rw [hl.count, keysBelow_length]
  have hle : keyCount b ≤ p.nsym := by rw [← keysBelow_length]; exact keysBelow_length_le _ _
  refine ⟨countSum_lt b, hle, le_rfl, by simp; omega, by simp; omega, List.nodup_range, fun _ _ => rfl,
    fun _ _ => rfl, fun i h1 h2 => by omega, fun i h1 h2 => by omega, ?_, ?_, ?_, id, id⟩
  · intro c
    rw [List.mem_range]
    exact ⟨fun h => ⟨h, fun j h1 h2 => by omega⟩, fun h => h.1⟩
  · intro j hj hn
    exact absurd (List.mem_range.2 hj) hn
  · have : (List.range (keyCount b)).map (fun i => (nodeRead (buildLeaves b.freq b.node).1 i).weight.toNat) =
        (keysBelow b.freq p.nsym).map (fun s => (freqAt b s).toNat) := by
      refine List.ext_getElem (by simp [keysBelow_length]) fun i h1 h2 => ?_
      have hi : i < (keysBelow b.freq p.nsym).length := by simpa using h2
      rw [List.getElem_map, List.getElem_map, List.getElem_range, hl.leaf i hi, leafWord_weight]
      rfl
    rw [this, sum_keysBelow]; rfl

/-- The tree `BLD` leaves when a symbol has been counted (R97, R100). -/
structure TreeMade (b t : Block p) : Prop where
  nleaf : t.nleaf.toNat = keyCount b
  nnode : t.nnode.toNat = 2 * keyCount b - 1
  root : t.root.toNat = 2 * keyCount b - 2
  rootValid : t.rootValid = true
  leaf : ∀ i, (h : i < (keysBelow b.freq p.nsym).length) →
    nodeOf t i = leafWord (keysBelow b.freq p.nsym)[i] (freqAt b (keysBelow b.freq p.nsym)[i])
  inner : ∀ i, keyCount b ≤ i → i < 2 * keyCount b - 1 → InnerNode t.node i
  least : ∀ i, keyCount b ≤ i → i < 2 * keyCount b - 1 → LeastTwo t.node (keyCount b) i
  parent : ∀ j, j + 1 < 2 * keyCount b - 1 → ∃! e, isEdgeTo t.node (keyCount b) (2 * keyCount b - 1) e j
  rest : ∀ i, 2 * keyCount b - 1 ≤ i → nodeOf t i = nodeOf b i
  weight : (nodeOf t t.root.toNat).weight.toNat = countSum b
  wf : Memory.wf (NodeWord.zero p) b.node → Memory.wf (NodeWord.zero p) t.node
  below : Memory.below p.maxNode b.node → Memory.below p.maxNode t.node

/-- What `BLD` does not touch, and where it leaves the phase and the cursor (R97). -/
structure BldFrame (b t : Block p) : Prop where
  phase : t.phase = .tree
  cur : t.cur = t.root
  halt : t.halt = b.halt
  err : t.err = b.err
  freq : t.freq = b.freq
  code : t.code = b.code

theorem bldBody_frame (b : Block p) : BldFrame b (bldBody b).1 := by
  unfold bldBody
  by_cases h : (buildLeaves b.freq b.node).2 = 0
  · rw [if_pos h]; exact ⟨rfl, rfl, rfl, rfl, rfl, rfl⟩
  · rw [if_neg h]; exact ⟨rfl, rfl, rfl, rfl, rfl, rfl⟩

theorem bldBody_rsp (b : Block p) : (bldBody b).2 = Rsp.plain := by
  unfold bldBody
  by_cases h : (buildLeaves b.freq b.node).2 = 0
  · rw [if_pos h]
  · rw [if_neg h]

/-- With nothing counted `BLD` leaves no tree, and the NODE memory reads as before (R102). -/
theorem bldBody_empty (b : Block p) (h : keyCount b = 0) :
    (bldBody b).1.nleaf = 0 ∧ (bldBody b).1.nnode = 0 ∧ (bldBody b).1.root = 0 ∧ (bldBody b).1.rootValid = false ∧
      (∀ i, nodeOf (bldBody b).1 i = nodeOf b i) ∧
      (Memory.wf (NodeWord.zero p) b.node → Memory.wf (NodeWord.zero p) (bldBody b).1.node) ∧
      (Memory.below p.maxNode b.node → Memory.below p.maxNode (bldBody b).1.node) := by
  have hl := buildLeaves_made b.freq b.node
  have h0 : (buildLeaves b.freq b.node).2 = 0 := by rw [hl.count, keysBelow_length, h]
  have hlen : (keysBelow b.freq p.nsym).length = 0 := by rw [keysBelow_length, h]
  unfold bldBody
  rw [if_pos h0]
  exact ⟨rfl, rfl, rfl, rfl, fun i => hl.rest i (by omega), hl.wf, hl.below le_rfl⟩

/-- With a symbol counted `BLD` leaves the tree of R97. -/
theorem bldBody_tree (b : Block p) (h : keyCount b ≠ 0) : TreeMade b (bldBody b).1 := by
  have hl := buildLeaves_made b.freq b.node
  have hc : (buildLeaves b.freq b.node).2 = keyCount b := by rw [hl.count, keysBelow_length]
  have h0 : (buildLeaves b.freq b.node).2 ≠ 0 := by rw [hc]; exact h
  have hle : keyCount b ≤ p.nsym := by rw [← keysBelow_length]; exact keysBelow_length_le _ _
  obtain ⟨r, hr⟩ := (mergeInv_init b h0).loop (keyCount b) (by simp)
  unfold bldBody
  rw [if_neg h0, hc]
  generalize hmm : mergeLoop (keyCount b) (buildLeaves b.freq b.node).1 (List.range (keyCount b)) (keyCount b) = mm at hr
  obtain ⟨m, n⟩ := mm
  simp only at hr ⊢
  have hn : n = 2 * keyCount b - 1 := by
    have := hr.size
    simp only [List.length_singleton] at this
    omega
  have hsymle := p.two_pow_idxW
  have hpos := p.nsym_pos
  have toNat_idx : ∀ x, x < 2 * p.nsym → (BitVec.ofNat p.idxW x).toNat = x := fun x hx => by
    rw [BitVec.toNat_ofNat, p.two_pow_idxW, Nat.mod_eq_of_lt hx]
  have hroot : r = n - 1 := by
    have hq : n - 1 ∈ [r] := by
      refine (hr.queue (n - 1)).2 ⟨by omega, fun j h1 h2 => ?_⟩
      have hj := hr.inner j h1 h2
      have := hj.left
      have := hj.right
      omega
    exact (List.mem_singleton.1 hq).symm
  have hweight : (nodeRead m (n - 1)).weight.toNat = countSum b := by
    have := hr.sum
    simp only [List.map_cons, List.map_nil, List.sum_cons, List.sum_nil] at this
    rw [← hroot]; omega
  refine ⟨toNat_idx _ (by omega), ?_, ?_, rfl, ?_, ?_, ?_, ?_, ?_, ?_, fun hw => hr.wf (hl.wf hw),
    fun hb => hr.below (hl.below le_rfl hb)⟩
  · rw [← hn]; exact toNat_idx n (by omega)
  · show (BitVec.ofNat p.idxW (n - 1)).toNat = _
    rw [toNat_idx _ (by omega)]; omega
  · intro i hi
    show nodeRead m i = _
    rw [hr.leaf i (by rw [← keysBelow_length]; exact hi)]
    exact hl.leaf i hi
  · intro i h1 h2
    exact hr.inner i h1 (by omega)
  · intro i h1 h2
    exact hr.least i h1 (by omega)
  · intro j hj
    rw [← hn]
    refine hr.parent j (by omega) ?_
    rw [List.mem_singleton, hroot]; omega
  · intro i hi
    show nodeRead m i = nodeRead b.node i
    rw [hr.rest i (by omega), hl.rest i (by rw [keysBelow_length]; omega)]
  · show (nodeRead m (BitVec.ofNat p.idxW (n - 1)).toNat).weight.toNat = _
    rw [toNat_idx _ (by omega)]; exact hweight

/-- What a step that keeps the frequency map leaves of the counts. -/
theorem freqAt_congr {b t : Block p} (h : t.freq = b.freq) (s : Nat) : freqAt t s = freqAt b s := by
  unfold freqAt; rw [h]

theorem keyCount_congr {b t : Block p} (h : t.freq = b.freq) : keyCount t = keyCount b := by
  unfold keyCount freqAt; rw [h]

/-- The tree registers after `BLD` (R24, R25, R26, R38 item 3). -/
theorem bldBody_registers (b : Block p) : (bldBody b).1.TreeRegisters := by
  have hk := keyCount_congr (bldBody_frame b).freq
  by_cases h : keyCount b = 0
  · obtain ⟨h1, h2, h3, h4, -⟩ := bldBody_empty b h
    exact ⟨by rw [h1, hk, h]; rfl, fun _ => ⟨by rw [h2]; rfl, h4, by rw [h3]; rfl⟩,
      fun hn => absurd (by rw [h1]; rfl) hn⟩
  · have ht := bldBody_tree b h
    refine ⟨by rw [ht.nleaf, hk], fun h0 => absurd (by rw [← ht.nleaf]; exact h0) h, fun _ => ?_⟩
    exact ⟨by rw [ht.nnode, ht.nleaf], ht.rootValid, by rw [ht.root, ht.nnode]; omega⟩

/-- The shape of the tree after `BLD`, from a NODE memory of zeros (R33, R100, R38 item 4). -/
theorem bldBody_shape (b : Block p) (hz : ∀ i, nodeOf b i = NodeWord.zero p) : (bldBody b).1.TreeShape := by
  have hf := bldBody_frame b
  by_cases h : keyCount b = 0
  · obtain ⟨h1, h2, -, -, h5, -⟩ := bldBody_empty b h
    have hnl : (bldBody b).1.nleaf.toNat = 0 := by rw [h1]; rfl
    have hnn : (bldBody b).1.nnode.toNat = 0 := by rw [h2]; rfl
    refine ⟨by omega, by omega, fun s hs hne => ?_, by omega, by omega, fun i _ => by rw [h5, hz]⟩
    rw [freqAt_congr hf.freq] at hne
    have : s ∈ keysBelow b.freq p.nsym := (mem_keysBelow _ _ _).2 ⟨hs, hne⟩
    have := List.length_pos_of_mem this
    rw [keysBelow_length] at this
    omega
  · have ht := bldBody_tree b h
    generalize hgt : (bldBody b).1 = t at ht hf
    have hfa := freqAt_congr hf.freq
    have hkl := keysBelow_length b
    have hkey : ∀ i, (hi : i < (keysBelow b.freq p.nsym).length) →
        (keysBelow b.freq p.nsym)[i] < p.nsym ∧ freqAt b (keysBelow b.freq p.nsym)[i] ≠ 0 := fun i hi =>
      (mem_keysBelow _ _ _).1 (List.getElem_mem hi)
    refine ⟨?_, ?_, ?_, ?_, ?_, ?_⟩
    · intro i hi
      rw [ht.nleaf, ← hkl] at hi
      obtain ⟨hs, hne⟩ := hkey i hi
      rw [ht.leaf i hi, leafWord_sym _ _ hs, leafWord_weight, hfa]
      exact ⟨rfl, rfl, rfl, hne, rfl⟩
    · intro i hi
      rw [ht.nleaf, ← hkl] at hi
      rw [ht.leaf i (by omega), ht.leaf (i + 1) hi, leafWord_sym _ _ (hkey _ _).1, leafWord_sym _ _ (hkey _ _).1]
      exact List.pairwise_iff_getElem.1 (keysBelow_sorted b.freq p.nsym) i (i + 1) (by omega) hi (by omega)
    · intro s hs hne
      rw [hfa] at hne
      obtain ⟨i, hi, he⟩ := List.mem_iff_getElem.1 ((mem_keysBelow b.freq p.nsym s).2 ⟨hs, hne⟩)
      refine ⟨i, by rw [ht.nleaf, ← hkl]; exact hi, ?_⟩
      rw [ht.leaf i hi, leafWord_sym _ _ (hkey _ _).1, he]
    · intro i h1 h2
      rw [ht.nleaf] at h1
      rw [ht.nnode] at h2
      have hi := ht.inner i h1 h2
      refine ⟨hi.notLeaf, hi.sym, hi.left, hi.right, fun he => ?_, hi.weight⟩
      have ho := (ht.least i h1 h2).ordered
      have he' : (nodeRead t.node i).left = (nodeRead t.node i).right := he
      rw [he'] at ho
      exact pairLess_irrefl _ ho
    · intro j hj
      rw [ht.nnode] at hj ⊢
      rw [ht.nleaf]
      exact ht.parent j hj
    · intro i hi
      rw [ht.nnode] at hi
      rw [ht.rest i hi, hz]

end Sys2Proof.Machine
end

