-- ==== Sys2Proof/Laws/Walk.lean ====
section
/-! SUPPORT. What the walk of `TBL` makes of a tree, and the paths of a tree (R106 to R109). -/

namespace Sys2Proof.Machine

open Sys2Proof (Params)

variable {p : Params}

/-- Leaves at `0 .. k-1`, internal nodes at `k .. n-1`, every child below its parent (R38 item 4, R100). -/
structure IsTree (m : Memory (NodeWord p)) (k n : Nat) : Prop where
  leaf : ∀ i, i < k → (nodeRead m i).isLeaf = true
  inner : ∀ i, k ≤ i → i < n →
    (nodeRead m i).isLeaf = false ∧ (nodeRead m i).left.toNat < i ∧ (nodeRead m i).right.toNat < i
  range : n ≤ p.maxNode

theorem IsTree.child_lt {m : Memory (NodeWord p)} {k n i : Nat} (h : IsTree m k n) (hk : k ≤ i) (hi : i < n) (bit : Bool) :
    ((nodeRead m i).child bit).toNat < i := by
  cases bit
  · exact (h.inner i hk hi).2.1
  · exact (h.inner i hk hi).2.2

theorem IsTree.leaf_iff {m : Memory (NodeWord p)} {k n i : Nat} (h : IsTree m k n) (hi : i < n) :
    (nodeRead m i).isLeaf = true ↔ i < k := by
  refine ⟨fun hl => ?_, h.leaf i⟩
  by_contra hk
  rw [(h.inner i (by omega) hi).1] at hl
  cases hl

/-! ## Paths -/

theorem leafAt_nil (m : Memory (NodeWord p)) (i : BitVec p.idxW) :
    leafAt m i [] = if (nodeRead m i.toNat).isLeaf then some (nodeRead m i.toNat).sym else none := rfl

theorem leafAt_cons (m : Memory (NodeWord p)) (i : BitVec p.idxW) (bit : Bool) (l : List Bool) :
    leafAt m i (bit :: l) =
      if (nodeRead m i.toNat).isLeaf then none else leafAt m ((nodeRead m i.toNat).child bit) l := rfl

/-- A string that leads to a leaf goes no further (R108 (c)). -/
theorem leafAt_append {m : Memory (NodeWord p)} {i : BitVec p.idxW} {l l' : List Bool} {x y : BitVec p.symW}
    (h : leafAt m i l = some x) (h' : leafAt m i (l ++ l') = some y) : l' = [] ∧ x = y := by
  induction l generalizing i with
  | nil =>
    rw [leafAt_nil] at h
    split at h
    · next hl =>
      cases l' with
      | nil =>
        rw [List.append_nil, leafAt_nil, if_pos hl] at h'
        exact ⟨rfl, Option.some.inj (h.symm.trans h')⟩
      | cons b l' => rw [List.nil_append, leafAt_cons, if_pos hl] at h'; cases h'
    · cases h
  | cons b l ih =>
    rw [List.cons_append, leafAt_cons] at h'
    rw [leafAt_cons] at h
    split at h
    · cases h
    · next hl => rw [if_neg hl] at h'; exact ih h h'

/-- In a tree a path to a leaf has at most as many bits as there are internal nodes up to its start (R109). -/
theorem IsTree.leafAt_length {m : Memory (NodeWord p)} {k n : Nat} (h : IsTree m k n) (l : List Bool) :
    ∀ {i : BitVec p.idxW} {x : BitVec p.symW}, i.toNat < n → leafAt m i l = some x → l.length ≤ i.toNat + 1 - k := by
  induction l with
  | nil => intro i x _ _; simp
  | cons b l ih =>
    intro i x hi hx
    rw [leafAt_cons] at hx
    split at hx
    · cases hx
    · next hl =>
      have hk : k ≤ i.toNat := by
        by_contra hk
        exact hl (h.leaf _ (by omega))
      have hc := h.child_lt hk hi b
      have := ih (by omega) hx
      simp only [List.length_cons]
      omega

/-- A path to a leaf ends at a leaf of the tree, with its symbol. -/
theorem IsTree.leafAt_leaf {m : Memory (NodeWord p)} {k n : Nat} (h : IsTree m k n) (l : List Bool) :
    ∀ {i : BitVec p.idxW} {x : BitVec p.symW}, i.toNat < n → leafAt m i l = some x →
      ∃ j, j < k ∧ (nodeRead m j).sym = x := by
  induction l with
  | nil =>
    intro i x hi hx
    rw [leafAt_nil] at hx
    split at hx
    · next hl => exact ⟨i.toNat, (h.leaf_iff hi).1 hl, Option.some.inj hx⟩
    · cases hx
  | cons b l ih =>
    intro i x hi hx
    rw [leafAt_cons] at hx
    split at hx
    · cases hx
    · next hl =>
      have hk : k ≤ i.toNat := by
        by_contra hk
        exact hl (h.leaf _ (by omega))
      exact ih (by have := h.child_lt hk hi b; omega) hx

/-- Every internal node but the root, and every leaf, hangs below a node with a greater index (R100). -/
def HasParents (m : Memory (NodeWord p)) (k n : Nat) : Prop := ∀ j, j + 1 < n → ∃ e, isEdgeTo m k n e j

/-- Any string that leads from node `i` to a leaf can be led up to the root. -/
theorem IsTree.lift_to_root {m : Memory (NodeWord p)} {k n : Nat} (h : IsTree m k n) (hp : HasParents m k n)
    {root : BitVec p.idxW} (hr : root.toNat + 1 = n) (d : Nat) :
    ∀ {i : BitVec p.idxW} {l : List Bool} {x : BitVec p.symW}, i.toNat + d + 1 = n → leafAt m i l = some x →
      ∃ l', leafAt m root l' = some x := by
  induction d using Nat.strong_induction_on with
  | _ d ih =>
    intro i l x hi hx
    by_cases hd : d = 0
    · have : i = root := BitVec.eq_of_toNat_eq (by omega)
      exact ⟨l, this ▸ hx⟩
    · obtain ⟨e, hek, hen, hec⟩ := hp i.toNat (by omega)
      have hlt := h.child_lt hek hen e.2
      have he : (BitVec.ofNat p.idxW e.1).toNat = e.1 := by
        rw [BitVec.toNat_ofNat, p.two_pow_idxW, Nat.mod_eq_of_lt]
        have := h.range; have := p.maxNode_eq; omega
      have hchild : (nodeRead m e.1).child e.2 = i := BitVec.eq_of_toNat_eq hec
      refine ih (n - 1 - e.1) (by omega) (i := BitVec.ofNat p.idxW e.1) (l := e.2 :: l) (x := x) (by omega) ?_
      rw [leafAt_cons, he, if_neg (by rw [(h.inner e.1 hek hen).1]; simp), hchild, hx]

/-- Every leaf has a path from the root (R100, R105). -/
theorem IsTree.leaf_path {m : Memory (NodeWord p)} {k n : Nat} (h : IsTree m k n) (hp : HasParents m k n)
    {root : BitVec p.idxW} (hr : root.toNat + 1 = n) {j : Nat} (hj : j < k) (hkn : k ≤ n) :
    ∃ l, leafAt m root l = some (nodeRead m j).sym := by
  have he : (BitVec.ofNat p.idxW j).toNat = j := by
    rw [BitVec.toNat_ofNat, p.two_pow_idxW, Nat.mod_eq_of_lt]
    have := h.range; have := p.maxNode_eq; omega
  refine h.lift_to_root hp hr (n - 1 - j) (i := BitVec.ofNat p.idxW j) (l := []) (by omega) ?_
  rw [leafAt_nil, he, if_pos (h.leaf j hj)]

/-! ## The bits of a path -/

/-- The `bits` field after the bits `l` are appended from position `len` on (R106, R107). -/
def appendBits (bits : BitVec p.maxLen) (len : Nat) : List Bool → BitVec p.maxLen
  | [] => bits
  | bit :: l => appendBits (if bit then bits ||| (1#p.maxLen <<< len) else bits) (len + 1) l

theorem appendBits_cons (bits : BitVec p.maxLen) (len : Nat) (bit : Bool) (l : List Bool) :
    appendBits bits len (bit :: l) =
      appendBits (if bit then bits ||| (1#p.maxLen <<< len) else bits) (len + 1) l := rfl

theorem getLsbD_appendBits (l : List Bool) : ∀ (bits : BitVec p.maxLen) (len i : Nat),
    (appendBits bits len l).getLsbD i =
      (bits.getLsbD i || (decide (i < p.maxLen) && decide (len ≤ i) && l.getD (i - len) false)) := by
  induction l with
  | nil => intro bits len i; simp [appendBits]
  | cons bit l ih =>
    intro bits len i
    unfold appendBits
    rw [ih]
    by_cases hi : i < p.maxLen
    · rcases Nat.lt_trichotomy i len with h | h | h
      · have h1 : ¬ len + 1 ≤ i := by omega
        have h2 : ¬ len ≤ i := by omega
        cases bit <;> simp [h1, h2, BitVec.getLsbD_shiftLeft, h]
      · subst h
        have h1 : ¬ i + 1 ≤ i := by omega
        cases bit <;> simp [hi]
      · have h1 : len + 1 ≤ i := by omega
        have h2 : len ≤ i := by omega
        have h3 : i - len = (i - (len + 1)) + 1 := by omega
        rw [h3, List.getD_cons_succ]
        have h4 : ¬ i - len = 0 := by omega
        cases bit <;> simp [h1, h2, hi, h4]
    · have : ∀ b : BitVec p.maxLen, b.getLsbD i = false := fun b => BitVec.getLsbD_of_ge b i (by omega)
      simp [hi, this]

/-- A CODE word whose bits were appended from nothing holds the string appended (R13). -/
theorem toBits_appendBits (l : List Bool) (h : l.length ≤ p.maxLen) :
    (⟨BitVec.ofNat p.lenW l.length, appendBits 0 0 l⟩ : CodeWord p).toBits = l := by
  have hlen : (BitVec.ofNat p.lenW l.length).toNat = l.length := by
    rw [BitVec.toNat_ofNat, Nat.mod_eq_of_lt]
    have := p.maxLen_eq
    have := p.nsym_pos
    show _ < p.nsym
    omega
  refine List.ext_getElem (by rw [CodeWord.length_toBits]; exact hlen) fun i h1 h2 => ?_
  rw [CodeWord.getElem_toBits, getLsbD_appendBits]
  have hi : i < p.maxLen := by omega
  simp [hi, List.getD_eq_getElem?_getD, List.getElem?_eq_getElem h2]

/-- Above its length a CODE word built so is zero (R34, R108 (d)). -/
theorem appendBits_high (l : List Bool) (i : Nat) (h : l.length ≤ i) :
    (appendBits (0 : BitVec p.maxLen) 0 l).getLsbD i = false := by
  rw [getLsbD_appendBits]
  simp [List.getD_eq_getElem?_getD, List.getElem?_eq_none h]

/-! ## The walk -/

/-- The CODE word of symbol `s` after a walk from `i`: the path of a leaf with that symbol, or as before when no path
leads to one. -/
def WalkedCode (m : Memory (NodeWord p)) (i : BitVec p.idxW) (len : Nat) (bits : BitVec p.maxLen)
    (code code' : Memory (CodeWord p)) (s : Nat) : Prop :=
  (∃ l x, leafAt m i l = some x ∧ x.toNat = s ∧
      Memory.read (CodeWord.zero p) code' s = ⟨BitVec.ofNat p.lenW (len + l.length), appendBits bits len l⟩) ∨
    ((∀ l x, leafAt m i l = some x → x.toNat ≠ s) ∧
      Memory.read (CodeWord.zero p) code' s = Memory.read (CodeWord.zero p) code s)

/-- The walk of a tree ends, and leaves every symbol its path (R106). -/
theorem IsTree.walk_spec {m : Memory (NodeWord p)} {k n : Nat} (h : IsTree m k n) (fuel : Nat) :
    ∀ (i : BitVec p.idxW) (len : Nat) (bits : BitVec p.maxLen) (code : Memory (CodeWord p)),
      i.toNat < n → i.toNat + 1 - k < fuel →
      ∃ code', walk m fuel i len bits code = .ok code' ∧
        (∀ s, WalkedCode m i len bits code code' s) ∧
        (Memory.wf (CodeWord.zero p) code → Memory.wf (CodeWord.zero p) code') ∧
        (Memory.below p.nsym code → Memory.below p.nsym code') := by
  induction fuel with
  | zero => intro i len bits code _ hf; omega
  | succ fuel ih =>
    intro i len bits code hi hf
    have hr := h.range
    unfold walk
    rw [nodeAt_ok (by omega)]
    simp only
    generalize hw : nodeRead m i.toNat = w
    by_cases hl : w.isLeaf = true
    · rw [if_pos hl]
      refine ⟨_, rfl, fun s => ?_, fun hwf => Memory.wf_write (CodeWord.zero p) code w.sym.toNat _ hwf,
        fun hb => Memory.below_write (CodeWord.zero p) code p.nsym w.sym.toNat _ hb w.sym.isLt⟩
      have hnil : leafAt m i [] = some w.sym := by rw [leafAt_nil, hw, if_pos hl]
      by_cases hs : w.sym.toNat = s
      · left
        refine ⟨[], w.sym, hnil, hs, ?_⟩
        rw [← hs]
        exact Memory.read_write_same _ _ _ _
      · right
        refine ⟨fun l x hx => ?_, Memory.read_write_other _ _ _ _ _ fun he => hs he.symm⟩
        cases l with
        | nil => rw [hnil] at hx; rw [← Option.some.inj hx]; exact hs
        | cons b l => rw [leafAt_cons, hw, if_pos hl] at hx; cases hx
    · have hl' : w.isLeaf = false := by simpa using hl
      rw [if_neg hl]
      have hk : k ≤ i.toNat := by
        by_contra hk
        exact hl (hw ▸ h.leaf _ (by omega))
      have hc0 := h.child_lt hk hi false
      have hc1 := h.child_lt hk hi true
      rw [hw] at hc0 hc1
      obtain ⟨c₁, e₁, s₁, wf₁, b₁⟩ := ih (w.child false) (len + 1) bits code (by omega) (by omega)
      obtain ⟨c₂, e₂, s₂, wf₂, b₂⟩ := ih (w.child true) (len + 1) (bits ||| (1#p.maxLen <<< len)) c₁ (by omega) (by omega)
      rw [e₁]
      refine ⟨c₂, e₂, fun s => ?_, fun hwf => wf₂ (wf₁ hwf), fun hb => b₂ (b₁ hb)⟩
      have step : ∀ b l, leafAt m i (b :: l) = leafAt m (w.child b) l := fun b l => by
        rw [leafAt_cons, hw, if_neg hl]
      rcases s₂ s with ⟨l, x, hx, hxs, hread⟩ | ⟨hno₂, hread₂⟩
      · left
        refine ⟨true :: l, x, by rw [step]; exact hx, hxs, ?_⟩
        rw [hread, List.length_cons, appendBits_cons, if_pos rfl, show len + 1 + l.length = len + (l.length + 1) by omega]
      · rcases s₁ s with ⟨l, x, hx, hxs, hread⟩ | ⟨hno₁, hread₁⟩
        · left
          refine ⟨false :: l, x, by rw [step]; exact hx, hxs, ?_⟩
          rw [hread₂, hread, List.length_cons, appendBits_cons, if_neg (by simp), show len + 1 + l.length = len + (l.length + 1) by omega]
        · right
          refine ⟨fun l x hx => ?_, by rw [hread₂, hread₁]⟩
          cases l with
          | nil => rw [leafAt_nil, hw, if_neg hl] at hx; cases hx
          | cons b l =>
            rw [step] at hx
            cases b
            · exact hno₁ l x hx
            · exact hno₂ l x hx

/-! ## Where the walk stops -/

theorem nodeAlong_nil (m : Memory (NodeWord p)) (i : BitVec p.idxW) : nodeAlong m i [] = some i := rfl

theorem nodeAlong_cons (m : Memory (NodeWord p)) (i : BitVec p.idxW) (bit : Bool) (l : List Bool) :
    nodeAlong m i (bit :: l) =
      if i.toNat < p.maxNode ∧ (nodeRead m i.toNat).isLeaf = false then nodeAlong m ((nodeRead m i.toNat).child bit) l
      else none := rfl

/-- One level of the walk: an index with no word, a leaf, or the two subtrees one after the other. -/
theorem walk_succ (m : Memory (NodeWord p)) (fuel : Nat) (i : BitVec p.idxW) (len : Nat) (bits : BitVec p.maxLen)
    (code : Memory (CodeWord p)) :
    (p.maxNode ≤ i.toNat ∧ walk m (fuel + 1) i len bits code = .error .nodeIndexOutOfRange) ∨
    (i.toNat < p.maxNode ∧ (nodeRead m i.toNat).isLeaf = true ∧ ∃ code', walk m (fuel + 1) i len bits code = .ok code') ∨
    (i.toNat < p.maxNode ∧ (nodeRead m i.toNat).isLeaf = false ∧
      ((∃ f, walk m fuel ((nodeRead m i.toNat).child false) (len + 1) bits code = .error f ∧
          walk m (fuel + 1) i len bits code = .error f) ∨
        ∃ code', walk m fuel ((nodeRead m i.toNat).child false) (len + 1) bits code = .ok code' ∧
          walk m (fuel + 1) i len bits code =
            walk m fuel ((nodeRead m i.toNat).child true) (len + 1) (bits ||| (1#p.maxLen <<< len)) code')) := by
  by_cases hi : i.toNat < p.maxNode
  · by_cases hl : (nodeRead m i.toNat).isLeaf = true
    · refine .inr (.inl ⟨hi, hl, ?_⟩)
      unfold walk
      simp only [nodeAt_ok hi, hl, if_true, Except.ok.injEq, exists_eq']
    · refine .inr (.inr ⟨hi, eq_false_of_ne_true hl, ?_⟩)
      cases hc : walk m fuel ((nodeRead m i.toNat).child false) (len + 1) bits code with
      | error f =>
        refine .inl ⟨f, rfl, ?_⟩
        conv_lhs => unfold walk
        simp only [nodeAt_ok hi, if_neg hl, hc]
      | ok c =>
        refine .inr ⟨c, rfl, ?_⟩
        conv_lhs => unfold walk
        simp only [nodeAt_ok hi, if_neg hl, hc]
  · refine .inl ⟨by omega, ?_⟩
    unfold walk nodeAt
    rw [if_neg hi]

/-- The walk stops exactly when a path leaves the memory, or passes as many internal nodes as there are levels. -/
theorem walk_error_iff (m : Memory (NodeWord p)) (fuel : Nat) :
    ∀ (i : BitVec p.idxW) (len : Nat) (bits : BitVec p.maxLen) (code : Memory (CodeWord p)),
      (∃ f, walk m fuel i len bits code = .error f) ↔
        ∃ l j, nodeAlong m i l = some j ∧ (fuel ≤ l.length ∨ p.maxNode ≤ j.toNat) := by
  induction fuel with
  | zero =>
    intro i len bits code
    exact iff_of_true ⟨_, rfl⟩ ⟨[], i, rfl, .inl le_rfl⟩
  | succ fuel ih =>
    intro i len bits code
    rcases walk_succ m fuel i len bits code with ⟨hi, hw⟩ | ⟨hi, hl, c, hw⟩ | ⟨hi, hl, hw⟩
    · exact iff_of_true ⟨_, hw⟩ ⟨[], i, rfl, .inr hi⟩
    · refine iff_of_false (by rw [hw]; simp) ?_
      rintro ⟨l, j, hj, hs⟩
      cases l with
      | nil =>
        rw [nodeAlong_nil] at hj
        injection hj with hj
        subst hj
        rcases hs with hs | hs
        · exact absurd hs (by simp)
        · omega
      | cons bit l => rw [nodeAlong_cons, if_neg (by simp [hl])] at hj; cases hj
    · have along : ∀ bit l, nodeAlong m i (bit :: l) = nodeAlong m ((nodeRead m i.toNat).child bit) l := fun bit l => by
        rw [nodeAlong_cons, if_pos ⟨hi, hl⟩]
      constructor
      · rintro ⟨f, hf⟩
        rcases hw with ⟨g, hg, _⟩ | ⟨c, _, he⟩
        · obtain ⟨l, j, hj, hs⟩ := (ih _ _ _ _).1 ⟨g, hg⟩
          exact ⟨false :: l, j, by rw [along]; exact hj, by simpa using hs⟩
        · obtain ⟨l, j, hj, hs⟩ := (ih _ _ _ _).1 ⟨f, he.symm.trans hf⟩
          exact ⟨true :: l, j, by rw [along]; exact hj, by simpa using hs⟩
      · rintro ⟨l, j, hj, hs⟩
        cases l with
        | nil =>
          rw [nodeAlong_nil] at hj
          injection hj with hj
          subst hj
          rcases hs with hs | hs
          · exact absurd hs (by simp)
          · omega
        | cons bit l =>
          rw [along] at hj
          have hs' : fuel ≤ l.length ∨ p.maxNode ≤ j.toNat := by simpa using hs
          rcases hw with ⟨g, _, hg⟩ | ⟨c, hc, he⟩
          · exact ⟨g, hg⟩
          · cases bit with
            | false =>
              obtain ⟨f, hf⟩ := (ih _ (len + 1) bits code).2 ⟨l, j, hj, hs'⟩
              rw [hc] at hf; cases hf
            | true =>
              obtain ⟨f, hf⟩ := (ih _ (len + 1) (bits ||| (1#p.maxLen <<< len)) c).2 ⟨l, j, hj, hs'⟩
              exact ⟨f, he.trans hf⟩

/-- The reason of a walk's stop is one of its paths: `nodeIndexOutOfRange` a path off the memory, `malformedTree` a path with
too many internal nodes. -/
theorem walk_error_path (m : Memory (NodeWord p)) (fuel : Nat) :
    ∀ (i : BitVec p.idxW) (len : Nat) (bits : BitVec p.maxLen) (code : Memory (CodeWord p)) (f : Fault),
      walk m fuel i len bits code = .error f →
        ∃ l j, nodeAlong m i l = some j ∧
          ((f = .nodeIndexOutOfRange ∧ p.maxNode ≤ j.toNat) ∨ (f = .malformedTree ∧ fuel ≤ l.length)) := by
  induction fuel with
  | zero =>
    intro i len bits code f h
    injection h with h
    exact ⟨[], i, rfl, .inr ⟨h.symm, le_rfl⟩⟩
  | succ fuel ih =>
    intro i len bits code f h
    rcases walk_succ m fuel i len bits code with ⟨hi, hw⟩ | ⟨_, _, c, hw⟩ | ⟨hi, hl, hw⟩
    · rw [hw] at h
      injection h with h
      exact ⟨[], i, rfl, .inl ⟨h.symm, hi⟩⟩
    · rw [hw] at h; cases h
    · have down : ∀ bit l j, nodeAlong m ((nodeRead m i.toNat).child bit) l = some j →
          nodeAlong m i (bit :: l) = some j := fun bit l j hj => by rw [nodeAlong_cons, if_pos ⟨hi, hl⟩]; exact hj
      rcases hw with ⟨g, hg, he⟩ | ⟨c, _, he⟩
      · rw [he] at h
        injection h with h
        obtain ⟨l, j, hj, hs⟩ := ih _ _ _ _ _ hg
        exact ⟨false :: l, j, down _ _ _ hj, by rw [← h]; simpa using hs⟩
      · obtain ⟨l, j, hj, hs⟩ := ih _ _ _ _ _ (he.symm.trans h)
        exact ⟨true :: l, j, down _ _ _ hj, by simpa using hs⟩

end Sys2Proof.Machine
end

