-- ==== Sys2Proof/Laws/Table.lean ====
section
/-! SUPPORT. The code table that `TBL` makes of the tree of 10_state R38 (R106, R108, R110). -/

namespace Sys2Proof.Machine

open Sys2Proof (Params)

variable {p : Params}

theorem keyCount_le (b : Block p) : keyCount b ≤ p.nsym := by
  have := keysBelow_length_le b.freq p.nsym
  rwa [keysBelow_length] at this

/-- The nodes of R38 item 4 are a tree. -/
theorem Block.TreeShape.isTree {b : Block p} (hr : b.TreeRegisters) (hs : b.TreeShape) :
    IsTree b.node b.nleaf.toNat b.nnode.toNat := by
  refine ⟨fun i hi => (hs.leaf i hi).1, fun i h1 h2 => ?_, ?_⟩
  · have := hs.inner i h1 h2
    exact ⟨this.1, this.2.2.1, this.2.2.2.1⟩
  · have hk := hr.nleaf ▸ keyCount_le b
    have := p.maxNode_eq
    by_cases h0 : b.nleaf.toNat = 0
    · have := (hr.empty h0).1; omega
    · have := (hr.full h0).1; omega

theorem Block.TreeShape.hasParents {b : Block p} (hs : b.TreeShape) :
    HasParents b.node b.nleaf.toNat b.nnode.toNat := fun j hj => (hs.parent j hj).exists

/-- With a tree the root is the last node (R26). -/
theorem Block.TreeRegisters.root_last {b : Block p} (hr : b.TreeRegisters) (h : b.nleaf.toNat ≠ 0) :
    b.root.toNat + 1 = b.nnode.toNat ∧ b.nleaf.toNat ≤ b.nnode.toNat := by
  have := (hr.full h).1
  have := (hr.full h).2.2
  omega

/-- `ROOT_VALID` says that something was counted (R26). -/
theorem Block.TreeRegisters.rootValid_iff {b : Block p} (hr : b.TreeRegisters) :
    b.rootValid = true ↔ b.nleaf.toNat ≠ 0 := by
  constructor
  · intro h h0
    rw [(hr.empty h0).2.1] at h; cases h
  · exact fun h => (hr.full h).2.1

/-- The symbols of two leaves are in the order of the leaves (R38 item 4). -/
theorem Block.TreeShape.sym_lt {b : Block p} (hs : b.TreeShape) (i d : Nat) (h : i + d + 1 < b.nleaf.toNat) :
    (nodeOf b i).sym.toNat < (nodeOf b (i + d + 1)).sym.toNat := by
  induction d with
  | zero => exact hs.ascending i h
  | succ d ih =>
    have h1 := ih (by omega)
    have h2 := hs.ascending (i + d + 1) (by omega)
    rw [show i + (d + 1) + 1 = i + d + 1 + 1 by omega]
    omega

/-- The root is a leaf exactly when one symbol was counted (R102). -/
theorem Block.TreeShape.root_leaf_iff {b : Block p} (hr : b.TreeRegisters) (hs : b.TreeShape) (h : b.nleaf.toNat ≠ 0) :
    (nodeOf b b.root.toNat).isLeaf = true ↔ b.nleaf.toNat = 1 := by
  have hl := hr.root_last h
  have := (hr.full h).1
  rw [show nodeOf b b.root.toNat = nodeRead b.node b.root.toNat from rfl,
    (hs.isTree hr).leaf_iff (by omega)]
  omega

/-- Every path from the root to a leaf leads to a counted symbol (R108 (a)). -/
theorem Block.TreeShape.path_counted {b : Block p} (hr : b.TreeRegisters) (hs : b.TreeShape) (h : b.nleaf.toNat ≠ 0)
    {l : List Bool} {x : BitVec p.symW} (hx : leafAt b.node b.root l = some x) : freqAt b x.toNat ≠ 0 := by
  obtain ⟨j, hj, rfl⟩ := (hs.isTree hr).leafAt_leaf l (by have := hr.root_last h; omega) hx
  exact (hs.leaf j hj).2.2.2.1

/-- A path from the root to a leaf is no longer than one less than the number of leaves (R109). -/
theorem Block.TreeShape.path_length {b : Block p} (hr : b.TreeRegisters) (hs : b.TreeShape) (h : b.nleaf.toNat ≠ 0)
    {l : List Bool} {x : BitVec p.symW} (hx : leafAt b.node b.root l = some x) : l.length ≤ b.nleaf.toNat - 1 := by
  have hl := hr.root_last h
  have := (hs.isTree hr).leafAt_length l (by omega) hx
  have := (hr.full h).1
  omega

/-- Every counted symbol has a path from the root (R108 (a)). -/
theorem Block.TreeShape.path_exists {b : Block p} (hr : b.TreeRegisters) (hs : b.TreeShape) {s : Nat} (hlt : s < p.nsym)
    (hne : freqAt b s ≠ 0) : ∃ l x, leafAt b.node b.root l = some x ∧ x.toNat = s := by
  obtain ⟨j, hj, hjs⟩ := hs.keys s hlt hne
  have hl := hr.root_last (by omega)
  obtain ⟨l, hx⟩ := (hs.isTree hr).leaf_path hs.hasParents hl.1 hj hl.2
  exact ⟨l, _, hx, hjs⟩

/-- No path from the root to a leaf is the beginning of another (R108 (c)). -/
theorem leafAt_noPrefix {m : Memory (NodeWord p)} {i : BitVec p.idxW} {l l' : List Bool} {x y : BitVec p.symW}
    (h : leafAt m i l = some x) (h' : leafAt m i l' = some y) (hpre : l <+: l') : x = y := by
  obtain ⟨r, rfl⟩ := hpre
  exact (leafAt_append h h').2

theorem CodeWord.zero_len : (CodeWord.zero p).len = 0 := rfl

/-- What `TBL` leaves of the tree of R38: it ends, and its table is that of R38 item 6 (R106, R108). -/
theorem codeTable_ok {b : Block p} (hr : b.TreeRegisters) (hs : b.TreeShape) :
    ∃ code, codeTable b = .ok code ∧ Memory.wf (CodeWord.zero p) code ∧ Memory.below p.nsym code ∧
      Block.TableOk { b with code := code, phase := .table } := by
  unfold codeTable
  have hnil : Memory.below p.nsym ([] : Memory (CodeWord p)) := by intro c hc; simp at hc
  by_cases h0 : b.nleaf.toNat = 0
  · rw [if_neg (by rw [(hr.empty h0).2.1]; simp)]
    have hz : ∀ s, s < p.nsym → freqAt b s = 0 := fun s hlt => by
      by_contra hne
      obtain ⟨i, hi, _⟩ := hs.keys s hlt hne
      omega
    refine ⟨[], rfl, Memory.wf_nil _, hnil, ?_, fun _ _ _ => rfl, ?_, ?_⟩
    · intro s hlt
      exact ⟨fun h => absurd rfl h, fun h => absurd (hz s hlt) h⟩
    · intro s _ h; exact absurd rfl h
    · intro s t _ _ _ h; exact absurd rfl h
  · have hl := hr.root_last h0
    have ht := hs.isTree hr
    have hrange := ht.range
    rw [if_pos (hr.rootValid_iff.2 h0), nodeAt_ok (by omega)]
    simp only
    have hroot := hs.root_leaf_iff hr h0
    by_cases hleaf : (nodeRead b.node b.root.toNat).isLeaf = true
    · rw [if_pos hleaf]
      have h1 := hroot.1 hleaf
      have hx : leafAt b.node b.root [] = some (nodeRead b.node b.root.toNat).sym := by
        rw [leafAt_nil, if_pos hleaf]
      have hcounted := hs.path_counted hr h0 hx
      generalize hw : (nodeRead b.node b.root.toNat).sym = x at *
      have only : ∀ s, s < p.nsym → freqAt b s ≠ 0 → s = x.toNat := fun s hlt hne => by
        obtain ⟨j, hj, hjs⟩ := hs.keys s hlt hne
        have : j = b.root.toNat := by have := (hr.full h0).1; omega
        rw [← hjs, this, ← hw]; rfl
      have hread : ∀ s, Memory.read (CodeWord.zero p) (codeWrite ([] : Memory (CodeWord p)) x.toNat ⟨1, 0⟩) s =
          if s = x.toNat then ⟨1, 0⟩ else CodeWord.zero p := fun s => by
        unfold codeWrite; rw [Memory.read_write, Memory.read_nil]
      have hone : (1 : BitVec p.lenW) ≠ 0 := by
        intro h
        have := congrArg BitVec.toNat h
        have hp : 1 < 2 ^ p.lenW := by have := p.nsym_ge; show 1 < p.nsym; omega
        simp [Nat.mod_eq_of_lt hp] at this
      have hbits : (⟨1, 0⟩ : CodeWord p).toBits = [false] := by
        have hp : 1 < 2 ^ p.lenW := by have := p.nsym_ge; show 1 < p.nsym; omega
        have h1' : (1 : BitVec p.lenW).toNat = 1 := by simp [Nat.mod_eq_of_lt hp]
        unfold CodeWord.toBits
        rw [h1']
        simp
      have hlen : ∀ s, (Memory.read (CodeWord.zero p) (codeWrite ([] : Memory (CodeWord p)) x.toNat ⟨1, 0⟩) s).len ≠ 0 →
          s = x.toNat := fun s h => by
        rw [hread] at h
        by_contra hne
        rw [if_neg hne] at h
        exact h rfl
      refine ⟨_, rfl, Memory.wf_write _ _ _ _ (Memory.wf_nil _), Memory.below_write _ _ _ _ _ hnil x.isLt, ?_, ?_, ?_, ?_⟩
      · intro s hlt
        constructor
        · intro h
          have := hlen s h
          rw [this]; exact hcounted
        · intro h
          show (Memory.read (CodeWord.zero p) (codeWrite ([] : Memory (CodeWord p)) x.toNat ⟨1, 0⟩) s).len ≠ 0
          rw [hread, if_pos (only s hlt h)]
          exact hone
      · intro s _ h0
        have h0' : (Memory.read (CodeWord.zero p) (codeWrite ([] : Memory (CodeWord p)) x.toNat ⟨1, 0⟩) s).len = 0 := h0
        show Memory.read (CodeWord.zero p) (codeWrite ([] : Memory (CodeWord p)) x.toNat ⟨1, 0⟩) s = _
        rw [hread] at h0' ⊢
        split at h0'
        · exact absurd h0' hone
        · next hne => rw [if_neg hne]
      · intro s hlt h
        have hsx := hlen s h
        have hcode : Memory.read (CodeWord.zero p) (codeWrite ([] : Memory (CodeWord p)) x.toNat ⟨1, 0⟩) s = ⟨1, 0⟩ := by
          rw [hread, if_pos hsx]
        refine ⟨fun hn => ?_, fun _ => ⟨?_, ?_⟩, fun i _ => ?_⟩
        · exact absurd (show (nodeRead b.node b.root.toNat).isLeaf = false from hn) (by rw [hleaf]; simp)
        · show (Memory.read (CodeWord.zero p) (codeWrite ([] : Memory (CodeWord p)) x.toNat ⟨1, 0⟩) s).toBits = _
          rw [hcode]; exact hbits
        · show (nodeRead b.node b.root.toNat).sym.toNat = s
          rw [hw, hsx]
        · show (Memory.read (CodeWord.zero p) (codeWrite ([] : Memory (CodeWord p)) x.toNat ⟨1, 0⟩) s).bits.getLsbD i = _
          rw [hcode]; simp
      · intro s t _ _ hne h1' h2'
        exact absurd ((hlen s h1').trans (hlen t h2').symm) hne
    · rw [if_neg hleaf]
      have hk := hr.nleaf ▸ keyCount_le b
      have hmax := p.maxLen_eq
      have hfull := hr.full h0
      have hpos := p.nsym_pos
      obtain ⟨code, hok, hspec, hwf, hbelow⟩ := ht.walk_spec (p.maxLen + 1) b.root 0 0 [] (by omega) (by omega)
      have hcode : ∀ s, (Memory.read (CodeWord.zero p) code s).len ≠ 0 →
          ∃ l x, leafAt b.node b.root l = some x ∧ x.toNat = s ∧
            Memory.read (CodeWord.zero p) code s = ⟨BitVec.ofNat p.lenW l.length, appendBits 0 0 l⟩ := fun s h => by
        rcases hspec s with ⟨l, x, hx, hxs, hread⟩ | ⟨_, hread⟩
        · exact ⟨l, x, hx, hxs, by rw [hread, Nat.zero_add]⟩
        · rw [hread] at h; exact absurd rfl h
      have hlenle : ∀ l x, leafAt b.node b.root l = some x → l.length ≤ p.maxLen := fun l x hx => by
        have := hs.path_length hr h0 hx
        omega
      have hpath : ∀ l x, leafAt b.node b.root l = some x → (BitVec.ofNat p.lenW l.length).toNat ≠ 0 := fun l x hx hz => by
        have hle := hlenle l x hx
        rw [BitVec.toNat_ofNat, Nat.mod_eq_of_lt (by show _ < p.nsym; omega)] at hz
        rw [List.length_eq_zero_iff.1 hz, leafAt_nil, if_neg hleaf] at hx
        cases hx
      refine ⟨code, hok, hwf (Memory.wf_nil _), hbelow hnil, ?_, fun s _ hz => ?_, ?_, ?_⟩
      · intro s hlt
        constructor
        · intro h
          obtain ⟨l, x, hx, rfl, _⟩ := hcode s h
          exact hs.path_counted hr h0 hx
        · intro h
          obtain ⟨l₀, x₀, hx₀, hxs₀⟩ := hs.path_exists hr hlt h
          rcases hspec s with ⟨l, x, hx, hxs, hread⟩ | ⟨hno, _⟩
          · show (Memory.read (CodeWord.zero p) code s).len ≠ 0
            rw [hread, Nat.zero_add]
            exact fun hz => hpath l x hx (congrArg BitVec.toNat hz)
          · exact absurd hxs₀ (hno l₀ x₀ hx₀)
      · rcases hspec s with ⟨l, x, hx, _, hread⟩ | ⟨_, hread⟩
        · have hz' : (Memory.read (CodeWord.zero p) code s).len = 0 := hz
          rw [hread, Nat.zero_add] at hz'
          exact absurd (congrArg BitVec.toNat hz') (hpath l x hx)
        · exact hread
      · intro s hlt h
        obtain ⟨l, x, hx, hxs, hread⟩ := hcode s h
        have hb : (Memory.read (CodeWord.zero p) code s).toBits = l := by
          rw [hread]; exact toBits_appendBits l (hlenle l x hx)
        refine ⟨fun _ => ?_, fun hn => absurd hn hleaf, fun i hi => ?_⟩
        · show (leafAt b.node b.root (Memory.read (CodeWord.zero p) code s).toBits).map _ = some s
          rw [hb, hx]; simp [hxs]
        · have hlen : (Memory.read (CodeWord.zero p) code s).len.toNat = l.length := by
            rw [← CodeWord.length_toBits, hb]
          have hi' : (Memory.read (CodeWord.zero p) code s).len.toNat ≤ i := hi
          show (Memory.read (CodeWord.zero p) code s).bits.getLsbD i = false
          rw [hread]
          exact appendBits_high l i (by omega)
      · intro s t _ _ hne h1 h2 hpre
        obtain ⟨l, x, hx, hxs, hread⟩ := hcode s h1
        obtain ⟨l', x', hx', hxs', hread'⟩ := hcode t h2
        have hb : (Memory.read (CodeWord.zero p) code s).toBits = l := by
          rw [hread]; exact toBits_appendBits l (hlenle l x hx)
        have hb' : (Memory.read (CodeWord.zero p) code t).toBits = l' := by
          rw [hread']; exact toBits_appendBits l' (hlenle l' x' hx')
        have hpre' : l <+: l' := by rw [← hb, ← hb']; exact hpre
        have := leafAt_noPrefix hx hx' hpre'
        exact hne (by rw [← hxs, ← hxs', this])

end Sys2Proof.Machine
end

