-- ==== Sys2Proof/Laws/Invariant.lean ====
section
/-! SUPPORT. Each command's body, and raising an error, keep the invariant of 10_state R38; and in a state where it holds no
body stops. -/

namespace Sys2Proof.Machine

open Sys2Proof (Params Symbol)

variable {p : Params}

/-- What raising an error does to the flags never takes one away (R29). -/
theorem ErrFlags.raised_mono (f : ErrFlags) (e : Err) :
    (f.ovf = true → (f.raised e).ovf = true) ∧ (f.nosym = true → (f.raised e).nosym = true) := by
  cases e <;> exact ⟨fun h => by first | exact h | rfl, fun h => by first | exact h | rfl⟩

/-- The invariant speaks of the flags in one clause only, so raising an error keeps it (R141). -/
theorem Block.Inv.afterRaise {b : Block p} (h : b.Inv) (e : Err) : (raise e b).1.Inv := by
  have hm := ErrFlags.raised_mono b.err e
  refine ⟨⟨h.memory.freq, h.memory.freqBelow, h.memory.node, h.memory.nodeBelow, h.memory.code, h.memory.codeBelow⟩,
    fun hp => ?_, fun hp => ?_, fun hp => ?_, fun hp => ?_, h.noTable, fun hp => ?_, fun hh => ?_⟩
  · have := h.counting hp
    exact ⟨this.nleaf, this.nnode, this.root, this.rootValid, this.cur, this.node, this.code⟩
  · have := h.registers hp
    exact ⟨this.nleaf, this.empty, this.full⟩
  · have := h.shape hp
    exact ⟨this.leaf, this.ascending, this.keys, this.inner, this.parent, this.rest⟩
  · have := h.cursor hp
    exact ⟨this.inRange, this.place⟩
  · have := h.table hp
    exact ⟨this.keys, this.absent, fun s hs hc => ⟨(this.codes s hs hc).path, (this.codes s hs hc).fallback, (this.codes s hs hc).high⟩,
      this.noPrefix⟩
  · show (b.err.raised e).ovf = true ∨ (b.err.raised e).nosym = true
    by_cases hb : b.halt = true
    · exact (h.halted hb).imp hm.1 hm.2
    · have he : e.fatal = true := by simpa [hb] using hh
      cases e <;> simp_all [ErrFlags.raised, Err.fatal]

/-- Moving the cursor to a place the invariant allows keeps it. -/
theorem Block.Inv.moveTo {b : Block p} (h : b.Inv) (c : BitVec p.idxW) (hp : b.phase ≠ .count)
    (hr : c.toNat < max b.nnode.toNat 1)
    (hc : c = b.root ∨ (b.nleaf.toNat ≤ c.toNat ∧ (nodeOf b c.toNat).isLeaf = false)) :
    Block.Inv { b with cur := c } := by
  refine ⟨⟨h.memory.freq, h.memory.freqBelow, h.memory.node, h.memory.nodeBelow, h.memory.code, h.memory.codeBelow⟩,
    fun hp' => absurd hp' hp, fun hp => ?_, fun hp => ?_, fun hp => ⟨hr, hc⟩, h.noTable, fun hp => ?_, h.halted⟩
  · have := h.registers hp
    exact ⟨this.nleaf, this.empty, this.full⟩
  · have := h.shape hp
    exact ⟨this.leaf, this.ascending, this.keys, this.inner, this.parent, this.rest⟩
  · have := h.table hp
    exact ⟨this.keys, this.absent, fun s hs hc => ⟨(this.codes s hs hc).path, (this.codes s hs hc).fallback, (this.codes s hs hc).high⟩,
      this.noPrefix⟩

/-- Outside phase `COUNT` the root is a legal place for the cursor. -/
theorem Block.TreeRegisters.root_lt {b : Block p} (hr : b.TreeRegisters) : b.root.toNat < max b.nnode.toNat 1 := by
  by_cases h : b.nleaf.toNat = 0
  · have := (hr.empty h).2.2; omega
  · have := hr.root_last h; omega

/-- `CNT` in phase `COUNT` keeps the invariant. -/
theorem Block.Inv.cnt {b : Block p} (h : b.Inv) (hp : b.phase = .count) (sym : Symbol) (hs : sym.toNat < p.nsym) :
    (cntBody sym b).1.Inv := by
  rcases cntBody_cases sym b with ⟨_, hb⟩ | ⟨_, hb⟩ <;> rw [hb]
  · exact h.afterRaise _
  · have hn := h.counting hp
    refine ⟨⟨Memory.wf_write _ _ _ _ h.memory.freq, Memory.below_write _ _ _ _ _ h.memory.freqBelow hs, h.memory.node,
      h.memory.nodeBelow, h.memory.code, h.memory.codeBelow⟩, fun _ => ?_, fun hq => absurd hp hq, fun hq => absurd hp hq,
      fun hq => absurd hp hq, h.noTable, fun hq => ?_, h.halted⟩
    · exact ⟨hn.nleaf, hn.nnode, hn.root, hn.rootValid, hn.cur, hn.node, hn.code⟩
    · rw [show b.phase = .table from hq] at hp; cases hp

/-- `BLD` in phase `COUNT` keeps the invariant. -/
theorem Block.Inv.bld {b : Block p} (h : b.Inv) (hp : b.phase = .count) : (bldBody b).1.Inv := by
  have hn := h.counting hp
  have hf := bldBody_frame b
  have hreg := bldBody_registers b
  have hshape := bldBody_shape b hn.node
  have hmem : Memory.wf (NodeWord.zero p) (bldBody b).1.node ∧ Memory.below p.maxNode (bldBody b).1.node := by
    by_cases h0 : keyCount b = 0
    · have := bldBody_empty b h0
      exact ⟨this.2.2.2.2.2.1 h.memory.node, this.2.2.2.2.2.2 h.memory.nodeBelow⟩
    · have := bldBody_tree b h0
      exact ⟨this.wf h.memory.node, this.below h.memory.nodeBelow⟩
  have hcode : ∀ s, codeAt (bldBody b).1 s = CodeWord.zero p := fun s => by
    have := hn.code s
    unfold codeAt at *; rw [hf.code]; exact this
  refine ⟨⟨?_, ?_, hmem.1, hmem.2, ?_, ?_⟩, fun hq => ?_, fun _ => hreg, fun _ => hshape, fun _ => ⟨?_, .inl hf.cur⟩,
    fun _ => hcode, fun hq => ?_, fun hh => ?_⟩
  · rw [hf.freq]; exact h.memory.freq
  · rw [hf.freq]; exact h.memory.freqBelow
  · rw [hf.code]; exact h.memory.code
  · rw [hf.code]; exact h.memory.codeBelow
  · rw [hf.phase] at hq; cases hq
  · rw [hf.cur]; exact hreg.root_lt
  · rw [hf.phase] at hq; cases hq
  · rw [hf.err]; rw [hf.halt] at hh; exact h.halted hh

/-- `TBL` in phase `TREE` completes and keeps the invariant. -/
theorem Block.Inv.tbl {b : Block p} (h : b.Inv) (hp : b.phase = .tree) :
    ∃ code, tblBody b = .ok ({ b with code := code, phase := .table }, Rsp.plain) ∧
      Block.Inv { b with code := code, phase := .table } := by
  have hne : b.phase ≠ .count := by rw [hp]; simp
  have hr := h.registers hne
  have hs := h.shape hne
  have hc := h.cursor hne
  obtain ⟨code, hok, hwf, hbelow, htab⟩ := codeTable_ok hr hs
  refine ⟨code, tblBody_of_ok hok, ⟨h.memory.freq, h.memory.freqBelow, h.memory.node, h.memory.nodeBelow, hwf, hbelow⟩,
    fun hq => (by cases hq), fun _ => ⟨hr.nleaf, hr.empty, hr.full⟩,
    fun _ => ⟨hs.leaf, hs.ascending, hs.keys, hs.inner, hs.parent, hs.rest⟩, fun _ => ⟨hc.inRange, hc.place⟩,
    fun hq => absurd rfl hq, fun _ => htab, h.halted⟩

/-- `ENC` keeps the invariant. -/
theorem Block.Inv.enc {b : Block p} (h : b.Inv) (sym : Symbol) : (encBody sym b).1.Inv := by
  rcases encBody_cases sym b with ⟨_, hb⟩ | ⟨_, hb⟩ <;> rw [hb]
  · exact h.afterRaise _
  · exact h

/-- `END` outside phase `COUNT` keeps the invariant. -/
theorem Block.Inv.endStream {b : Block p} (h : b.Inv) (hp : b.phase ≠ .count) : (endBody b).1.Inv := by
  rcases endBody_cases b with ⟨_, hb⟩ | ⟨_, hb⟩ <;> rw [hb]
  · exact (h.moveTo b.root hp (h.registers hp).root_lt (.inl rfl)).afterRaise _
  · exact h

/-- In a tree with an internal root the cursor is an internal node, and its children are nodes of the tree (R38). -/
theorem Block.Inv.cursor_inner {b : Block p} (h : b.Inv) (hp : b.phase ≠ .count) (hv : b.rootValid = true)
    (hl : (nodeRead b.node b.root.toNat).isLeaf = false) :
    b.root.toNat < p.maxNode ∧ b.cur.toNat < p.maxNode ∧ (nodeRead b.node b.cur.toNat).isLeaf = false ∧
      b.nleaf.toNat ≤ b.cur.toNat ∧ b.cur.toNat < b.nnode.toNat ∧
      ∀ bit, ((nodeRead b.node b.cur.toNat).child bit).toNat < b.nnode.toNat ∧
        ((nodeRead b.node b.cur.toNat).child bit).toNat < p.maxNode := by
  have hr := h.registers hp
  have hs := h.shape hp
  have hc := h.cursor hp
  have ht := hs.isTree hr
  have h0 := hr.rootValid_iff.1 hv
  have hroot := hr.root_last h0
  have hrange := ht.range
  have hrl : ¬ b.root.toNat < b.nleaf.toNat := fun hlt => by rw [ht.leaf _ hlt] at hl; cases hl
  have hcur : b.nleaf.toNat ≤ b.cur.toNat := by
    rcases hc.place with he | ⟨h1, _⟩
    · rw [he]; omega
    · exact h1
  have hlt := hc.inRange
  have hlt' : b.cur.toNat < b.nnode.toNat := by omega
  refine ⟨by omega, by omega, (ht.inner _ hcur hlt').1, hcur, hlt', fun bit => ?_⟩
  have := ht.child_lt hcur hlt' bit
  omega

/-- `DEC` outside phase `COUNT` completes and keeps the invariant. -/
theorem Block.Inv.dec {b : Block p} (h : b.Inv) (hp : b.phase ≠ .count) (bit : Bool) :
    ∃ a, decBody bit b = .ok a ∧ a.1.Inv := by
  by_cases hv : b.rootValid = true
  · have hr := h.registers hp
    have hs := h.shape hp
    have ht := hs.isTree hr
    have hrange := ht.range
    have hroot := hr.root_last (hr.rootValid_iff.1 hv)
    by_cases hl : (nodeRead b.node b.root.toNat).isLeaf = true
    · exact ⟨_, decBody_single hv (by omega) hl, h⟩
    · have hl' : (nodeRead b.node b.root.toNat).isLeaf = false := by simpa using hl
      obtain ⟨h1, h2, h3, _, _, h4⟩ := h.cursor_inner hp hv hl'
      refine ⟨_, decBody_move hv h1 hl' h2 h3 (h4 bit).2, ?_⟩
      split
      · exact h.moveTo _ hp hr.root_lt (.inl rfl)
      · next hn =>
        refine h.moveTo _ hp (by have := (h4 bit).1; omega) (.inr ⟨?_, eq_false_of_ne_true hn⟩)
        by_contra hlt
        exact hn (ht.leaf _ (by omega))
  · refine ⟨raise Err.malformedDecodeInput b, ?_, h.afterRaise _⟩
    unfold decBody
    rw [if_neg hv]

end Sys2Proof.Machine
end

