-- ==== Sys2Proof/Laws/PerInstr.lean ====
section
/-! SUPPORT. Per-command facts about the command as syntax: the fields of the word that spells it (R71, R73). -/

namespace Sys2Proof.Laws.Fields

open Sys2Proof (Instr Symbol encode opField rzField argField)

/-- The column "op" of the command table (R73). -/
def opcode : Instr → BitVec 4
  | .nop => 0x0
  | .clr => 0x1
  | .cnt _ => 0x2
  | .bld => 0x3
  | .tbl => 0x4
  | .enc _ => 0x5
  | .dec _ => 0x6
  | .endStream => 0x7

/-- The operand of a command as a number; a command without one has 0 (R72). -/
def operand : Instr → Nat
  | .nop => 0
  | .clr => 0
  | .cnt sym => sym.toNat
  | .bld => 0
  | .tbl => 0
  | .enc sym => sym.toNat
  | .dec bit => bit.toNat
  | .endStream => 0

/-- The word of a command has the command's opcode, a zero reserved field and the command's operand (R71). -/
def Statement (i : Instr) : Prop :=
  opField (encode i) = opcode i ∧ rzField (encode i) = 0 ∧ (argField (encode i)).toNat = operand i

theorem nop : Statement .nop := by simp [Statement, encode, opcode, operand]

theorem clr : Statement .clr := by simp [Statement, encode, opcode, operand]

theorem cnt (sym : Symbol) : Statement (.cnt sym) := by
  simp [Statement, encode, opcode, operand, -BitVec.toNat_setWidth, symbol_setWidth_toNat]

theorem bld : Statement .bld := by simp [Statement, encode, opcode, operand]

theorem tbl : Statement .tbl := by simp [Statement, encode, opcode, operand]

theorem enc (sym : Symbol) : Statement (.enc sym) := by
  simp [Statement, encode, opcode, operand, -BitVec.toNat_setWidth, symbol_setWidth_toNat]

theorem dec (bit : Bool) : Statement (.dec bit) := by cases bit <;> simp [Statement, encode, opcode, operand]

theorem endStream : Statement .endStream := by simp [Statement, encode, opcode, operand]

end Sys2Proof.Laws.Fields
end

