-- ==== Sys2Proof/Laws/Run.lean ====
section
/-! SUPPORT. Runs: one step at a time, and a list of commands presented to an idle machine (00_scope R9, R10). -/

namespace Sys2Proof.Machine

open Sys2Proof (Instr Symbol decode encode)

@[simp] theorem run_zero (s : State) : run 0 s = .next s := rfl

/-- One step, then the rest of the run. -/
theorem run_eq (n : Nat) (s : State) : run (n + 1) s =
    match step s with
    | .next t => run n t
    | .fault f => .fault f
    | .refused r => .refused r := rfl

/-- A run goes on from the state its first step answers. -/
theorem run_succ {s t : State} (n : Nat) (h : step s = .next t) : run (n + 1) s = run n t := by
  rw [run_eq, h]

/-- Runs follow one another. -/
theorem run_add {m : Nat} (n : Nat) : ∀ {s t : State}, run m s = .next t → run (m + n) s = run n t := by
  induction m with
  | zero => intro s t h; rw [run_zero] at h; injection h with h; rw [h, Nat.zero_add]
  | succ m ih =>
    intro s t h
    rw [run_eq] at h
    rw [show m + 1 + n = m + n + 1 by omega, run_eq]
    cases hs : step s with
    | next u => rw [hs] at h; exact ih h
    | fault f => rw [hs] at h; cases h
    | refused r => rw [hs] at h; cases h

@[simp] theorem State.present_nil (s : State) : s.present [] = s := by
  unfold State.present; simp

@[simp] theorem State.present_params (s : State) (l : List Instr) : (s.present l).params = s.params := rfl
@[simp] theorem State.present_blk (s : State) (l : List Instr) : (s.present l).blk = s.blk := rfl
@[simp] theorem State.present_rsps (s : State) (l : List Instr) : (s.present l).rsps = s.rsps := rfl

/-- An idle machine that is presented commands runs the first one, and is presented the others afterwards. -/
theorem run_present {s : State} {i : Instr} {a : Block s.params × Rsp} (l : List Instr) (n : Nat) (hs : s.inbox = [])
    (hd : decode s.params (encode i) = .ok i) (h : Answers i s.blk a) :
    run (n + 1) (s.present (i :: l)) = run n ((s.answer a).present l) := by
  apply run_succ
  have hi : (s.present (i :: l)).inbox = .cmd (encode i) :: l.map (fun i => HostEvent.cmd (encode i)) := by
    unfold State.present; simp [hs]
  rw [step_cmd hi hd]
  refine exec_block.2 ⟨a, h, ?_⟩
  unfold State.present State.answer State.withInbox
  simp [hs]

/-- What an idle machine answers to a command leaves it idle. -/
theorem State.answer_idle {s : State} (a : Block s.params × Rsp) (hs : s.inbox = []) : (s.answer a).inbox = [] := hs

end Sys2Proof.Machine
end

