-- ==== Sys2Proof/Machine/CommandText.lean ====
section
/-! DEFINITION. The textual form of a command stream: one command a line, and the pseudo-commands, which expand to commands
(30_encoding R78, R79). It is how the host writes a stream down; the block never sees it. -/

namespace Sys2Proof.Machine

open Sys2Proof (Instr Symbol)

/-! ## Pseudo-commands (R79) -/

/-- `COUNTS "text"`. -/
def counts (l : List Symbol) : List Instr := l.map .cnt

/-- `ENCS "text"`. -/
def encs (l : List Symbol) : List Instr := l.map .enc

/-- `DECS "bits"`. -/
def decs (l : List Bool) : List Instr := l.map .dec

/-- `PIPE "text"`: count, build the tree and the table, encode. -/
def pipe (l : List Symbol) : List Instr := counts l ++ [.bld, .tbl] ++ encs l

/-! ## The words of a line (R78) -/

/-- A piece of a line: a mnemonic or a number, a character in apostrophes, a text in quotation marks. -/
inductive Token where
  | word (l : List Char)
  | char (c : Char)
  | text (l : List Char)
  deriving DecidableEq, Repr

/-- Where in a line the reader stands; characters read so far stand in reverse. -/
inductive Lex where
  | blank
  | inWord (rev : List Char)
  | openApostrophe
  | afterChar (c : Char)
  | inText (rev : List Char)
  | comment
  | wrong
  deriving DecidableEq, Repr

/-- One more character; the tokens found so far stand in reverse. -/
def lexStep (s : Lex × List Token) (c : Char) : Lex × List Token :=
  match s.1 with
  | .blank =>
    if c = ' ' then s
    else if c = ';' then (.comment, s.2)
    else if c = '\'' then (.openApostrophe, s.2)
    else if c = '"' then (.inText [], s.2)
    else (.inWord [c], s.2)
  | .inWord rev =>
    if c = ' ' then (.blank, .word rev.reverse :: s.2)
    else if c = ';' then (.comment, .word rev.reverse :: s.2)
    else (.inWord (c :: rev), s.2)
  | .openApostrophe => (.afterChar c, s.2)
  | .afterChar d => if c = '\'' then (.blank, .char d :: s.2) else (.wrong, s.2)
  | .inText rev => if c = '"' then (.blank, .text rev.reverse :: s.2) else (.inText (c :: rev), s.2)
  | .comment => s
  | .wrong => s

/-- The tokens of a line; a `;` starts a comment (R78). DESIGN CHOICE (log entry 9): only the space character separates, and in
quotes an apostrophe or a semicolon is a plain character. -/
def tokens (line : List Char) : Option (List Token) :=
  match line.foldl lexStep (.blank, []) with
  | (.blank, ts) => some ts.reverse
  | (.comment, ts) => some ts.reverse
  | (.inWord rev, ts) => some (Token.word rev.reverse :: ts).reverse
  | (.openApostrophe, _) => none
  | (.afterChar _, _) => none
  | (.inText _, _) => none
  | (.wrong, _) => none

/-! ## Operands (R78) -/

/-- The value of a digit. DESIGN CHOICE (log entry 9): hexadecimal digits in either case. -/
def digit (c : Char) : Option Nat :=
  let n := c.toNat
  if 48 ≤ n ∧ n ≤ 57 then some (n - 48)
  else if 65 ≤ n ∧ n ≤ 70 then some (n - 55)
  else if 97 ≤ n ∧ n ≤ 102 then some (n - 87)
  else none

/-- A number in a base, most significant digit first. -/
def digits (base : Nat) (acc : Nat) : List Char → Option Nat
  | [] => some acc
  | c :: rest =>
    match digit c with
    | none => none
    | some d => if d < base then digits base (acc * base + d) rest else none

/-- A number, decimal or after `0x` hexadecimal (R78). DESIGN CHOICE (log entry 9): zeros may lead, and `0X` is no prefix. -/
def number : List Char → Option Nat
  | [] => none
  | '0' :: 'x' :: c :: rest => digits 16 0 (c :: rest)
  | c :: rest => digits 10 0 (c :: rest)

/-- A single printable ASCII character. -/
def printable (c : Char) : Bool := decide (32 ≤ c.toNat ∧ c.toNat ≤ 126)

/-- A symbol operand: a number or a character in apostrophes (R78). DESIGN CHOICE (log entry 9): R78 says only "a number", so
the reader takes every number that a 16-bit symbol holds, 0 to 65535, whatever `SYM_W` is (at `SYM_W = 8` a number from 256 on
spells a word that R74 calls illegal), and refuses a line with a larger number. -/
def symbolOperand : Token → Option Symbol
  | .word l =>
    match number l with
    | some n => if n < 65536 then some (BitVec.ofNat 16 n) else none
    | none => none
  | .char c => if printable c then some (BitVec.ofNat 16 c.toNat) else none
  | .text _ => none

/-- A bit: `0` or `1`. -/
def bitChar (c : Char) : Option Bool :=
  if c = '0' then some false else if c = '1' then some true else none

/-- The symbol of a character of a text: its code point, for an ASCII character; no other character is a symbol (R4,
R79). -/
def asciiSymbol (c : Char) : Option Symbol :=
  if c.toNat < 128 then some (BitVec.ofNat 16 c.toNat) else none

/-- The symbols of a text: each character is one, and all are ASCII (R79). -/
def textSymbols (l : List Char) : Option (List Symbol) := l.mapM asciiSymbol

/-- The bits of a text of `0` and `1` (R79). -/
def textBits (l : List Char) : Option (List Bool) := l.mapM bitChar

/-! ## Lines -/

/-- The commands a line stands for (R78, R79). DESIGN CHOICE (log entry 9): an empty line, or a comment alone, stands for
none. -/
def parseLine (line : List Char) : Option (List Instr) :=
  match tokens line with
  | none => none
  | some [] => some []
  | some [.word ['N', 'O', 'P']] => some [.nop]
  | some [.word ['C', 'L', 'R']] => some [.clr]
  | some [.word ['B', 'L', 'D']] => some [.bld]
  | some [.word ['T', 'B', 'L']] => some [.tbl]
  | some [.word ['E', 'N', 'D']] => some [.endStream]
  | some [.word ['C', 'N', 'T'], t] => (symbolOperand t).map fun sym => [.cnt sym]
  | some [.word ['E', 'N', 'C'], t] => (symbolOperand t).map fun sym => [.enc sym]
  | some [.word ['D', 'E', 'C'], .word [c]] => (bitChar c).map fun bit => [.dec bit]
  | some [.word ['C', 'O', 'U', 'N', 'T', 'S'], .text l] => (textSymbols l).map counts
  | some [.word ['E', 'N', 'C', 'S'], .text l] => (textSymbols l).map encs
  | some [.word ['D', 'E', 'C', 'S'], .text l] => (textBits l).map decs
  | some [.word ['P', 'I', 'P', 'E'], .text l] => (textSymbols l).map pipe
  | some _ => none

end Sys2Proof.Machine
end

