-- ==== Sys2Proof/Tests/Slice0.lean ====
section
/-! SUPPORT. The model's own tests. Expected results come from spec/95_test_vectors.md (V-..., P...) and the worked words of
30_encoding; every obligation with hypotheses has a witness that meets them. -/

open Sys2Proof Sys2Proof.Machine

namespace Sys2Proof.Tests

/-- `SYM_W = 16`, `CNT_W = 32` (P6). -/
def wide : Params := ⟨.w16, 32, by decide, by decide⟩

/-- `SYM_W = 8`, `CNT_W = 2`, so `CNT_MAX = 3` (V-CNT-4). -/
def narrow : Params := ⟨.w8, 2, by decide, by decide⟩

/-- An idle machine at the defaults with a given block. -/
def machine (b : Block Params.standard) : State := ⟨Params.standard, b, [], [], []⟩

/-- The state an outcome answers, if it answers one. -/
def after : Host.Outcome State Fault Refusal → Option State
  | .next t => some t
  | .fault _ => none
  | .refused _ => none

/-- The error of the one response an outcome adds to a machine that had none. -/
def lastErr (o : Host.Outcome State Fault Refusal) : Option (List (Option Err)) :=
  (after o).map fun t => t.rsps.map fun r => r.err

/-- A number read from the block an outcome leaves. -/
def look (f : (p : Params) → Block p → Nat) (o : Host.Outcome State Fault Refusal) : Option Nat :=
  (after o).map fun t => f t.params t.blk

def statusOf (p : Params) (b : Block p) : Nat := (statusWord b).toNat

def curOf (p : Params) (b : Block p) : Nat := b.cur.toNat

/-! ## Well-formedness -/

theorem test_wf_cnt : Instr.wf Params.standard (.cnt 0x100) = false ∧ Instr.wf Params.standard (.cnt 0xFF) = true := by
  decide

theorem test_wf_enc : Instr.wf Params.standard (.enc 0x100) = false ∧ Instr.wf wide (.enc 0x100) = true := by decide

/-! ## Words written out from the fields of R71: op, rz, arg -/

theorem test_decode_nop : decode Params.standard 0b0000_0000_000000000000000000000000 = .ok .nop := by decide
theorem test_decode_clr : decode Params.standard 0b0001_0000_000000000000000000000000 = .ok .clr := by decide
theorem test_decode_cnt : decode Params.standard 0b0010_0000_000000000000000001100001 = .ok (.cnt 0x61) := by decide
theorem test_decode_bld : decode Params.standard 0b0011_0000_000000000000000000000000 = .ok .bld := by decide
theorem test_decode_tbl : decode Params.standard 0b0100_0000_000000000000000000000000 = .ok .tbl := by decide
theorem test_decode_enc : decode Params.standard 0b0101_0000_000000000000000001110010 = .ok (.enc 0x72) := by decide
theorem test_decode_dec : decode Params.standard 0b0110_0000_000000000000000000000001 = .ok (.dec true) := by decide
theorem test_decode_end : decode Params.standard 0b0111_0000_000000000000000000000000 = .ok .endStream := by decide

/-- V-ENCODE-10 to 17. -/
theorem test_decode_illegal :
    decode Params.standard 0x80000000 = .error .reservedOp ∧ decode Params.standard 0xFFFFFFFF = .error .reservedField ∧
      decode Params.standard 0x21000061 = .error .reservedField ∧
      decode Params.standard 0x20000100 = .error .symbolOutOfRange ∧
      decode Params.standard 0x60000002 = .error .bitOutOfRange ∧ decode Params.standard 0x30000001 = .error .argNotZero ∧
      decode Params.standard 0x00000001 = .error .argNotZero ∧ decode Params.standard 0x10000001 = .error .argNotZero := by
  decide

/-- P6: the same word at the other symbol width. -/
theorem test_decode_wide : decode wide 0x20000100 = .ok (.cnt 0x100) ∧ decode wide 0x200003B1 = .ok (.cnt 0x3B1) := by decide

theorem test_decodeTableWord : decodeTableWord 32 0x20000061 = some (.cnt 0x61) ∧ decodeTableWord 32 0x80000000 = none := by
  decide

/-! ## Small blocks, written out from the vectors -/

/-- `ab` counted. -/
def abCount : Block Params.standard := { Block.reset Params.standard with freq := [(0x61, 1), (0x62, 1)] }

/-- V-BLD-3: the tree of `ab`. -/
def abTree : Block Params.standard :=
  { abCount with
    phase := .tree, nleaf := 2, nnode := 3, root := 2, rootValid := true, cur := 2,
    node := [(0, ⟨true, 0x61, 0, 0, 1⟩), (1, ⟨true, 0x62, 0, 0, 1⟩), (2, ⟨false, 0, 0, 1, 2⟩)] }

/-- V-TBL-3: the table of `ab`. -/
def abTable : Block Params.standard := { abTree with phase := .table, code := [(0x61, ⟨1, 0⟩), (0x62, ⟨1, 1⟩)] }

/-- `aaaa` counted. -/
def aCount : Block Params.standard := { Block.reset Params.standard with freq := [(0x61, 4)] }

/-- V-BLD-2: the tree of `aaaa`. -/
def aTree : Block Params.standard :=
  { aCount with
    phase := .tree, nleaf := 1, nnode := 1, root := 0, rootValid := true, cur := 0, node := [(0, ⟨true, 0x61, 0, 0, 4⟩)] }

/-- V-TBL-2: the table of `aaaa`. -/
def aTable : Block Params.standard := { aTree with phase := .table, code := [(0x61, ⟨1, 0⟩)] }

/-- V-BLD-6: the tree of `aabbcc`. -/
def abcTree : Block Params.standard :=
  { Block.reset Params.standard with
    freq := [(0x61, 2), (0x62, 2), (0x63, 2)], phase := .tree, nleaf := 3, nnode := 5, root := 4, rootValid := true, cur := 4,
    node := [(0, ⟨true, 0x61, 0, 0, 2⟩), (1, ⟨true, 0x62, 0, 0, 2⟩), (2, ⟨true, 0x63, 0, 0, 2⟩), (3, ⟨false, 0, 0, 1, 4⟩),
      (4, ⟨false, 0, 2, 3, 6⟩)] }

/-- Nothing counted, `BLD` done (V-BLD-1). -/
def noTree : Block Params.standard := { Block.reset Params.standard with phase := .tree }

/-- After V-ENC-6 on the table of `ab`: halted. -/
def haltedBlock : Block Params.standard := { abTable with halt := true, err := ⟨false, false, false, true, false⟩ }

/-- `FREQ['a']` at `CNT_MAX` (V-CNT-4). -/
def fullCount : State := ⟨narrow, { Block.reset narrow with freq := [(0x61, 3)] }, [], [], []⟩

/-- A machine that is presented one event. -/
def given (b : Block Params.standard) (e : HostEvent) : State := { machine b with inbox := [e] }

/-! ## One step of each command -/

/-- V-CTL-1. -/
theorem test_nop : after (exec .nop (machine abTree)) = some { machine abTree with rsps := [⟨none, false, 0, []⟩] } := by
  decide

/-- V-CTL-2. -/
theorem test_nop_halted : lastErr (exec .nop (machine haltedBlock)) = some [some .halted] ∧
    look statusOf (exec .nop (machine haltedBlock)) = some 0x8E := by decide

/-- V-CTL-5. -/
theorem test_clr_halted : after (exec .clr (machine haltedBlock)) = some { State.reset with
    rsps := [⟨none, false, 0, []⟩] } := by decide

/-- V-CNT-1. -/
theorem test_cnt : after (exec (.cnt 0x61) State.reset) = some { machine { Block.reset Params.standard with
    freq := [(0x61, 1)] } with rsps := [⟨none, false, 0, []⟩] } := by decide

/-- V-CNT-4: the count that would pass `CNT_MAX`. -/
theorem test_cnt_overflow : lastErr (exec (.cnt 0x61) fullCount) = some [some .countOverflow] ∧
    look statusOf (exec (.cnt 0x61) fullCount) = some 0x48 ∧
    look (fun _ b => (freqAt b 0x61).toNat) (exec (.cnt 0x61) fullCount) = some 3 := by decide

/-- V-BLD-3: a tie is broken by the index. -/
theorem test_bld_tie : bldBody abCount = (abTree, Rsp.plain) := by decide +kernel

/-- V-BLD-6: a leaf lighter than an internal node goes left. -/
theorem test_bld_three : bldBody { Block.reset Params.standard with freq := [(0x61, 2), (0x62, 2), (0x63, 2)] } =
    (abcTree, Rsp.plain) := by decide +kernel

/-- V-TBL-3: 0 to the left, 1 to the right. -/
theorem test_tbl : tblBody abTree = .ok (abTable, Rsp.plain) := by rfl

/-- V-TBL-2: the fallback code of a single leaf. -/
theorem test_tbl_single : tblBody aTree = .ok (aTable, Rsp.plain) := by rfl

/-- R106: `TBL` clears the whole word of a symbol without a code, also of bits that stood above its length. -/
theorem test_tbl_clears : (tblBody { abTree with code := [(0x63, ⟨0, 5⟩)] }).toOption.map (fun a => codeAt a.1 0x63) =
    some ⟨0, 0⟩ := by rfl

/-- V-TBL-5: the first bit of a code is bit 0 of the field. -/
theorem test_tbl_order : (codeTable abcTree).toOption.map (fun c => (c.map fun e => (e.1, CodeWord.toBits e.2))) =
    some [(0x61, [true, false]), (0x62, [true, true]), (0x63, [false])] := by rfl

/-- V-DEC-11 and V-ENC-2's order of bits. -/
theorem test_enc : after (exec (.enc 0x62) (machine abTable)) = some { machine abTable with
    rsps := [⟨none, false, 0, [true]⟩] } := by decide

/-- V-ENC-6 on the table of `ab` (P5 command 5). -/
theorem test_enc_absent : lastErr (exec (.enc 0x63) (machine abTable)) = some [some .symbolNotInTable] ∧
    look statusOf (exec (.enc 0x63) (machine abTable)) = some 0x8E := by decide

/-- A step to an internal node, as in V-DEC-2: no symbol, the cursor moves (tree of V-BLD-6). -/
theorem test_dec_inner : after (exec (.dec true) (machine abcTree)) = some { machine { abcTree with cur := 3 } with
    rsps := [⟨none, false, 0, []⟩] } := by decide

/-- V-DEC-6: with a single leaf the bit 1 emits too. -/
theorem test_dec_single : after (exec (.dec true) (machine aTree)) = some { machine aTree with
    rsps := [⟨none, true, 0x61, []⟩] } := by decide

/-- V-DEC-4: the stream stops in the middle of a code. -/
theorem test_end_middle : lastErr (exec .endStream (machine { abcTree with cur := 3 })) =
      some [some .malformedDecodeInput] ∧
    look curOf (exec .endStream (machine { abcTree with cur := 3 })) = some 4 ∧
    look statusOf (exec .endStream (machine { abcTree with cur := 3 })) = some 0x105 := by decide

/-- V-DEC-10. -/
theorem test_end_boundary : lastErr (exec .endStream (machine abcTree)) = some [none] ∧
    look statusOf (exec .endStream (machine abcTree)) = some 5 := by decide

/-- V-CTL-3: legality comes before halt. -/
theorem test_illegal_halted : lastErr (step (given haltedBlock (.cmd 0x80000000))) = some [some .illegal] ∧
    look statusOf (step (given haltedBlock (.cmd 0x80000000))) = some 0x9E := by decide

/-- V-CTL-4: halt comes before phase. -/
theorem test_halted_phase : lastErr (step (given haltedBlock (.cmd 0x20000061))) = some [some .halted] ∧
    look statusOf (step (given haltedBlock (.cmd 0x20000061))) = some 0x8E := by decide

/-- V-CTL-6: phase comes before the table look-up. -/
theorem test_seq : lastErr (step (given abTree (.cmd 0x5000007A))) = some [some .seq] ∧
    look statusOf (step (given abTree (.cmd 0x5000007A))) = some 0x25 := by decide

/-- The NODE words of V-BLD-3 and V-BLD-10 as bit patterns. -/
theorem test_pack_node : (⟨false, 0, 0, 1, 2⟩ : NodeWord Params.standard).pack = 0x00000010000000002 ∧
    (⟨true, 0x61, 0, 0, 5⟩ : NodeWord Params.standard).pack = 0x58400000000000005 := by decide

/-- The CODE word of V-TBL-9: `(3 << 255) | 0b011`. -/
theorem test_pack_code : (⟨3, 3⟩ : CodeWord Params.standard).pack.toNat = 3 * 2 ^ 255 + 3 := by decide

/-- The lines of P1, P2 and P5 in the text of R78 and R79, and one that is no command. -/
theorem test_text :
    parseLine ['C', 'N', 'T', ' ', '\'', 'a', '\''] = some [.cnt 0x61] ∧
      parseLine ['E', 'N', 'C', ' ', '0', 'x', '3', 'B', '1', ' ', ';', 'x'] = some [.enc 0x3B1] ∧
      parseLine ['D', 'E', 'C', 'S', ' ', '"', '0', '1', '"'] = some [.dec false, .dec true] ∧
      parseLine ['P', 'I', 'P', 'E', ' ', '"', 'b', 'a', '"'] =
        some [.cnt 0x62, .cnt 0x61, .bld, .tbl, .enc 0x62, .enc 0x61] ∧
      parseLine ['D', 'E', 'C', ' ', '2'] = none := by decide

/-- R4 and R79: the last ASCII character of a text is a symbol; one past it, and a character outside 16 bits, are none. -/
theorem test_text_ascii :
    textSymbols [Char.ofNat 0x7F] = some [0x7F] ∧ textSymbols ['a', Char.ofNat 0x80] = none ∧
      parseLine ['C', 'O', 'U', 'N', 'T', 'S', ' ', '"', Char.ofNat 0x1F600, '"'] = none := by decide

/-! ## States of the invariant -/

/-- A counting block meets the invariant when its counts are in canonical form. -/
theorem inv_counting (f : Memory (BitVec Params.standard.cntW)) (h : Memory.wf 0 f) (hb : Memory.below 256 f) :
    Block.Inv { Block.reset Params.standard with freq := f } := by
  have nb : ∀ {α : Type} (n : Nat), Memory.below n ([] : Memory α) := fun n c hc => by simp at hc
  exact ⟨⟨h, hb, Memory.wf_nil _, nb _, Memory.wf_nil _, nb _⟩,
    fun _ => ⟨rfl, rfl, rfl, rfl, rfl, fun _ => rfl, fun _ => rfl⟩, fun h => absurd rfl h, fun h => absurd rfl h,
    fun h => absurd rfl h, fun _ _ => rfl, fun (h : Phase.count = Phase.table) => (nomatch h),
    fun (h : false = true) => (nomatch h)⟩

theorem inv_abCount : abCount.Inv := inv_counting _ (by decide) (by decide)

theorem inv_aCount : aCount.Inv := inv_counting _ (by decide) (by decide)

theorem inv_abTree : abTree.Inv := by
  have h := inv_abCount.bld rfl
  rw [test_bld_tie] at h
  exact h

theorem test_bld_single : bldBody aCount = (aTree, Rsp.plain) := by decide +kernel

theorem inv_aTree : aTree.Inv := by
  have h := inv_aCount.bld rfl
  rw [test_bld_single] at h
  exact h

theorem inv_abcTree : abcTree.Inv := by
  have h := (inv_counting [(0x61, 2), (0x62, 2), (0x63, 2)] (by decide) (by decide)).bld rfl
  rw [test_bld_three] at h
  exact h

theorem inv_abTable : abTable.Inv := by
  obtain ⟨code, h1, h2⟩ := inv_abTree.tbl rfl
  rw [test_tbl] at h1
  injection h1 with h1
  have h3 := congrArg Prod.fst h1
  dsimp only at h3
  rw [← h3] at h2
  exact h2

theorem inv_aTable : aTable.Inv := by
  obtain ⟨code, h1, h2⟩ := inv_aTree.tbl rfl
  rw [test_tbl_single] at h1
  injection h1 with h1
  have h3 := congrArg Prod.fst h1
  dsimp only at h3
  rw [← h3] at h2
  exact h2

/-! ## A witness for the hypotheses of every obligation -/

/-- A state with two flags up, not halted: the flags of `a` and `b` differ. -/
def flagged : State := machine { abTree with err := ⟨true, true, false, false, true⟩ }

/-- A block whose root's right child names no NODE word. -/
def childOff : Block Params.standard :=
  { abTree with node := [(0, ⟨true, 0x61, 0, 0, 1⟩), (1, ⟨true, 0x62, 0, 0, 1⟩), (2, ⟨false, 0, 0, 511, 2⟩)] }

/-- Blocks whose cursor names no NODE word, and a leaf below an internal root. -/
def cursorOff : Block Params.standard := { abTree with cur := 511 }

def cursorOnLeaf : Block Params.standard := { abTree with cur := 0 }

/-- A block whose tree never ends to the left: its root is its own left child. -/
def endless : Block Params.standard :=
  { abTree with node := [(0, ⟨true, 0x61, 0, 0, 1⟩), (1, ⟨true, 0x62, 0, 0, 1⟩), (2, ⟨false, 0, 2, 1, 2⟩)] }

/-- Every path to the left stays at the root of `endless`. -/
theorem endless_left (n : Nat) : nodeAlong endless.node endless.root (List.replicate n false) = some 2 := by
  induction n with
  | zero => rfl
  | succ n ih => exact ih

/-- A block whose root index names no NODE word. -/
def rootOff : Block Params.standard := { abTree with root := 511 }

theorem wit_DecodeOfEncode : Instr.wf Params.standard (.enc 0xFF) = true ∧ Instr.wf wide (.cnt 0xFFFF) = true ∧
    Instr.wf narrow (.dec true) = true := by decide

theorem wit_EncodeOfDecode : decode Params.standard 0x200000FF = .ok (.cnt 0xFF) ∧
    decode wide 0x5000FFFF = .ok (.enc 0xFFFF) := by decide

/-- Both symbol widths, each with a mask it is given. -/
theorem wit_MatchAndMask :
    ((0xFFFFFF00 : Word) = match Params.standard.symWidth with | .w8 => 0xFFFFFF00 | .w16 => 0xFFFF0000) ∧
      ((0xFFFF0000 : Word) = match wide.symWidth with | .w8 => 0xFFFFFF00 | .w16 => 0xFFFF0000) := by decide

theorem wit_IllegalWords :
    ((given haltedBlock (.cmd 0x80000000)).inbox = [.cmd 0x80000000] ∧ wordIllegal Params.standard 0x80000000) ∧
      wordIllegal Params.standard 0x20000100 ∧ ¬ wordIllegal Params.standard 0x200000FF ∧
      wordIllegal Params.standard 0x60000002 ∧ ¬ wordIllegal Params.standard 0x60000001 ∧
      (Instr.wf Params.standard (.cnt 0x61) = true ∧ encode (.cnt 0x61) = encode (.cnt 0x61)) := by
  simp [wordIllegal, given, machine]; decide

theorem wit_StepRunsDecodedCommand : (given abTree (.cmd 0x60000001)).inbox = [.cmd 0x60000001] ∧
    decode (given abTree (.cmd 0x60000001)).params 0x60000001 = .ok (.dec true) := by decide

theorem wit_OneEventPerStep : (∃ t, step (machine abTree) = .next t) ∧ (∃ t, step (given abTree (.cmd 0)) = .next t) ∧
    (∃ t, step (given abTree .rst) = .next t) ∧ (∃ t, step (given abTree (.readNode 2)) = .next t) :=
  ⟨⟨_, rfl⟩, ⟨_, rfl⟩, ⟨_, rfl⟩, ⟨_, rfl⟩⟩

theorem wit_ResetPin : (given haltedBlock .rst).inbox = [.rst] := rfl

/-- For each port the last index with a word and the first without. -/
theorem wit_ReadPorts :
    ((given abTree (.readFreq 0xFF)).inbox = [.readFreq 0xFF] ∧ (0xFF : BitVec 16).toNat < Params.standard.nsym) ∧
    ((given abTree (.readFreq 0x100)).inbox = [.readFreq 0x100] ∧ Params.standard.nsym ≤ (0x100 : BitVec 16).toNat) ∧
    ((given abTree (.readNode 510)).inbox = [.readNode 510] ∧ (510 : BitVec 17).toNat < Params.standard.maxNode) ∧
    ((given abTree (.readNode 511)).inbox = [.readNode 511] ∧ Params.standard.maxNode ≤ (511 : BitVec 17).toNat) ∧
    ((given abTree (.readCode 0xFF)).inbox = [.readCode 0xFF] ∧ (0xFF : BitVec 16).toNat < Params.standard.nsym) ∧
    ((given abTree (.readCode 0x100)).inbox = [.readCode 0x100] ∧ Params.standard.nsym ≤ (0x100 : BitVec 16).toNat) ∧
    ((given abTree (.readCsr 4)).inbox = [.readCsr 4] ∧ ¬ 5 ≤ (4 : BitVec 3).toNat) ∧
    ((given abTree (.readCsr 5)).inbox = [.readCsr 5] ∧ 5 ≤ (5 : BitVec 3).toNat) := by decide

theorem wit_AcceptanceTable : Instr.wf Params.standard .tbl = true ∧ (machine abTree).blk.halt = false ∧
    (machine haltedBlock).blk.halt = true ∧
    (∃ t r, exec .bld (machine abTree) = .next t ∧ t.rsps = (machine abTree).rsps ++ [r] ∧ r.err = some .seq) ∧
    (∃ t r, exec .nop (machine haltedBlock) = .next t ∧ t.rsps = (machine haltedBlock).rsps ++ [r] ∧
      r.err = some .halted) :=
  ⟨rfl, rfl, rfl, ⟨_, _, rfl, rfl, rfl⟩, ⟨_, _, rfl, rfl, rfl⟩⟩

/-- One witness for each of the four clauses, the last for each of its three errors. -/
theorem wit_CheckOrder :
    ((given haltedBlock (.cmd 0x90000000)).inbox = [.cmd 0x90000000] ∧ wordIllegal Params.standard 0x90000000) ∧
      (Instr.wf (machine haltedBlock).params (.cnt 0x61) = true ∧ (machine haltedBlock).blk.halt = true) ∧
      (Instr.wf (machine abTree).params (.enc 0x7A) = true ∧ (machine abTree).blk.halt = false ∧
        acceptedIn (.enc 0x7A) (machine abTree).blk.phase = false) ∧
      (∃ t r, exec (.cnt 0x61) fullCount = .next t ∧ t.rsps = fullCount.rsps ++ [r] ∧ r.err = some .countOverflow) ∧
      (∃ t r, exec (.enc 0x63) (machine abTable) = .next t ∧ t.rsps = [] ++ [r] ∧ r.err = some .symbolNotInTable) ∧
      (∃ t r, exec (.dec true) (machine noTree) = .next t ∧ t.rsps = [] ++ [r] ∧ r.err = some .malformedDecodeInput) :=
  ⟨⟨rfl, .inl (by decide)⟩, by decide, by decide, ⟨_, _, rfl, rfl, rfl⟩, ⟨_, _, rfl, rfl, rfl⟩, ⟨_, _, rfl, rfl, rfl⟩⟩

theorem wit_HaltRule :
    ((∃ t r, step (given abTable (.cmd 0x50000063)) = .next t ∧ t.blk.halt = true ∧ t.rsps = [] ++ [r] ∧
      r.err = some .symbolNotInTable) ∧ abTable.halt = false) ∧
      (haltedBlock.halt = true ∧ (given haltedBlock (.cmd 0)).inbox = [.cmd 0] ∧
        decode Params.standard 0 = .ok .nop ∧ Instr.nop ≠ .clr) ∧
      ((∃ t, step (given haltedBlock (.cmd 0x10000000)) = .next t ∧ t.blk.halt = false) ∧
        ∃ t, step (given haltedBlock .rst) = .next t ∧ t.blk.halt = false) :=
  ⟨⟨⟨_, _, rfl, rfl, rfl, rfl⟩, rfl⟩, by decide, ⟨_, rfl, rfl⟩, ⟨_, rfl, rfl⟩⟩

theorem wit_FlagsAreSticky : (∃ t, step (given abTree (.cmd 0x80000000)) = .next t) ∧
    (∀ rest, (given abTree (.cmd 0x80000000)).inbox ≠ .rst :: rest) ∧
    (∀ rest, (given abTree (.cmd 0x80000000)).inbox ≠ .cmd (encode .clr) :: rest) ∧
    (∃ t, step (given haltedBlock .rst) = .next t) ∧
    (given haltedBlock (.cmd 0x10000000)).inbox = .cmd (encode .clr) :: [] := by
  refine ⟨⟨_, rfl⟩, fun rest h => ?_, fun rest h => ?_, ⟨_, rfl⟩, rfl⟩
  · cases h
  · injection h with h
    exact absurd h (by decide)

theorem wit_FlagsGateNothing : flagged ≠ machine abTree ∧ flagged.withoutFlags = (machine abTree).withoutFlags := by
  decide

theorem wit_ErrorFreeIffStatusClear : (machine abTable).blk.halt = false ∧
    (machine abTable).blk.err = ⟨false, false, false, false, false⟩ ∧
    (∀ e ∈ (given abTable (.cmd 0x50000063)).inbox, e ≠ .rst ∧ e ≠ .cmd (encode .clr)) ∧
    ∃ t, run 1 (given abTable (.cmd 0x50000063)) = .next t := ⟨rfl, rfl, by decide, _, rfl⟩

theorem wit_NopDoesNothing : (machine abTree).blk.halt = false ∧ (machine haltedBlock).blk.halt = true := by decide

/-- One below the bound, and the last symbol. -/
theorem wit_CntCountsOne : (0xFF : Symbol).toNat < narrow.nsym ∧ fullCount.blk.halt = false ∧ fullCount.blk.phase = .count ∧
    (freqAt fullCount.blk (0xFF : Symbol).toNat).toNat < narrow.cntMax := by decide

theorem wit_CntOverflowHalts : (0x61 : Symbol).toNat < narrow.nsym ∧ fullCount.blk.halt = false ∧
    fullCount.blk.phase = .count ∧ (freqAt fullCount.blk (0x61 : Symbol).toNat).toNat = narrow.cntMax := by decide

/-- A check of every symbol of a list, as a Bool. -/
theorem all_below {n : Nat} {l : List Symbol} (h : l.all (fun x => decide (x.toNat < n)) = true) :
    ∀ x ∈ l, x.toNat < n := fun x hx => of_decide_eq_true (List.all_eq_true.1 h x hx)

theorem count_le_three (a b c x : Symbol) : [a, b, c].count x ≤ 3 := List.count_le_length

theorem wit_FreqIsCount : (∀ x ∈ ([0x61, 0x62, 0x61] : List Symbol), x.toNat < narrow.nsym) ∧
    ∀ x : Symbol, ([0x61, 0x62, 0x61] : List Symbol).count x ≤ narrow.cntMax :=
  ⟨all_below (by decide), fun x => le_trans (count_le_three 0x61 0x62 0x61 x) (by decide)⟩

theorem wit_CountOrderIrrelevant : ([0x61, 0x62, 0x61] : List Symbol).Perm [0x61, 0x61, 0x62] ∧
    (∀ x ∈ ([0x61, 0x62, 0x61] : List Symbol), x.toNat < narrow.nsym) ∧
    ∀ x : Symbol, ([0x61, 0x62, 0x61] : List Symbol).count x ≤ narrow.cntMax :=
  ⟨by decide, all_below (by decide), fun x => le_trans (count_le_three 0x61 0x62 0x61 x) (by decide)⟩

/-- For `BldLeaves`, `BldMergesLeastTwo`, `WeightsAreExact` and `BldTreeShape`: two symbols counted. -/
theorem wit_Bld : (machine abCount).blk.halt = false ∧ (machine abCount).blk.phase = .count ∧
    1 ≤ keyCount (machine abCount).blk := by decide +kernel

/-- For the two cases of `BldEdgeCases`. -/
theorem wit_BldEdgeCases : (State.reset.blk.halt = false ∧ State.reset.blk.phase = .count ∧ keyCount State.reset.blk = 0) ∧
    ((machine aCount).blk.halt = false ∧ (machine aCount).blk.phase = .count ∧ keyCount (machine aCount).blk = 1) := by
  decide +kernel

/-- Equal counts over different NODE memories. -/
theorem wit_TreeDependsOnCountsAlone : abCount ≠ { abTree with phase := .count } ∧ abCount.halt = false ∧
    abCount.phase = .count ∧
    ∀ x, x < 256 → freqAt abCount x = freqAt ({ abTree with phase := .count } : Block Params.standard) x :=
  ⟨by decide, rfl, rfl, fun _ _ => rfl⟩

/-- A counted symbol of `ab`. -/
theorem abCount_keys (x : Nat) (h : freqAt abCount x ≠ 0) : x = 0x61 ∨ x = 0x62 := by
  by_contra hn
  have h1 : ¬ 0x61 = x := fun e => hn (.inl e.symm)
  have h2 : ¬ 0x62 = x := fun e => hn (.inr e.symm)
  refine h ?_
  show Memory.read 0 [(0x61, (1 : BitVec 32)), (0x62, 1)] x = 0
  simp only [Memory.read, if_neg h1, if_neg h2]

/-- Another assignment of codes to `ab`, with longer codes. -/
theorem wit_HuffmanOptimal : (machine abCount).Inv ∧ (machine abCount).blk.halt = false ∧
    (machine abCount).blk.phase = .count ∧
    (∀ x, x < 256 → freqAt abCount x ≠ 0 → (if x = 0x61 then [false, true] else [true]) ≠ []) ∧
    ∀ x y, x < 256 → y < 256 → x ≠ y → freqAt abCount x ≠ 0 → freqAt abCount y ≠ 0 →
      ¬ (if x = 0x61 then [false, true] else [true]) <+: (if y = 0x61 then [false, true] else [true]) := by
  refine ⟨inv_abCount, rfl, rfl, fun x _ _ => ?_, fun x y _ _ hne hx hy => ?_⟩
  · split <;> simp
  · rcases abCount_keys x hx with rfl | rfl <;> rcases abCount_keys y hy with rfl | rfl
    · exact absurd rfl hne
    · decide
    · decide
    · exact absurd rfl hne

theorem wit_TblMakesTable : (machine abTree).Inv ∧ (machine abTree).blk.halt = false ∧ (machine abTree).blk.phase = .tree :=
  ⟨inv_abTree, rfl, rfl⟩

theorem wit_CodeLengthBound : (machine abTable).Inv ∧ (machine abTable).blk.phase = .table ∧
    2 ≤ (machine abTable).blk.nleaf.toNat := ⟨inv_abTable, rfl, by decide⟩

theorem wit_EncEmitsCode : (0x62 : Symbol).toNat < Params.standard.nsym ∧ (machine abTable).blk.halt = false ∧
    (machine abTable).blk.phase = .table ∧ (codeAt (machine abTable).blk (0x62 : Symbol).toNat).len.toNat ≠ 0 := by decide

theorem wit_EncAbsentHalts : (0xFF : Symbol).toNat < Params.standard.nsym ∧ (machine abTable).blk.halt = false ∧
    (machine abTable).blk.phase = .table ∧ (codeAt (machine abTable).blk (0xFF : Symbol).toNat).len.toNat = 0 := by decide

theorem wit_StreamLength : (machine abTable).Inv ∧ (machine abTable).blk.halt = false ∧
    (machine abTable).blk.phase = .table ∧ (machine abTable).inbox = [] ∧
    (∀ x ∈ ([0x62, 0x61] : List Symbol), x.toNat < Params.standard.nsym) ∧
    ∀ x : Symbol, ([0x62, 0x61] : List Symbol).count x = (freqAt (machine abTable).blk x.toNat).toNat := by
  refine ⟨inv_abTable, rfl, rfl, rfl, all_below (by decide), fun x => ?_⟩
  by_cases h1 : x = 0x61
  · rw [h1]; decide
  · by_cases h2 : x = 0x62
    · rw [h2]; decide
    · have h1' : ¬ (0x61 : Nat) = x.toNat := fun h => h1 (BitVec.eq_of_toNat_eq h.symm)
      have h2' : ¬ (0x62 : Nat) = x.toNat := fun h => h2 (BitVec.eq_of_toNat_eq h.symm)
      have hf : freqAt (machine abTable).blk x.toNat = 0 := by
        show Memory.read 0 [(0x61, (1 : BitVec 32)), (0x62, 1)] x.toNat = 0
        simp only [Memory.read, if_neg h1', if_neg h2']
      rw [hf, List.count_eq_zero.2 (by simp; exact ⟨h2, h1⟩)]
      rfl

theorem wit_DecWithoutTree : (machine noTree).blk.halt = false ∧ (machine noTree).blk.phase ≠ .count ∧
    (machine noTree).blk.rootValid = false := by decide

theorem wit_DecSingleLeaf : (machine aTree).blk.halt = false ∧ (machine aTree).blk.phase ≠ .count ∧
    (machine aTree).blk.rootValid = true ∧ (machine aTree).blk.root.toNat < Params.standard.maxNode ∧
    (nodeOf (machine aTree).blk (machine aTree).blk.root.toNat).isLeaf = true := by decide

/-- One witness for each of the two clauses: bit 0 leads to a leaf, bit 1 to an internal node. -/
theorem wit_DecMovesCursor : (abcTree.halt = false ∧ abcTree.phase ≠ .count ∧
    abcTree.rootValid = true ∧ abcTree.root.toNat < Params.standard.maxNode ∧
    (nodeOf abcTree 4).isLeaf = false ∧ abcTree.cur = 4) ∧
    ((2 : BitVec Params.standard.idxW) = (if false then (nodeOf abcTree 4).right else (nodeOf abcTree 4).left) ∧
      (nodeOf abcTree 2).isLeaf = true) ∧
    ((3 : BitVec Params.standard.idxW) = (if true then (nodeOf abcTree 4).right else (nodeOf abcTree 4).left) ∧
      (nodeOf abcTree 3).isLeaf = false) := by decide

/-- One witness for each stop: of `DEC` at a root, cursor or child off the memory and at a cursor on a leaf, of `TBL` at a path
off the memory and at one that is too long. -/
theorem wit_StopsOffTree :
    (rootOff.halt = false ∧ rootOff.rootValid = true ∧ Params.standard.maxNode ≤ rootOff.root.toNat ∧
      rootOff.phase = .tree) ∧
    (cursorOff.halt = false ∧ cursorOff.rootValid = true ∧ cursorOff.phase ≠ .count ∧
      (nodeOf cursorOff cursorOff.root.toNat).isLeaf = false ∧ Params.standard.maxNode ≤ cursorOff.cur.toNat) ∧
    (cursorOnLeaf.halt = false ∧ cursorOnLeaf.rootValid = true ∧ cursorOnLeaf.phase ≠ .count ∧
      cursorOnLeaf.root.toNat < Params.standard.maxNode ∧ (nodeOf cursorOnLeaf cursorOnLeaf.root.toNat).isLeaf = false ∧
      cursorOnLeaf.cur.toNat < Params.standard.maxNode ∧ (nodeOf cursorOnLeaf cursorOnLeaf.cur.toNat).isLeaf = true) ∧
    (childOff.halt = false ∧ childOff.rootValid = true ∧ childOff.phase = .tree ∧
      (nodeOf childOff childOff.root.toNat).isLeaf = false ∧ (nodeOf childOff childOff.cur.toNat).isLeaf = false ∧
      Params.standard.maxNode ≤ ((nodeOf childOff childOff.cur.toNat).child true).toNat ∧
      nodeAlong childOff.node childOff.root [true] = some 511) ∧
    (endless.halt = false ∧ endless.rootValid = true ∧ endless.phase = .tree ∧
      ∃ l j, nodeAlong endless.node endless.root l = some j ∧ Params.standard.maxLen < l.length) ∧
    exec (.dec true) (machine cursorOff) = .fault .nodeIndexOutOfRange ∧ exec .tbl (machine rootOff) = .fault .nodeIndexOutOfRange :=
  ⟨by decide, by decide, by decide, by decide,
    ⟨rfl, rfl, rfl, List.replicate 256 false, _, endless_left 256, by rw [List.length_replicate]; decide⟩, rfl, rfl⟩

/-- For the last two clauses of `StopsOffTree`: no path of a leaf at the root leaves the memory or is too long. -/
theorem wit_StopsOffTree_paths : aTree.halt = false ∧ aTree.rootValid = true ∧ aTree.phase = .tree ∧
    ∀ l j, nodeAlong aTree.node aTree.root l = some j → j.toNat < Params.standard.maxNode ∧ l.length ≤ Params.standard.maxLen := by
  refine ⟨rfl, rfl, rfl, fun l j h => ?_⟩
  cases l with
  | nil => injection h with h; rw [← h]; decide
  | cons bit l => exact absurd h (by intro h; cases h)

theorem wit_EndChecksBoundary : ((machine abcTree).blk.halt = false ∧ (machine abcTree).blk.phase ≠ .count) ∧
    abcTree.cur = abcTree.root ∧ ({ abcTree with cur := 3 } : Block Params.standard).cur ≠ abcTree.root := by decide

/-- For `CommandFrame` and `ResponseShape`: a command answers. -/
theorem wit_exec : (∃ t, exec (.cnt 0x61) State.reset = .next t) ∧ (∃ t, exec (.enc 0x62) (machine abTable) = .next t) ∧
    (∃ t, exec (.dec true) (machine abcTree) = .next t) := ⟨⟨_, rfl⟩, ⟨_, rfl⟩, ⟨_, rfl⟩⟩

theorem wit_CursorWriters :
    look curOf (step (given abcTree (.cmd 0x60000001))) = some 3 ∧ (given abcTree (.cmd 0x60000001)).blk.cur.toNat ≠ 3 := by
  decide

theorem wit_PhaseMoves : (∃ t, step (given abTree (.cmd 0x40000000)) = .next t ∧ t.blk.phase ≠ abTree.phase) ∧
    (∃ t, step (given abTree (.cmd 0x10000000)) = .next t ∧ t.blk.phase ≠ abTree.phase) :=
  ⟨⟨_, rfl, by decide⟩, ⟨_, rfl, by decide⟩⟩

theorem wit_ImmutabilityWindows : (∃ t, step (given abTree (.cmd 0x40000000)) = .next t ∧ t.blk.phase ≠ .count) ∧
    abTree.phase ≠ .count ∧ (∃ t, step (given abTable (.cmd 0x60000001)) = .next t ∧ t.blk.phase ≠ .count) ∧
    abTable.phase = .table := ⟨⟨_, rfl, by decide⟩, by decide, ⟨_, rfl, by decide⟩, rfl⟩

/-- For `InvariantKept` and `NeverStops`: a state of every phase, and one that meets the premise of each. -/
theorem wit_InvariantKept : State.reset.Inv ∧ (machine abTree).Inv ∧ (machine aTable).Inv ∧
    (∃ t, step (given abTree (.cmd 0x40000000)) = .next t) ∧ (given abTree (.cmd 0x40000000)).inbox = [.cmd 0x40000000] :=
  ⟨inv_counting [] (by decide) (by decide), inv_abTree, inv_aTable, ⟨_, rfl⟩, rfl⟩

theorem wit_MemoryFormKept : rootOff.MemoryWf ∧ ∃ t, step (given rootOff (.cmd 0)) = .next t :=
  ⟨⟨by decide, by decide, by decide, by decide, by decide, by decide⟩, _, rfl⟩

theorem wit_SymbolRoundTrip : (machine abTable).Inv ∧ (machine abTable).blk.halt = false ∧
    (machine abTable).blk.phase = .table ∧ (machine abTable).inbox = [] ∧ abTable.cur = abTable.root ∧
    (0x62 : Symbol).toNat < Params.standard.nsym ∧ freqAt (machine abTable).blk (0x62 : Symbol).toNat ≠ 0 :=
  ⟨inv_abTable, rfl, rfl, rfl, rfl, by decide, by decide⟩

theorem wit_PipelineRoundTrip : (∀ x ∈ ([0x3B1, 0x100, 0x3B1] : List Symbol), x.toNat < wide.nsym) ∧
    ∀ x : Symbol, ([0x3B1, 0x100, 0x3B1] : List Symbol).count x ≤ wide.cntMax :=
  ⟨all_below (by decide), fun x => le_trans (count_le_three 0x3B1 0x100 0x3B1 x) (by decide)⟩

end Sys2Proof.Tests
end

/-! Proofs for 00_scope: the step as the decoded command's meaning (O6), the reset state (O9), the code that `ENC` emits
(O31), and that no step stops in a state of the invariant (O48). -/

namespace Sys2Proof.Machine

/-! ## The reset state -/

/-- `STATUS` of the reset block reads 0: its phase, its flags and its two status bits are all zero (R31, R37). -/
theorem statusWord_reset (p : Params) : statusWord (Block.reset p) = 0 := by
  simp [statusWord, Block.reset, Phase.bits]

/-- The block of `Block.reset` has every value of the table of R37, whatever the parameters. -/
theorem Block.atReset_reset (p : Params) : (Block.reset p).AtReset where
  phase := rfl
  nleaf := BitVec.toNat_zero
  nnode := BitVec.toNat_zero
  root := BitVec.toNat_zero
  rootValid := rfl
  cur := BitVec.toNat_zero
  halt := rfl
  err := rfl
  freq _ := Memory.read_nil _ _
  node _ := Memory.read_nil _ _
  code _ := Memory.read_nil _ _
  status := statusWord_reset p

/-- Settles O9: `State.resetAt` holds `Block.reset`, and `State.reset` is it at the default parameters. -/
theorem resetState : Obligations.ResetState := by
  unfold Obligations.ResetState
  exact ⟨fun p => ⟨Block.atReset_reset p, rfl⟩, rfl, rfl, Block.atReset_reset _⟩

/-! ## The step -/

/-- Settles O6: a step on a word that decodes is `exec` on the machine without that word (`step_cmd`). -/
theorem stepRunsDecodedCommand : Obligations.StepRunsDecodedCommand := by
  unfold Obligations.StepRunsDecodedCommand
  intro s w rest i hinbox hdecode
  exact step_cmd hinbox hdecode

/-! ## The encoder -/

/-- `ENC` of a legal symbol passes the checks in phase `TABLE` when the block is not halted (R143). -/
theorem firstError_enc {p : Params} {b : Block p} {sym : Symbol} (hsym : sym.toNat < p.nsym) (hhalt : b.halt = false)
    (hphase : b.phase = .table) : firstError (.enc sym) b = none :=
  firstError_none.2 ⟨decide_eq_true hsym, .inl hhalt, by rw [hphase]; rfl⟩

/-- The body of `ENC` for a symbol with a code answers the code's bits and leaves the block (R114). -/
theorem encBody_of_len_ne_zero {p : Params} {b : Block p} {sym : Symbol} (h : (codeAt b sym.toNat).len ≠ 0) :
    encBody sym b = (b, Rsp.code (codeAt b sym.toNat).toBits) := by
  rcases encBody_cases sym b with ⟨hzero, -⟩ | ⟨-, hbody⟩
  · exact absurd hzero h
  · exact hbody

/-- Settles O31: the bits are `CodeWord.toBits` of the symbol's CODE word. -/
theorem encEmitsCode : Obligations.EncEmitsCode := by
  unfold Obligations.EncEmitsCode
  intro s sym hsym hhalt hphase hlen
  have hne : (codeAt s.blk sym.toNat).len ≠ 0 := fun h => hlen (by rw [h]; exact BitVec.toNat_zero)
  have hbody : bodyOf (.enc sym) s.blk = .ok (s.blk, Rsp.code (codeAt s.blk sym.toNat).toBits) :=
    congrArg Except.ok (encBody_of_len_ne_zero hne)
  refine ⟨(codeAt s.blk sym.toNat).toBits, exec_of_ok (firstError_enc hsym hhalt hphase) hbody,
    CodeWord.length_toBits _, fun hnil => hlen ?_, fun i hi => ?_⟩
  · rw [← CodeWord.length_toBits, hnil, List.length_nil]
  · rw [List.getElem?_eq_getElem hi, CodeWord.getElem_toBits]

/-! ## No step stops in a state of the invariant -/

/-- A command that passes the checks on a block of R38 has a body that completes: only `TBL` and `DEC` can stop, and the
phases that accept them have the tree they need. -/
theorem Block.Inv.bodyOf_completes {p : Params} {b : Block p} (h : b.Inv) {i : Instr} (hi : firstError i b = none) :
    ∃ a, bodyOf i b = .ok a := by
  obtain ⟨-, -, haccepted⟩ := firstError_none.1 hi
  cases i with
  | nop | clr | cnt _ | bld | enc _ | endStream => exact ⟨_, rfl⟩
  | tbl =>
    obtain ⟨_, hbody, -⟩ := h.tbl (by simpa [acceptedIn] using haccepted)
    exact ⟨_, hbody⟩
  | dec bit =>
    obtain ⟨a, hbody, -⟩ := h.dec (by simpa [acceptedIn] using haccepted) bit
    exact ⟨a, hbody⟩

/-- From a state of R38 every command answers: a failed check its error, otherwise what its body leaves (R143). -/
theorem State.Inv.exec_completes {s : State} (h : s.Inv) (i : Instr) : ∃ a, exec i s = .next (s.answer a) := by
  cases hi : firstError i s.blk with
  | some e => exact ⟨_, exec_of_error hi⟩
  | none =>
    obtain ⟨a, hbody⟩ := Block.Inv.bodyOf_completes h hi
    exact ⟨a, exec_of_ok hi hbody⟩

/-- From a state of R38 a step on a command word, legal or not, consumes it and answers it with one response (R76). -/
theorem State.Inv.step_cmd_answers {s : State} (h : s.Inv) {w : Word} {rest : List HostEvent}
    (hinbox : s.inbox = .cmd w :: rest) : ∃ a, step s = .next ((s.withInbox rest).answer a) := by
  cases hd : decode s.params w with
  | error e => exact ⟨_, step_illegal hinbox hd⟩
  | ok i =>
    have h' : (s.withInbox rest).Inv := h
    obtain ⟨a, ha⟩ := h'.exec_completes i
    exact ⟨a, (step_cmd hinbox hd).trans ha⟩

/-- Without a command word in front a step answers from any state: idle, `rst`, or a read port (R52, R149, R160). -/
theorem step_answers_of_no_cmd {s : State} (h : ∀ w rest, s.inbox ≠ .cmd w :: rest) : ∃ t, step s = .next t := by
  unfold step fetch
  split
  · exact ⟨_, rfl⟩
  · next w _ hfetch =>
    split at hfetch
    case h_2 w rest hinbox => exact absurd hinbox (h w rest)
    all_goals cases hfetch
  · exact ⟨_, rfl⟩

/-- Settles O48, by whether a command word stands in front of the inbox. -/
theorem neverStops : Obligations.NeverStops := by
  unfold Obligations.NeverStops
  intro s hs
  by_cases hcmd : ∃ w rest, s.inbox = .cmd w :: rest
  · obtain ⟨w, rest, hinbox⟩ := hcmd
    obtain ⟨a, hstep⟩ := hs.step_cmd_answers hinbox
    refine ⟨_, hstep, fun w' rest' hinbox' => ⟨?_, a.2, rfl⟩⟩
    rw [hinbox] at hinbox'
    exact (List.cons.inj hinbox').2
  · obtain ⟨t, hstep⟩ := step_answers_of_no_cmd fun w rest h => hcmd ⟨w, rest, h⟩
    exact ⟨t, hstep, fun w rest h => absurd ⟨w, rest, h⟩ hcmd⟩

end Sys2Proof.Machine

/-! Proofs for 10_state: the invariant of R38 at reset and over a step (O46, O47), the canonical form of the memories (O49),
who moves the cursor and the phase (O39, O40), the checks, `HALT` and the flags (O11, O13, O14, O15), the read ports and the
layouts (O10, O44, O45), and what `CLR`, a run of `CNT`, `BLD` and `TBL` leave (O18, O21, O23, O29), with where `DEC` and
`TBL` stop (O50). -/

namespace Sys2Proof.Machine

open Sys2Proof (Params Instr Symbol Word decode encode)

/-! ## The invariant of R38 -/

/-- The reset block meets the invariant: nothing is built, and every clause about a later phase is void (R37, R38). -/
theorem Block.Inv.reset (p : Params) : (Block.reset p).Inv where
  memory := {
    freq := Memory.wf_nil _
    freqBelow := List.forall_mem_nil _
    node := Memory.wf_nil _
    nodeBelow := List.forall_mem_nil _
    code := Memory.wf_nil _
    codeBelow := List.forall_mem_nil _ }
  counting _ := ⟨rfl, rfl, rfl, rfl, rfl, fun _ => rfl, fun _ => rfl⟩
  registers hphase := absurd rfl hphase
  shape hphase := absurd rfl hphase
  cursor hphase := absurd rfl hphase
  noTable _ _ := rfl
  table hphase := nomatch hphase
  halted hhalt := nomatch hhalt

/-- Settles O46: the reset block is `Block.reset`, whatever the parameters. -/
theorem invariantAtReset : Obligations.InvariantAtReset := by
  unfold Obligations.InvariantAtReset
  exact Block.Inv.reset

/-- The body of a command that passed the checks keeps the invariant: the phase that accepts the command is the one in which
the body's own lemma speaks (R38, R73). -/
theorem Block.Inv.bodyOf {p : Params} {b : Block p} (h : b.Inv) {i : Instr} {a : Block p × Rsp}
    (hcheck : firstError i b = none) (hbody : bodyOf i b = .ok a) : a.1.Inv := by
  obtain ⟨hwf, -, haccepted⟩ := firstError_none.1 hcheck
  cases i with
  | nop => cases hbody; exact h
  | clr => cases hbody; exact Block.Inv.reset p
  | cnt sym =>
    cases hbody
    exact h.cnt (by simpa [acceptedIn] using haccepted) sym (by simpa [Instr.wf] using hwf)
  | bld => cases hbody; exact h.bld (by simpa [acceptedIn] using haccepted)
  | tbl =>
    obtain ⟨code, hok, hinv⟩ := h.tbl (by simpa [acceptedIn] using haccepted)
    cases hok.symm.trans hbody
    exact hinv
  | enc sym => cases hbody; exact h.enc sym
  | dec bit =>
    obtain ⟨a', hok, hinv⟩ := h.dec (by simpa [acceptedIn] using haccepted) bit
    cases hok.symm.trans hbody
    exact hinv
  | endStream => cases hbody; exact h.endStream (by simpa [acceptedIn] using haccepted)

/-- Whatever a command answers, the invariant is kept. -/
theorem Block.Inv.answers {p : Params} {b : Block p} (h : b.Inv) {i : Instr} {a : Block p × Rsp} (ha : Answers i b a) :
    a.1.Inv := by
  rcases ha with ⟨e, -, rfl⟩ | ⟨hcheck, hbody⟩
  · exact h.afterRaise e
  · exact h.bodyOf hcheck hbody

/-- Settles O47, by what the step took: nothing, a command, an illegal word, `rst` or a read. -/
theorem invariantKept : Obligations.InvariantKept := by
  unfold Obligations.InvariantKept
  intro s t hs hstep
  rcases step_block hstep with ⟨-, rfl⟩ | ⟨_, _, _, a, -, -, ha, rfl⟩ | ⟨_, _, _, -, -, rfl⟩ | ⟨_, -, rfl⟩ |
    ⟨_, _, _, -, -, -, rfl⟩
  · exact hs
  · exact Block.Inv.answers hs ha
  · exact Block.Inv.afterRaise hs .illegal
  · exact Block.Inv.reset s.params
  · exact hs

/-! ## The canonical form of the memories -/

/-- The reset block lists no word at all. -/
theorem Block.MemoryWf.reset (p : Params) : (Block.reset p).MemoryWf := (Block.Inv.reset p).memory

/-- Writing a CODE word keeps the canonical form: a symbol field cannot name a word past the last (R51). -/
theorem codeWrite_wf {p : Params} {code : Memory (CodeWord p)} (hwf : Memory.wf (CodeWord.zero p) code)
    (hbelow : Memory.below p.nsym code) (sym : BitVec p.symW) (c : CodeWord p) :
    Memory.wf (CodeWord.zero p) (codeWrite code sym.toNat c) ∧ Memory.below p.nsym (codeWrite code sym.toNat c) :=
  ⟨Memory.wf_write _ _ _ _ hwf, Memory.below_write _ _ _ _ _ hbelow sym.isLt⟩

/-- A walk that ends leaves CODE canonical, on any NODE memory: it only writes words at symbol fields. -/
theorem walk_wf {p : Params} (m : Memory (NodeWord p)) (fuel : Nat) :
    ∀ {i : BitVec p.idxW} {len : Nat} {bits : BitVec p.maxLen} {code code' : Memory (CodeWord p)},
      Memory.wf (CodeWord.zero p) code → Memory.below p.nsym code → walk m fuel i len bits code = .ok code' →
      Memory.wf (CodeWord.zero p) code' ∧ Memory.below p.nsym code' := by
  induction fuel with
  | zero => intro _ _ _ _ _ _ _ h; cases h
  | succ fuel ih =>
    intro i len bits code code' hwf hbelow h
    unfold walk at h
    cases hnode : nodeAt m i with
    | error f => rw [hnode] at h; cases h
    | ok w =>
      simp only [hnode] at h
      split at h
      · cases h
        exact codeWrite_wf hwf hbelow w.sym _
      · cases hleft : walk m fuel (w.child false) (len + 1) bits code with
        | error f => simp only [hleft] at h; cases h
        | ok code₁ =>
          simp only [hleft] at h
          obtain ⟨hwf₁, hbelow₁⟩ := ih hwf hbelow hleft
          exact ih hwf₁ hbelow₁ h

/-- A code table is canonical, whatever stands in NODE: it starts from cleared words (R106). -/
theorem codeTable_wf {p : Params} {b : Block p} {code : Memory (CodeWord p)} (h : codeTable b = .ok code) :
    Memory.wf (CodeWord.zero p) code ∧ Memory.below p.nsym code := by
  have hnil : Memory.below p.nsym ([] : Memory (CodeWord p)) := List.forall_mem_nil _
  unfold codeTable at h
  split at h
  · cases hnode : nodeAt b.node b.root with
    | error f => rw [hnode] at h; cases h
    | ok w =>
      simp only [hnode] at h
      split at h
      · cases h
        exact codeWrite_wf (Memory.wf_nil _) hnil w.sym _
      · exact walk_wf b.node _ (Memory.wf_nil _) hnil h
  · cases h
    exact ⟨Memory.wf_nil _, hnil⟩

/-- `BLD` leaves NODE canonical. -/
theorem bldBody_node_wf {p : Params} {b : Block p} (h : b.MemoryWf) :
    Memory.wf (NodeWord.zero p) (bldBody b).1.node ∧ Memory.below p.maxNode (bldBody b).1.node := by
  by_cases hkeys : keyCount b = 0
  · obtain ⟨-, -, -, -, -, hwf, hbelow⟩ := bldBody_empty b hkeys
    exact ⟨hwf h.node, hbelow h.nodeBelow⟩
  · have htree := bldBody_tree b hkeys
    exact ⟨htree.wf h.node, htree.below h.nodeBelow⟩

/-- The canonical form speaks of the three memories alone. -/
theorem Block.MemoryWf.congr {p : Params} {b c : Block p} (h : b.MemoryWf) (hfreq : c.freq = b.freq)
    (hnode : c.node = b.node) (hcode : c.code = b.code) : c.MemoryWf := by
  refine ⟨?_, ?_, ?_, ?_, ?_, ?_⟩
  · rw [hfreq]; exact h.freq
  · rw [hfreq]; exact h.freqBelow
  · rw [hnode]; exact h.node
  · rw [hnode]; exact h.nodeBelow
  · rw [hcode]; exact h.code
  · rw [hcode]; exact h.codeBelow

/-- The body of a legal command keeps the canonical form: three of them write a memory, inside its space (R51). -/
theorem Block.MemoryWf.bodyOf {p : Params} {b : Block p} (h : b.MemoryWf) {i : Instr} {a : Block p × Rsp}
    (hwf : i.wf p = true) (hbody : bodyOf i b = .ok a) : a.1.MemoryWf := by
  cases i with
  | nop => cases hbody; exact h
  | clr => cases hbody; exact Block.MemoryWf.reset p
  | cnt sym =>
    cases hbody
    rcases cntBody_cases sym b with ⟨-, hcnt⟩ | ⟨-, hcnt⟩ <;> rw [hcnt]
    · exact h.congr rfl rfl rfl
    · have hsym : sym.toNat < p.nsym := by simpa [Instr.wf] using hwf
      exact ⟨Memory.wf_write _ _ _ _ h.freq, Memory.below_write _ _ _ _ _ h.freqBelow hsym, h.node, h.nodeBelow, h.code,
        h.codeBelow⟩
  | bld =>
    cases hbody
    have hframe := bldBody_frame b
    obtain ⟨hnode, hnodeBelow⟩ := bldBody_node_wf h
    have hrest : Block.MemoryWf { (bldBody b).1 with node := b.node } := h.congr hframe.freq rfl hframe.code
    exact ⟨hrest.freq, hrest.freqBelow, hnode, hnodeBelow, hrest.code, hrest.codeBelow⟩
  | tbl =>
    obtain ⟨code, hcode, rfl⟩ := tblBody_ok hbody
    obtain ⟨hcodeWf, hcodeBelow⟩ := codeTable_wf hcode
    exact ⟨h.freq, h.freqBelow, h.node, h.nodeBelow, hcodeWf, hcodeBelow⟩
  | enc sym =>
    cases hbody
    rcases encBody_cases sym b with ⟨-, henc⟩ | ⟨-, henc⟩ <;> rw [henc] <;> exact h.congr rfl rfl rfl
  | dec bit =>
    rcases decBody_ok hbody with ⟨-, rfl⟩ | ⟨-, -, rfl⟩ | ⟨-, -, -, ⟨-, rfl⟩ | ⟨-, rfl⟩⟩ <;> exact h.congr rfl rfl rfl
  | endStream =>
    cases hbody
    rcases endBody_cases b with ⟨-, hend⟩ | ⟨-, hend⟩ <;> rw [hend] <;> exact h.congr rfl rfl rfl

/-- Whatever a command answers, the memories stay canonical. -/
theorem Block.MemoryWf.answers {p : Params} {b : Block p} (h : b.MemoryWf) {i : Instr} {a : Block p × Rsp}
    (ha : Answers i b a) : a.1.MemoryWf := by
  rcases ha with ⟨e, -, rfl⟩ | ⟨hcheck, hbody⟩
  · exact h.congr rfl rfl rfl
  · exact h.bodyOf (firstError_none.1 hcheck).1 hbody

/-- Settles O49, by what the step took; the parameters are the same in every case. -/
theorem memoryFormKept : Obligations.MemoryFormKept := by
  unfold Obligations.MemoryFormKept
  intro s t hs hstep
  rcases step_block hstep with ⟨-, rfl⟩ | ⟨_, _, _, a, -, -, ha, rfl⟩ | ⟨_, _, _, -, -, rfl⟩ | ⟨_, -, rfl⟩ |
    ⟨_, _, _, -, -, -, rfl⟩
  · exact ⟨hs, rfl⟩
  · exact ⟨hs.answers ha, rfl⟩
  · exact ⟨hs.congr rfl rfl rfl, rfl⟩
  · exact ⟨Block.MemoryWf.reset s.params, rfl⟩
  · exact ⟨hs, rfl⟩

/-! ## Words that spell a command -/

/-- A word without an operand spells its command exactly when `arg` is zero (R72). -/
theorem decodePlain_eq_ok {arg : BitVec 24} {i j : Instr} : decodePlain arg i = .ok j ↔ arg = 0 ∧ i = j := by
  unfold decodePlain
  split <;> simp_all

/-- The operand field of a symbol below `NSYM` is the symbol zero-extended (R72). -/
theorem symbol_setWidth_of_lt {p : Params} {arg : BitVec 24} (h : arg.toNat < p.nsym) :
    (arg.setWidth 16).setWidth 24 = arg ∧ (arg.setWidth 16).toNat < p.nsym := by
  have hle := p.nsym_le
  have hcut : (arg.setWidth 16).toNat = arg.toNat := by
    rw [BitVec.toNat_setWidth, Nat.mod_eq_of_lt (by omega)]
  exact ⟨BitVec.eq_of_toNat_eq (by rw [symbol_setWidth_toNat, hcut]), by rwa [hcut]⟩

/-- A word that decodes as a command with a symbol spells that command's word, whose symbol is legal (R72). -/
theorem decodeSymbol_ok {p : Params} {arg : BitVec 24} {mk : Symbol → Instr} {i : Instr}
    (h : decodeSymbol p arg mk = .ok i) : ∃ sym : Symbol, i = mk sym ∧ sym.toNat < p.nsym ∧ sym.setWidth 24 = arg := by
  unfold decodeSymbol at h
  split at h
  · next hlt =>
    obtain ⟨hext, hsym⟩ := symbol_setWidth_of_lt hlt
    cases h
    exact ⟨_, rfl, hsym, hext⟩
  · cases h

/-- A word that decodes as a command with a bit has that bit as its operand field (R72). -/
theorem decodeBit_ok {arg : BitVec 24} {mk : Bool → Instr} {i : Instr} (h : decodeBit arg mk = .ok i) :
    ∃ bit : Bool, i = mk bit ∧ (if bit then 1 else 0) = arg := by
  unfold decodeBit at h
  split at h
  · next hle =>
    cases h
    refine ⟨_, rfl, ?_⟩
    obtain harg | harg : arg = 0 ∨ arg = 1 := by
      rcases Nat.le_one_iff_eq_zero_or_eq_one.1 hle with hz | ho
      · exact .inl (BitVec.eq_of_toNat_eq hz)
      · exact .inr (BitVec.eq_of_toNat_eq ho)
    all_goals subst harg; rfl
  · cases h

/-- A word that decodes spells the decoded command, which is legal (R75). -/
theorem encode_of_decode {p : Params} {w : Word} {i : Instr} (h : decode p w = .ok i) :
    i.wf p = true ∧ encode i = w := by
  unfold decode at h
  split at h
  case isFalse => cases h
  next hrz =>
  have hword : ∀ op : Nat, (opField w).toNat = op → w = commandWord (BitVec.ofNat 4 op) (argField w) := by
    rintro _ rfl
    rw [BitVec.ofNat_toNat, BitVec.setWidth_eq]
    exact eq_commandWord hrz
  have hplain : ∀ {op : Nat} {j : Instr}, (opField w).toNat = op → decodePlain (argField w) j = .ok i →
      encode j = commandWord (BitVec.ofNat 4 op) 0 → j.wf p = true → i.wf p = true ∧ encode i = w := by
    intro op j hop hdec henc hwf
    obtain ⟨harg, rfl⟩ := decodePlain_eq_ok.1 hdec
    exact ⟨hwf, by rw [henc, hword op hop, harg]⟩
  split at h
  case h_1 hop => exact hplain hop h rfl rfl
  case h_2 hop => exact hplain hop h rfl rfl
  case h_3 hop =>
    obtain ⟨sym, rfl, hsym, harg⟩ := decodeSymbol_ok h
    exact ⟨decide_eq_true hsym, by rw [hword _ hop, ← harg]; rfl⟩
  case h_4 hop => exact hplain hop h rfl rfl
  case h_5 hop => exact hplain hop h rfl rfl
  case h_6 hop =>
    obtain ⟨sym, rfl, hsym, harg⟩ := decodeSymbol_ok h
    exact ⟨decide_eq_true hsym, by rw [hword _ hop, ← harg]; rfl⟩
  case h_7 hop =>
    obtain ⟨bit, rfl, harg⟩ := decodeBit_ok h
    exact ⟨rfl, by rw [hword _ hop, ← harg]; rfl⟩
  case h_8 hop => exact hplain hop h rfl rfl
  case h_9 => cases h

/-- The word of a legal command decodes to it (R73). -/
theorem decode_encode_of_wf {p : Params} {i : Instr} (h : i.wf p = true) : decode p (encode i) = .ok i := by
  cases i with
  | nop | clr | bld | tbl | endStream => simp [decode, encode, decodePlain]
  | cnt sym | enc sym =>
    have hsym : sym.toNat < p.nsym := of_decide_eq_true h
    simp [decode, encode, decodeSymbol, -BitVec.toNat_setWidth, symbol_setWidth_toNat, hsym]
  | dec bit => cases bit <;> simp [decode, encode, decodeBit]

/-! ## `CLR` and `rst` -/

/-- `CLR` passes the checks in every phase and while halted, so it answers in one way (R129). -/
theorem answers_clr {p : Params} {b : Block p} {a : Block p × Rsp} :
    Answers .clr b a ↔ a = (Block.reset p, Rsp.plain) := by
  have hcheck : firstError .clr b = none := firstError_none.2 ⟨rfl, .inr rfl, rfl⟩
  simp [Answers, hcheck, bodyOf, clearAll, eq_comm]

/-- Settles O18: `CLR` answers in one way, with the reset block. -/
theorem clrResets : Obligations.ClrResets := by
  unfold Obligations.ClrResets
  exact fun s => ⟨exec_block.2 ⟨_, answers_clr.2 rfl, rfl⟩, Block.atReset_reset s.params⟩

/-- `rst` puts the block in its reset state and gives no response (R160). -/
theorem step_rst {s : State} {rest : List HostEvent} (hinbox : s.inbox = .rst :: rest) :
    step s = .next (s.withInbox rest).applyReset := by
  unfold step fetch
  rw [hinbox]

/-- A step on the word of `CLR` or on `rst` leaves the reset block (R129, R160, R161). -/
theorem step_clears {s t : State} {rest : List HostEvent} (hstep : step s = .next t)
    (hclear : s.inbox = .cmd (encode .clr) :: rest ∨ s.inbox = .rst :: rest) :
    ∃ l rs rd, t = ⟨s.params, Block.reset s.params, l, rs, rd⟩ := by
  rcases hclear with hinbox | hinbox
  · rw [step_cmd hinbox (decode_encode_of_wf rfl)] at hstep
    obtain ⟨a, ha, rfl⟩ := exec_block.1 hstep
    cases answers_clr.1 ha
    exact ⟨_, _, _, rfl⟩
  · rw [step_rst hinbox] at hstep
    cases hstep
    exact ⟨_, _, _, rfl⟩

/-! ## The cursor and the phase -/

/-- A body that moves the cursor is that of `BLD`, `CLR`, `END` or `DEC` (R27). -/
theorem bodyOf_cur {p : Params} {b : Block p} {i : Instr} {a : Block p × Rsp} (hbody : bodyOf i b = .ok a)
    (hcur : a.1.cur ≠ b.cur) : i = .bld ∨ i = .clr ∨ i = .endStream ∨ ∃ bit, i = .dec bit := by
  cases i with
  | bld | clr | endStream | dec _ => simp
  | nop => cases hbody; exact absurd rfl hcur
  | cnt sym =>
    cases hbody
    rcases cntBody_cases sym b with ⟨-, hcnt⟩ | ⟨-, hcnt⟩ <;>
      (rw [hcnt] at hcur; exact absurd rfl hcur)
  | tbl =>
    obtain ⟨_, -, rfl⟩ := tblBody_ok hbody
    exact absurd rfl hcur
  | enc sym =>
    cases hbody
    rcases encBody_cases sym b with ⟨-, henc⟩ | ⟨-, henc⟩ <;>
      (rw [henc] at hcur; exact absurd rfl hcur)

/-- The word in front of the inbox, when it decodes, is the word of the decoded command. -/
theorem inbox_eq_encode {s : State} {w : Word} {rest : List HostEvent} {i : Instr} (hinbox : s.inbox = .cmd w :: rest)
    (hdecode : decode s.params w = .ok i) : s.inbox = .cmd (encode i) :: rest := by
  rw [hinbox, (encode_of_decode hdecode).2]

/-- Settles O39: a failed check keeps the cursor, so a command that moved it is one whose body does (`bodyOf_cur`). -/
theorem cursorWriters : Obligations.CursorWriters := by
  unfold Obligations.CursorWriters
  intro s t hstep hmoved
  rcases step_block hstep with ⟨-, rfl⟩ | ⟨w, rest, i, a, hinbox, hdecode, ha, rfl⟩ | ⟨_, _, _, -, -, rfl⟩ |
    ⟨rest, hinbox, -⟩ | ⟨_, _, _, -, -, -, rfl⟩
  · exact absurd rfl hmoved
  · have hword := inbox_eq_encode hinbox hdecode
    refine ⟨rest, .inr ?_⟩
    rcases ha with ⟨_, -, rfl⟩ | ⟨-, hbody⟩
    · exact absurd rfl hmoved
    · rcases bodyOf_cur hbody (fun h => hmoved (congrArg BitVec.toNat h)) with rfl | rfl | rfl | ⟨bit, rfl⟩
      · exact .inl hword
      · exact .inr (.inl hword)
      · exact .inr (.inr (.inl hword))
      · exact .inr (.inr (.inr ⟨bit, hword⟩))
  · exact absurd rfl hmoved
  · exact ⟨rest, .inl hinbox⟩
  · exact absurd rfl hmoved

/-- A body that moves the phase is that of `BLD`, `TBL` or `CLR`, each to its own phase (R23). -/
theorem bodyOf_phase {p : Params} {b : Block p} {i : Instr} {a : Block p × Rsp} (hbody : bodyOf i b = .ok a)
    (hphase : a.1.phase ≠ b.phase) :
    (i = .bld ∧ a.1.phase = .tree) ∨ (i = .tbl ∧ a.1.phase = .table) ∨ (i = .clr ∧ a.1.phase = .count) := by
  cases i with
  | nop => cases hbody; exact absurd rfl hphase
  | clr => cases hbody; exact .inr (.inr ⟨rfl, rfl⟩)
  | cnt sym =>
    cases hbody
    rcases cntBody_cases sym b with ⟨-, hcnt⟩ | ⟨-, hcnt⟩ <;>
      (rw [hcnt] at hphase; exact absurd rfl hphase)
  | bld => cases hbody; exact .inl ⟨rfl, (bldBody_frame b).phase⟩
  | tbl =>
    obtain ⟨_, -, rfl⟩ := tblBody_ok hbody
    exact .inr (.inl ⟨rfl, rfl⟩)
  | enc sym =>
    cases hbody
    rcases encBody_cases sym b with ⟨-, henc⟩ | ⟨-, henc⟩ <;>
      (rw [henc] at hphase; exact absurd rfl hphase)
  | dec bit =>
    rcases decBody_ok hbody with ⟨-, rfl⟩ | ⟨-, -, rfl⟩ | ⟨-, -, -, ⟨-, rfl⟩ | ⟨-, rfl⟩⟩ <;> exact absurd rfl hphase
  | endStream =>
    cases hbody
    rcases endBody_cases b with ⟨-, hend⟩ | ⟨-, hend⟩ <;>
      (rw [hend] at hphase; exact absurd rfl hphase)

/-- Settles O40: the checks give the phase a move starts from, the body the one it ends in (`bodyOf_phase`). -/
theorem phaseMoves : Obligations.PhaseMoves := by
  unfold Obligations.PhaseMoves
  intro s t hstep hmoved
  rcases step_block hstep with ⟨-, rfl⟩ | ⟨w, rest, i, a, hinbox, hdecode, ha, rfl⟩ | ⟨_, _, _, -, -, rfl⟩ |
    ⟨rest, hinbox, rfl⟩ | ⟨_, _, _, -, -, -, rfl⟩
  · exact absurd rfl hmoved
  · have hword := inbox_eq_encode hinbox hdecode
    refine ⟨rest, ?_⟩
    rcases ha with ⟨_, -, rfl⟩ | ⟨hcheck, hbody⟩
    · exact absurd rfl hmoved
    · obtain ⟨-, -, haccepted⟩ := firstError_none.1 hcheck
      rcases bodyOf_phase hbody hmoved with ⟨rfl, hto⟩ | ⟨rfl, hto⟩ | ⟨rfl, hto⟩
      · exact .inl ⟨by simpa [acceptedIn] using haccepted, hto, hword⟩
      · exact .inr (.inl ⟨by simpa [acceptedIn] using haccepted, hto, hword⟩)
      · exact .inr (.inr ⟨hto, .inl hword⟩)
  · exact absurd rfl hmoved
  · exact ⟨rest, .inr (.inr ⟨rfl, .inr hinbox⟩)⟩
  · exact absurd rfl hmoved

/-! ## What a response says of `HALT` and the flags -/

/-- The flags after a response: an error sets its own, `OK` none (R29, R141). -/
def ErrFlags.after (f : ErrFlags) : Option Err → ErrFlags
  | none => f
  | some e => f.raised e

/-- A response accounts for what became of `HALT` and the flags: they changed as its error says, and only so (R28, R29). -/
structure Accounts {p : Params} (b : Block p) (a : Block p × Rsp) : Prop where
  err : a.1.err = b.err.after a.2.err
  halt : a.1.halt = (b.halt || a.2.err.any Err.fatal)

/-- A raised error accounts for itself (R141). -/
theorem accounts_raise {p : Params} (e : Err) (b : Block p) : Accounts b (raise e b) := ⟨rfl, rfl⟩

/-- An `OK` response accounts for a block with the same `HALT` and flags. -/
theorem accounts_of_ok {p : Params} {b : Block p} {a : Block p × Rsp} (hrsp : a.2.err = none) (herr : a.1.err = b.err)
    (hhalt : a.1.halt = b.halt) : Accounts b a := by
  refine ⟨?_, ?_⟩
  · rw [hrsp, herr]; rfl
  · rw [hrsp, hhalt]; exact (Bool.or_false _).symm

/-- The body of any command but `CLR` accounts for `HALT` and the flags, and reports no error of the checks (R140, R143). -/
theorem bodyOf_accounts {p : Params} {b : Block p} {i : Instr} {a : Block p × Rsp} (hbody : bodyOf i b = .ok a) :
    (i ≠ .clr → Accounts b a) ∧
      (a.2.err = none ∨ a.2.err = some .countOverflow ∨ a.2.err = some .symbolNotInTable ∨
        a.2.err = some .malformedDecodeInput) := by
  cases i with
  | nop => cases hbody; exact ⟨fun _ => accounts_of_ok rfl rfl rfl, .inl rfl⟩
  | clr => cases hbody; exact ⟨fun h => absurd rfl h, .inl rfl⟩
  | cnt sym =>
    cases hbody
    rcases cntBody_cases sym b with ⟨-, hcnt⟩ | ⟨-, hcnt⟩ <;> rw [hcnt]
    · exact ⟨fun _ => accounts_raise _ b, by simp⟩
    · exact ⟨fun _ => accounts_of_ok rfl rfl rfl, .inl rfl⟩
  | bld =>
    cases hbody
    have hok : (bldBody b).2.err = none := by rw [bldBody_rsp]; rfl
    exact ⟨fun _ => accounts_of_ok hok (bldBody_frame b).err (bldBody_frame b).halt, .inl hok⟩
  | tbl =>
    obtain ⟨_, -, rfl⟩ := tblBody_ok hbody
    exact ⟨fun _ => accounts_of_ok rfl rfl rfl, .inl rfl⟩
  | enc sym =>
    cases hbody
    rcases encBody_cases sym b with ⟨-, henc⟩ | ⟨-, henc⟩ <;> rw [henc]
    · exact ⟨fun _ => accounts_raise _ b, by simp⟩
    · exact ⟨fun _ => accounts_of_ok rfl rfl rfl, .inl rfl⟩
  | dec bit =>
    rcases decBody_ok hbody with ⟨-, rfl⟩ | ⟨-, -, rfl⟩ | ⟨-, -, -, ⟨-, rfl⟩ | ⟨-, rfl⟩⟩
    · exact ⟨fun _ => accounts_raise _ b, by simp⟩
    all_goals exact ⟨fun _ => accounts_of_ok rfl rfl rfl, .inl rfl⟩
  | endStream =>
    cases hbody
    rcases endBody_cases b with ⟨-, hend⟩ | ⟨-, hend⟩ <;> rw [hend]
    · exact ⟨fun _ => ⟨rfl, rfl⟩, by simp⟩
    · exact ⟨fun _ => accounts_of_ok rfl rfl rfl, .inl rfl⟩

/-- Whatever a command but `CLR` answers accounts for `HALT` and the flags. -/
theorem Answers.accounts {p : Params} {b : Block p} {i : Instr} {a : Block p × Rsp} (ha : Answers i b a)
    (hclr : i ≠ .clr) : Accounts b a := by
  rcases ha with ⟨e, -, rfl⟩ | ⟨-, hbody⟩
  · exact accounts_raise e b
  · exact (bodyOf_accounts hbody).1 hclr

/-! ## The checks -/

/-- The errors of the checks are reported by the checks alone: a body reports none of them (R140, R143). -/
theorem answers_check_error {p : Params} {b : Block p} {i : Instr} {e : Err}
    (he : e = .illegal ∨ e = .halted ∨ e = .seq) :
    (∃ a, Answers i b a ∧ a.2.err = some e) ↔ firstError i b = some e := by
  constructor
  · rintro ⟨a, ⟨e', hcheck, rfl⟩ | ⟨-, hbody⟩, herr⟩
    · rw [hcheck]; exact herr
    · rcases (bodyOf_accounts hbody).2 with h | h | h | h <;> rw [h] at herr <;> rcases he with rfl | rfl | rfl <;>
        cases herr
  · exact fun hcheck => ⟨_, .inl ⟨e, hcheck, rfl⟩, rfl⟩

/-- A command answers with an error of the checks exactly when that check is the first to fail. -/
theorem exec_check_error {s : State} {i : Instr} {e : Err} (he : e = .illegal ∨ e = .halted ∨ e = .seq) :
    (∃ t r, exec i s = .next t ∧ t.rsps = s.rsps ++ [r] ∧ r.err = some e) ↔ firstError i s.blk = some e := by
  rw [← answers_check_error he]
  constructor
  · rintro ⟨t, r, hexec, hrsps, herr⟩
    obtain ⟨a, ha, rfl⟩ := exec_block.1 hexec
    cases (List.append_cancel_left hrsps)
    exact ⟨a, ha, herr⟩
  · rintro ⟨a, ha, herr⟩
    exact ⟨_, a.2, exec_block.2 ⟨a, ha, rfl⟩, rfl, herr⟩

/-- A legal command is refused for the phase exactly when it passes the halt check and the phase does not accept it. -/
theorem firstError_seq {p : Params} {i : Instr} {b : Block p} (hwf : i.wf p = true) (hhalt : b.halt = false) :
    firstError i b = some .seq ↔ acceptedIn i b.phase = false := by
  unfold firstError
  cases h : acceptedIn i b.phase <;> simp [hwf, hhalt]

/-- `CLR` is the one command accepted while halted (R28). -/
theorem acceptedWhileHalted_eq_false {i : Instr} : acceptedWhileHalted i = false ↔ i ≠ .clr := by
  cases i <;> simp [acceptedWhileHalted]

/-- A legal command is refused for the halt exactly when the block is halted and the command is not `CLR` (R28, R144). -/
theorem firstError_halted {p : Params} {i : Instr} {b : Block p} (hwf : i.wf p = true) :
    firstError i b = some .halted ↔ b.halt = true ∧ i ≠ .clr := by
  rw [← acceptedWhileHalted_eq_false]
  unfold firstError
  cases b.halt <;> cases acceptedWhileHalted i <;> cases acceptedIn i b.phase <;> simp [hwf]

/-- Settles O11: the error is that of the first failing check, and `acceptedIn` is the table's column "phase". -/
theorem acceptanceTable : Obligations.AcceptanceTable := by
  unfold Obligations.AcceptanceTable
  intro s i hwf
  refine ⟨fun hhalt => ?_, ?_⟩
  · rw [exec_check_error (by simp), firstError_seq hwf hhalt]
    cases i <;> simp [acceptedIn]
  · rw [exec_check_error (by simp), firstError_halted hwf]

/-! ## `HALT` and the flags over a step -/

/-- What a step can do to `HALT` and the flags: `rst` and `CLR` clear them and report no error; a step without a response
leaves them; any other response accounts for them (R28, R29). -/
theorem step_flags {s t : State} (hstep : step s = .next t) :
    ((∃ rest, s.inbox = .cmd (encode .clr) :: rest ∨ s.inbox = .rst :: rest) ∧ t.blk.halt = false ∧
        t.blk.err = ⟨false, false, false, false, false⟩ ∧ ∀ r, t.rsps = s.rsps ++ [r] → r.err = none) ∨
      (t.rsps = s.rsps ∧ t.blk.halt = s.blk.halt ∧ t.blk.err = s.blk.err) ∨
      ∃ r, t.rsps = s.rsps ++ [r] ∧ t.blk.halt = (s.blk.halt || r.err.any Err.fatal) ∧
        t.blk.err = s.blk.err.after r.err := by
  rcases step_block hstep with ⟨-, rfl⟩ | ⟨w, rest, i, a, hinbox, hdecode, ha, rfl⟩ | ⟨_, _, _, -, -, rfl⟩ |
    ⟨rest, hinbox, rfl⟩ | ⟨_, _, _, -, -, -, rfl⟩
  · exact .inr (.inl ⟨rfl, rfl, rfl⟩)
  · by_cases hclr : i = .clr
    · subst hclr
      rw [answers_clr] at ha
      subst ha
      refine .inl ⟨⟨rest, .inl (inbox_eq_encode hinbox hdecode)⟩, rfl, rfl, fun r hr => ?_⟩
      cases List.append_cancel_left hr
      rfl
    · obtain ⟨herr, hhalt⟩ := ha.accounts hclr
      exact .inr (.inr ⟨a.2, rfl, hhalt, herr⟩)
  · obtain ⟨herr, hhalt⟩ := accounts_raise .illegal s.blk
    exact .inr (.inr ⟨Rsp.error .illegal, rfl, hhalt, herr⟩)
  · exact .inl ⟨⟨rest, .inr hinbox⟩, rfl, rfl, fun r hr => absurd (congrArg List.length hr) (by simp)⟩
  · exact .inr (.inl ⟨rfl, rfl, rfl⟩)

/-- The fatal errors are the two of R28. -/
theorem any_fatal_iff (e : Option Err) :
    e.any Err.fatal = true ↔ e = some .countOverflow ∨ e = some .symbolNotInTable := by
  cases e with
  | none => simp
  | some e => cases e <;> simp [Err.fatal]

/-- Refusing a command while halted changes nothing in the block: `HALTED` has no flag and is not fatal (R141). -/
theorem raise_halted {p : Params} (b : Block p) : raise .halted b = (b, Rsp.error .halted) := by
  simp [raise, ErrFlags.raised, Err.fatal]

/-- A halted block answers every legal command but `CLR` with `HALTED`, and changes nothing (R28, R144). -/
theorem step_while_halted {s : State} {w : Word} {rest : List HostEvent} {i : Instr} (hhalt : s.blk.halt = true)
    (hinbox : s.inbox = .cmd w :: rest) (hdecode : decode s.params w = .ok i) (hclr : i ≠ .clr) :
    step s = .next { s with inbox := rest, rsps := s.rsps ++ [⟨some .halted, false, 0, []⟩] } := by
  have hcheck : firstError i (s.withInbox rest).blk = some .halted :=
    (firstError_halted (encode_of_decode hdecode).1).2 ⟨hhalt, hclr⟩
  rw [step_cmd hinbox hdecode, exec_of_error hcheck, raise_halted]
  rfl

/-- Settles O13: each sentence is read off `step_flags`, the refusals off `step_while_halted`. -/
theorem haltRule : Obligations.HaltRule := by
  unfold Obligations.HaltRule
  refine ⟨fun s t hstep hbefore hafter => ?_, fun s t r hstep hrsps hfatal => ?_,
    fun s w rest i hhalt hinbox hdecode hclr => step_while_halted hhalt hinbox hdecode hclr,
    fun s t hstep hbefore hafter => ?_⟩
  · rcases step_flags hstep with ⟨-, hhalt, -⟩ | ⟨-, hhalt, -⟩ | ⟨r, hrsps, hhalt, -⟩
    · rw [hhalt] at hafter; cases hafter
    · rw [hhalt, hbefore] at hafter; cases hafter
    · rw [hhalt, hbefore, Bool.false_or] at hafter
      exact ⟨r, hrsps, (any_fatal_iff _).1 hafter⟩
  · rcases step_flags hstep with ⟨-, -, -, hok⟩ | ⟨hnone, -⟩ | ⟨r', hrsps', hhalt, -⟩
    · rw [hok r hrsps] at hfatal; simp at hfatal
    · rw [hnone] at hrsps
      exact absurd (congrArg List.length hrsps) (by simp)
    · cases List.append_cancel_left (hrsps.symm.trans hrsps')
      rw [hhalt, (any_fatal_iff _).2 hfatal, Bool.or_true]
  · rcases step_flags hstep with ⟨hclear, -⟩ | ⟨-, hhalt, -⟩ | ⟨r, -, hhalt, -⟩
    · exact hclear
    · rw [hhalt, hbefore] at hafter; cases hafter
    · rw [hhalt, hbefore, Bool.true_or] at hafter; cases hafter

/-- Each flag after a response: set before, or set by its own error (R29, R141). -/
theorem ErrFlags.after_iff (f : ErrFlags) (e : Option Err) :
    ((f.after e).ill = true ↔ f.ill = true ∨ e = some .illegal) ∧
    ((f.after e).seq = true ↔ f.seq = true ∨ e = some .seq) ∧
    ((f.after e).ovf = true ↔ f.ovf = true ∨ e = some .countOverflow) ∧
    ((f.after e).nosym = true ↔ f.nosym = true ∨ e = some .symbolNotInTable) ∧
    ((f.after e).mal = true ↔ f.mal = true ∨ e = some .malformedDecodeInput) := by
  cases e with
  | none => simp [ErrFlags.after]
  | some e => cases e <;> simp [ErrFlags.after, ErrFlags.raised]

/-- The responses received since `s` are what was appended to those of `s`. -/
theorem State.newSince_of_append {s t : State} {rs : List Rsp} (h : t.rsps = s.rsps ++ rs) : t.newSince s = rs := by
  unfold State.newSince
  rw [h, List.drop_left]

/-- Settles O14: `step_flags` and, flag by flag, `ErrFlags.after_iff`. -/
theorem flagsAreSticky : Obligations.FlagsAreSticky := by
  unfold Obligations.FlagsAreSticky
  refine ⟨fun s t hstep hrst hclr => ?_, fun s t rest hstep hclear => ?_⟩
  · rcases step_flags hstep with ⟨⟨rest, hinbox⟩, -⟩ | ⟨hrsps, -, herr⟩ | ⟨r, hrsps, -, herr⟩
    · exact (hinbox.elim (hclr rest) (hrst rest)).elim
    · rw [State.newSince_of_append (rs := []) (by simpa using hrsps), herr]
      simp
    · rw [State.newSince_of_append hrsps, herr]
      simpa using ErrFlags.after_iff s.blk.err r.err
  · obtain ⟨_, _, _, rfl⟩ := step_clears hstep hclear.symm
    rfl

/-! ## The read ports and the status space -/

/-- The status space has five words; the indices above read as zero (R30). -/
theorem csrRead_of_five_le {p : Params} (b : Block p) (a : BitVec 3) (h : 5 ≤ a.toNat) : csrRead b a = 0 := by
  unfold csrRead
  split
  case h_6 => rfl
  all_goals omega

/-- A read-port access is served at once, and only the log of read words grows (R52). -/
theorem step_served {s u : State} (h : fetch s = .served u) : step s = .next u := by
  unfold step
  rw [h]

/-- Settles O10: each port is served its own word, and the port's `if` is the bound of the space (R52, R53). -/
theorem readPorts : Obligations.ReadPorts := by
  unfold Obligations.ReadPorts
  intro s rest
  refine ⟨fun a hinbox => ⟨readFreqPort s.blk a, ?_, fun hlt => if_pos hlt, fun hge => if_neg (by omega)⟩,
    fun a hinbox => ⟨readNodePort s.blk a, ?_, fun hlt => if_pos hlt, fun hge => if_neg (by omega)⟩,
    fun a hinbox => ⟨readCodePort s.blk a, ?_, fun hlt => if_pos hlt, fun hge => if_neg (by omega)⟩,
    fun a hinbox => ⟨csrRead s.blk a, ?_, rfl, csrRead_of_five_le s.blk a⟩⟩
  all_goals
    apply step_served
    unfold fetch
    rw [hinbox]
    rfl

/-- A node index, zero-extended to a status word, keeps its value: it has at most 17 bits (R8, R30). -/
theorem toNat_setWidth_idx {p : Params} (i : BitVec p.idxW) : (i.setWidth 32).toNat = i.toNat := by
  have hi : i.toNat < 2 * p.nsym := p.two_pow_idxW ▸ i.isLt
  have := p.nsym_le
  rw [BitVec.toNat_setWidth, Nat.mod_eq_of_lt (by omega)]

/-- `STATUS` bit by bit (R31). -/
theorem statusWord_bits {p : Params} (b : Block p) :
    (statusWord b).getLsbD 2 = b.rootValid ∧ (statusWord b).getLsbD 3 = b.halt ∧ (statusWord b).getLsbD 4 = b.err.ill ∧
    (statusWord b).getLsbD 5 = b.err.seq ∧ (statusWord b).getLsbD 6 = b.err.ovf ∧
    (statusWord b).getLsbD 7 = b.err.nosym ∧ (statusWord b).getLsbD 8 = b.err.mal := by
  unfold statusWord
  simp only [BitVec.getLsbD_append, Nat.reduceLT, Nat.reduceSub, if_false, if_true, BitVec.getLsbD_ofBool, Nat.lt_irrefl,
    Nat.sub_self, decide_true, Bool.true_and, and_self]

/-- Settles O44: `STATUS` by its bits, the two-bit phase and the zeros above by extraction from the appended fields. -/
theorem statusSpace : Obligations.StatusSpace := by
  unfold Obligations.StatusSpace
  intro p b
  obtain ⟨hrootValid, hhalt, hill, hseq, hovf, hnosym, hmal⟩ := statusWord_bits b
  refine ⟨?_, hrootValid, hhalt, hill, hseq, hovf, hnosym, hmal, ?_, toNat_setWidth_idx _, toNat_setWidth_idx _,
    toNat_setWidth_idx _, toNat_setWidth_idx _, rfl, rfl, rfl⟩
  · trans b.phase.bits
    · exact BitVec.extractLsb'_append_eq_right
    · cases b.phase <;> rfl
  · show (statusWord b).extractLsb' 9 23 = 0
    unfold statusWord
    simp (disch := decide) only [BitVec.extractLsb'_append_eq_of_le, Nat.reduceSub]
    rfl

/-! ## Packed words -/

/-- The packed NODE word without the change of width, which the layout's own sum of widths makes (R8, R33). -/
theorem NodeWord.extract_pack {p : Params} (w : NodeWord p) {start len : Nat} (h : start + len ≤ p.nodeW) :
    w.pack.extractLsb' start len =
      (BitVec.ofBool w.isLeaf ++ w.sym ++ w.left ++ w.right ++ w.weight).extractLsb' start len :=
  BitVec.extractLsb'_setWidth_of_le h

/-- Settles O45: each extract passes over the fields below its own, which the append puts in the low bits. -/
theorem packedWords : Obligations.PackedWords := by
  unfold Obligations.PackedWords
  intro p
  have hwidth : p.nodeW = 1 + p.symW + 2 * p.idxW + p.wW := rfl
  refine ⟨fun w => ⟨?_, ?_, ?_, ?_, ?_⟩,
    fun c => ⟨BitVec.extractLsb'_append_eq_left, BitVec.extractLsb'_append_eq_right⟩⟩
  · unfold NodeWord.pack
    rw [BitVec.getLsbD_setWidth, BitVec.getLsbD_append, if_neg (by omega), BitVec.getLsbD_append, if_neg (by omega),
      BitVec.getLsbD_append, if_neg (by omega), BitVec.getLsbD_append, if_neg (by omega)]
    have : p.nodeW - 1 - p.wW - p.idxW - p.idxW - p.symW = 0 := by omega
    rw [this]
    simp
  · rw [w.extract_pack (by omega), BitVec.extractLsb'_append_eq_of_le (by omega),
      BitVec.extractLsb'_append_eq_of_le (by omega), BitVec.extractLsb'_append_eq_of_le (by omega)]
    rw [show p.wW + 2 * p.idxW - p.wW - p.idxW - p.idxW = 0 by omega]
    exact BitVec.extractLsb'_append_eq_right
  · rw [w.extract_pack (by omega), BitVec.extractLsb'_append_eq_of_le (by omega),
      BitVec.extractLsb'_append_eq_of_le (by omega)]
    rw [show p.wW + p.idxW - p.wW - p.idxW = 0 by omega]
    exact BitVec.extractLsb'_append_eq_right
  · rw [w.extract_pack (by omega), BitVec.extractLsb'_append_eq_of_le (by omega)]
    rw [show p.wW - p.wW = 0 by omega]
    exact BitVec.extractLsb'_append_eq_right
  · rw [w.extract_pack (by omega)]
    exact BitVec.extractLsb'_append_eq_right

/-! ## Counting -/

/-- The block after an accepted `CNT` below the bound: one more occurrence of the symbol (R91). -/
def countOne {p : Params} (b : Block p) (sym : Symbol) : Block p :=
  { b with freq := Memory.write 0 b.freq sym.toNat (freqAt b sym.toNat + 1) }

/-- `CNT` of a legal symbol below the bound counts it and answers `OK` (R91). -/
theorem answers_cnt {p : Params} {b : Block p} {sym : Symbol} (hsym : sym.toNat < p.nsym) (hhalt : b.halt = false)
    (hphase : b.phase = .count) (hlt : (freqAt b sym.toNat).toNat < p.cntMax) :
    Answers (.cnt sym) b (countOne b sym, Rsp.plain) := by
  refine .inr ⟨firstError_none.2 ⟨decide_eq_true hsym, .inl hhalt, by rw [hphase]; rfl⟩, congrArg Except.ok ?_⟩
  rcases cntBody_cases sym b with ⟨hmax, -⟩ | ⟨-, hcnt⟩
  · omega
  · exact hcnt

/-- The counts after a symbol is counted, as numbers: one more for it, the others as before (R91, R93). -/
theorem freqAt_countOne {p : Params} (b : Block p) {sym : Symbol} (x : Symbol)
    (hlt : (freqAt b sym.toNat).toNat < p.cntMax) :
    (freqAt (countOne b sym) x.toNat).toNat = (freqAt b x.toNat).toNat + if sym = x then 1 else 0 := by
  unfold countOne
  by_cases hx : sym = x
  · subst hx
    rw [freqAt, Memory.read_write_same, freq_succ_toNat _ (by omega), if_pos rfl]
  · have hne : x.toNat ≠ sym.toNat := fun h => hx (BitVec.eq_of_toNat_eq h.symm)
    rw [freqAt, Memory.read_write_other _ _ _ _ _ hne, if_neg hx]
    rfl

/-- A run of `CNT` from any idle counting state whose counts leave room: every response is `OK`, each count grows by the
number of occurrences, and only FREQ and the responses change (R90, R91). -/
theorem run_cnt (l : List Symbol) :
    ∀ s : State, s.inbox = [] → s.blk.halt = false → s.blk.phase = .count → (∀ x ∈ l, x.toNat < s.params.nsym) →
      (∀ x : Symbol, (freqAt s.blk x.toNat).toNat + l.count x ≤ s.params.cntMax) →
      ∃ f : Memory (BitVec s.params.cntW),
        run l.length (s.present (l.map .cnt)) = .next { s with
          blk := { s.blk with freq := f }, rsps := s.rsps ++ l.map (fun _ => Rsp.plain) } ∧
        ∀ x : Symbol, (Memory.read 0 f x.toNat).toNat = (freqAt s.blk x.toNat).toNat + l.count x := by
  induction l with
  | nil =>
    intro s _ _ _ _ _
    exact ⟨s.blk.freq, by simp, fun _ => rfl⟩
  | cons sym l ih =>
    intro s hidle hhalt hphase hsyms hroom
    have hsym := hsyms sym List.mem_cons_self
    have hwf : Instr.wf s.params (.cnt sym) = true := decide_eq_true hsym
    have hlt : (freqAt s.blk sym.toNat).toNat < s.params.cntMax := by
      have := hroom sym
      rw [List.count_cons_self] at this
      omega
    have hstep : ∀ x : Symbol,
        (freqAt (s.answer (countOne s.blk sym, Rsp.plain)).blk x.toNat).toNat + l.count x =
          (freqAt s.blk x.toNat).toNat + (sym :: l).count x := fun x => by
      have hone := freqAt_countOne s.blk x hlt
      rw [List.count_cons]
      simp only [beq_iff_eq]
      exact (congrArg (· + l.count x) hone).trans (by omega)
    obtain ⟨f, hrun, hf⟩ := ih (s.answer (countOne s.blk sym, Rsp.plain)) hidle hhalt hphase
      (fun x hx => hsyms x (List.mem_cons_of_mem _ hx)) (fun x => (hstep x).trans_le (hroom x))
    refine ⟨f, ?_, fun x => (hf x).trans (hstep x)⟩
    rw [List.length_cons, List.map_cons,
      run_present _ _ hidle (decode_encode_of_wf hwf) (answers_cnt hsym hhalt hphase hlt), hrun]
    simp [State.answer, countOne]

/-- Settles O21: `run_cnt` from the reset state, whose counts are zero. -/
theorem freqIsCount : Obligations.FreqIsCount := by
  unfold Obligations.FreqIsCount
  intro p l hsyms hbound
  have hzero : ∀ x : Symbol, (freqAt (State.resetAt p).blk x.toNat).toNat = 0 := fun _ => BitVec.toNat_zero
  have hroom : ∀ x : Symbol, (freqAt (State.resetAt p).blk x.toNat).toNat + l.count x ≤ p.cntMax := fun x => by
    rw [hzero, Nat.zero_add]; exact hbound x
  obtain ⟨f, hrun, hcount⟩ := run_cnt l (State.resetAt p) rfl rfl rfl hsyms hroom
  exact ⟨f, hrun, fun x => (hcount x).trans (by rw [hzero, Nat.zero_add])⟩

/-! ## `BLD` and `TBL` -/

/-- `BLD` passes the checks in phase `COUNT` when the block is not halted (R143). -/
theorem firstError_bld {p : Params} {b : Block p} (hhalt : b.halt = false) (hphase : b.phase = .count) :
    firstError .bld b = none := firstError_none.2 ⟨rfl, .inl hhalt, by rw [hphase]; rfl⟩

/-- `TBL` passes the checks in phase `TREE` when the block is not halted (R143). -/
theorem firstError_tbl {p : Params} {b : Block p} (hhalt : b.halt = false) (hphase : b.phase = .tree) :
    firstError .tbl b = none := firstError_none.2 ⟨rfl, .inl hhalt, by rw [hphase]; rfl⟩

/-- Settles O29: `Block.Inv.tbl` gives the table, and its invariant in phase `TABLE` is `TableOk`. -/
theorem tblMakesTable : Obligations.TblMakesTable := by
  unfold Obligations.TblMakesTable
  intro s hinv hhalt hphase
  obtain ⟨code, hbody, hinv'⟩ := Block.Inv.tbl hinv hphase
  exact ⟨code, exec_of_ok (firstError_tbl hhalt hphase) hbody, hinv'.table rfl⟩

/-- `NLEAF` after `BLD` is the number of counted symbols, with any or none (R24). -/
theorem bldBody_nleaf {p : Params} (b : Block p) : (bldBody b).1.nleaf.toNat = keyCount b := by
  rw [(bldBody_registers b).nleaf, keyCount_congr (bldBody_frame b).freq]

/-- Node `i` below `NLEAF` after `BLD` is the leaf of the `i`-th counted symbol (R97). -/
theorem bldBody_leaf {p : Params} (b : Block p) (i : Nat) (hi : i < (keysBelow b.freq p.nsym).length) :
    nodeOf (bldBody b).1 i = leafWord (keysBelow b.freq p.nsym)[i] (freqAt b (keysBelow b.freq p.nsym)[i]) := by
  have hkeys : keyCount b ≠ 0 := by rw [← keysBelow_length]; omega
  exact (bldBody_tree b hkeys).leaf i hi

/-- The `i`-th counted symbol is a symbol with a count. -/
theorem keysBelow_getElem {p : Params} (freq : Memory (BitVec p.cntW)) (n i : Nat) (hi : i < (keysBelow freq n).length) :
    (keysBelow freq n)[i] < n ∧ Memory.read 0 freq (keysBelow freq n)[i] ≠ 0 :=
  (mem_keysBelow freq n _).1 (List.getElem_mem hi)

/-- The symbol of leaf `i` after `BLD` is the `i`-th counted symbol. -/
theorem bldBody_leaf_sym {p : Params} (b : Block p) (i : Nat) (hi : i < (keysBelow b.freq p.nsym).length) :
    (nodeOf (bldBody b).1 i).sym.toNat = (keysBelow b.freq p.nsym)[i] := by
  rw [bldBody_leaf b i hi, leafWord_sym _ _ (keysBelow_getElem _ _ i hi).1]

/-- From `NNODE` on `BLD` writes no node (R97, R102). -/
theorem bldBody_rest {p : Params} (b : Block p) (i : Nat) (hi : (bldBody b).1.nnode.toNat ≤ i) :
    nodeOf (bldBody b).1 i = nodeOf b i := by
  by_cases hkeys : keyCount b = 0
  · obtain ⟨-, -, -, -, hnode, -⟩ := bldBody_empty b hkeys
    exact hnode i
  · have htree := bldBody_tree b hkeys
    exact htree.rest i (htree.nnode ▸ hi)

/-- `BLD` answers `OK` and writes nothing but the tree, its registers, the cursor and the phase (R97). -/
theorem bldBody_eq {p : Params} (b : Block p) :
    bldBody b = ({ b with
      phase := .tree, node := (bldBody b).1.node, nleaf := (bldBody b).1.nleaf, nnode := (bldBody b).1.nnode,
      root := (bldBody b).1.root, rootValid := (bldBody b).1.rootValid, cur := (bldBody b).1.root }, Rsp.plain) := by
  have hframe := bldBody_frame b
  refine Prod.ext ?_ (bldBody_rsp b)
  generalize (bldBody b).1 = t at hframe
  obtain ⟨hphase, hcur, hhalt, herr, hfreq, hcode⟩ := hframe
  cases t
  simp_all

/-- Settles O23: the first `NLEAF` nodes are `leafWord` of the counted symbols in ascending order. -/
theorem bldLeaves : Obligations.BldLeaves := by
  unfold Obligations.BldLeaves
  intro s hhalt hphase
  have hlen := keysBelow_length s.blk
  have hnleaf := bldBody_nleaf s.blk
  refine ⟨(bldBody s.blk).1, ?_, hnleaf, fun i hi => ?_, fun i hi => ?_, fun x hx hcounted => ?_,
    bldBody_rest s.blk⟩
  · rw [exec_of_ok (firstError_bld hhalt hphase) (congrArg Except.ok (bldBody_eq s.blk))]
    rfl
  · have hi' : i < (keysBelow s.blk.freq s.params.nsym).length := by omega
    have hkey := keysBelow_getElem _ _ i hi'
    rw [bldBody_leaf_sym _ i hi', bldBody_leaf _ i hi', leafWord_weight]
    exact ⟨rfl, rfl, rfl, hkey.2, rfl⟩
  · rw [bldBody_leaf_sym _ i (by omega), bldBody_leaf_sym _ (i + 1) (by omega)]
    exact List.pairwise_iff_getElem.1 (keysBelow_sorted _ _) i (i + 1) _ _ (Nat.lt_succ_self i)
  · obtain ⟨i, hi, hget⟩ := List.mem_iff_getElem.1 ((mem_keysBelow s.blk.freq s.params.nsym x).2 ⟨hx, hcounted⟩)
    exact ⟨i, by omega, by rw [bldBody_leaf_sym _ i hi, hget]⟩

/-! ## Where `DEC` and `TBL` stop -/

/-- A node access stops exactly at an index that names no NODE word (R53). -/
theorem nodeAt_eq_error {p : Params} {m : Memory (NodeWord p)} {i : BitVec p.idxW} {f : Fault} :
    nodeAt m i = .error f ↔ ¬ i.toNat < p.maxNode ∧ .nodeIndexOutOfRange = f := by
  unfold nodeAt
  split
  · next h => simp only [h, not_true, false_and, reduceCtorEq]
  · next h => simp only [h, not_false_eq_true, true_and, Except.error.injEq]

/-- Where a transition of the cursor stops: off the memory, on a leaf, or at a child off the memory (R125). -/
theorem moveCursor_eq_error {p : Params} {b : Block p} {bit : Bool} {f : Fault} :
    moveCursor bit b = .error f ↔
      (¬ b.cur.toNat < p.maxNode ∧ .nodeIndexOutOfRange = f) ∨
        (b.cur.toNat < p.maxNode ∧ (nodeOf b b.cur.toNat).isLeaf = true ∧ .malformedTree = f) ∨
        (b.cur.toNat < p.maxNode ∧ (nodeOf b b.cur.toNat).isLeaf = false ∧
          ¬ ((nodeOf b b.cur.toNat).child bit).toNat < p.maxNode ∧ .nodeIndexOutOfRange = f) := by
  unfold moveCursor nodeOf
  by_cases hcur : b.cur.toNat < p.maxNode
  · rw [nodeAt_ok hcur]
    simp only [hcur, not_true, false_and, true_and, false_or]
    cases (nodeRead b.node b.cur.toNat).isLeaf with
    | true => simp
    | false =>
      simp only [Bool.false_eq_true, if_false, false_and, true_and, false_or]
      rw [← nodeAt_eq_error (m := b.node)]
      cases nodeAt b.node ((nodeRead b.node b.cur.toNat).child bit) with
      | error g => simp
      | ok next => cases hnext : next.isLeaf <;> simp [hnext]
  · rw [nodeAt_eq_error.2 ⟨hcur, rfl⟩]
    simp only [hcur, not_false_eq_true, true_and, false_and, or_false, Except.error.injEq]

/-- Where the body of `DEC` stops: with a tree, at a root off the memory, or, below an internal root, where the transition
does. -/
theorem decBody_eq_error {p : Params} {b : Block p} {bit : Bool} {f : Fault} :
    decBody bit b = .error f ↔
      b.rootValid = true ∧
        ((¬ b.root.toNat < p.maxNode ∧ .nodeIndexOutOfRange = f) ∨
          (b.root.toNat < p.maxNode ∧ (nodeOf b b.root.toNat).isLeaf = false ∧ moveCursor bit b = .error f)) := by
  unfold decBody nodeOf
  by_cases hvalid : b.rootValid = true
  · rw [if_pos hvalid]
    by_cases hroot : b.root.toNat < p.maxNode
    · rw [nodeAt_ok hroot]
      simp only [hvalid, hroot, not_true, false_and, true_and, false_or]
      cases (nodeRead b.node b.root.toNat).isLeaf <;> simp
    · rw [nodeAt_eq_error.2 ⟨hroot, rfl⟩]
      simp only [hvalid, hroot, not_false_eq_true, true_and, false_and, or_false, Except.error.injEq]
  · simp [hvalid]

/-- The code table stops where the walk from the root of a valid tree does: a root that is a leaf stops neither (R106). -/
theorem codeTable_eq_error {p : Params} {b : Block p} {f : Fault} :
    codeTable b = .error f ↔ b.rootValid = true ∧ walk b.node (p.maxLen + 1) b.root 0 0 [] = .error f := by
  unfold codeTable
  by_cases hvalid : b.rootValid = true
  · rw [if_pos hvalid]
    rcases walk_succ b.node p.maxLen b.root 0 0 [] with ⟨hroot, hwalk⟩ | ⟨hroot, hleaf, code, hwalk⟩ | ⟨hroot, hleaf, -⟩
    · rw [nodeAt_eq_error.2 ⟨Nat.not_lt.2 hroot, rfl⟩, hwalk]
      simp [hvalid]
    · rw [nodeAt_ok hroot, hwalk]
      simp [hleaf]
    · rw [nodeAt_ok hroot]
      simp [hvalid, hleaf]
  · simp [hvalid]

/-- The body of `TBL` stops exactly where the code table does. -/
theorem tblBody_eq_error {p : Params} {b : Block p} {f : Fault} : tblBody b = .error f ↔ codeTable b = .error f := by
  unfold tblBody
  cases codeTable b <;> simp

/-- Only `TBL` and `DEC` have a body that stops, and only with a tree. -/
theorem bodyOf_eq_error {p : Params} {b : Block p} {i : Instr} {f : Fault} (h : bodyOf i b = .error f) :
    b.rootValid = true ∧ (i = .tbl ∨ ∃ bit, i = .dec bit) := by
  cases i with
  | nop | clr | cnt _ | bld | enc _ | endStream => cases h
  | dec bit => exact ⟨(decBody_eq_error.1 h).1, .inr ⟨bit, rfl⟩⟩
  | tbl => exact ⟨(codeTable_eq_error.1 (tblBody_eq_error.1 h)).1, .inl rfl⟩

/-- A command that stops is `TBL` in phase `TREE` or `DEC` outside `COUNT`, on a block that has a tree and is not halted. -/
theorem exec_fault_only {s : State} {i : Instr} {f : Fault} (h : exec i s = .fault f) :
    s.blk.halt = false ∧ s.blk.rootValid = true ∧
      ((i = .tbl ∧ s.blk.phase = .tree) ∨ ((∃ bit, i = .dec bit) ∧ s.blk.phase ≠ .count)) := by
  obtain ⟨hcheck, hbody⟩ := exec_fault.1 h
  obtain ⟨-, hhalt, haccepted⟩ := firstError_none.1 hcheck
  obtain ⟨hvalid, rfl | ⟨bit, rfl⟩⟩ := bodyOf_eq_error hbody
  · exact ⟨by simpa [acceptedWhileHalted] using hhalt, hvalid, .inl ⟨rfl, by simpa [acceptedIn] using haccepted⟩⟩
  · exact ⟨by simpa [acceptedWhileHalted] using hhalt, hvalid, .inr ⟨⟨bit, rfl⟩, by simpa [acceptedIn] using haccepted⟩⟩

/-- `DEC` passes the checks outside phase `COUNT` when the block is not halted (R143). -/
theorem firstError_dec {p : Params} {b : Block p} (bit : Bool) (hhalt : b.halt = false) (hphase : b.phase ≠ .count) :
    firstError (.dec bit) b = none :=
  firstError_none.2 ⟨rfl, .inl hhalt, by simpa [acceptedIn] using hphase⟩

/-- Accepted with a tree, `TBL` stops exactly where the walk from the root does. -/
theorem exec_tbl_fault {s : State} {f : Fault} (hhalt : s.blk.halt = false) (hvalid : s.blk.rootValid = true)
    (hphase : s.blk.phase = .tree) :
    exec .tbl s = .fault f ↔ walk s.blk.node (s.params.maxLen + 1) s.blk.root 0 0 [] = .error f := by
  rw [exec_fault, bodyOf, tblBody_eq_error, codeTable_eq_error]
  simp [firstError_tbl hhalt hphase, hvalid]

/-- Settles O50: `DEC` by `decBody_eq_error` and `moveCursor_eq_error`, `TBL` by the walk's `walk_error_iff` and
`walk_error_path`. -/
theorem stopsOffTree : Obligations.StopsOffTree := by
  unfold Obligations.StopsOffTree
  refine ⟨fun s i f hfault => exec_fault_only hfault, fun s bit hhalt hvalid hphase => ?_,
    fun s hhalt hvalid hphase => ?_⟩
  · have hfault : ∀ f, exec (.dec bit) s = .fault f ↔ decBody bit s.blk = .error f := fun f => by
      rw [exec_fault]
      exact and_iff_right (firstError_dec bit hhalt hphase)
    rw [hfault, hfault, decBody_eq_error, decBody_eq_error, moveCursor_eq_error, moveCursor_eq_error]
    simp only [hvalid, true_and, ← Nat.not_lt, reduceCtorEq, and_false, and_true, or_false, false_or]
    tauto
  · have hfault := fun f => exec_tbl_fault (f := f) hhalt hvalid hphase
    simp only [hfault]
    refine ⟨walk_error_iff _ _ _ _ _ _, fun hin hstop => ?_, fun hshort hstop => ?_⟩
    · obtain ⟨l, j, hj, ⟨-, hout⟩ | ⟨hne, -⟩⟩ := walk_error_path _ _ _ _ _ _ _ ((hfault _).1 hstop)
      · exact absurd (hin l j hj) (Nat.not_lt.2 hout)
      · cases hne
    · obtain ⟨l, j, hj, ⟨hne, -⟩ | ⟨-, hlong⟩⟩ := walk_error_path _ _ _ _ _ _ _ ((hfault _).1 hstop)
      · cases hne
      · exact absurd (hshort l j hj) (Nat.not_le.2 hlong)

/-! ## No flag changes behaviour -/

/-- A block with other flags. -/
def Block.withErr {p : Params} (b : Block p) (f : ErrFlags) : Block p := { b with err := f }

/-- The machine with other flags, whose host has read other words. -/
def State.withErr (s : State) (f : ErrFlags) (d : List (ReadWord s.params)) : State :=
  { s with blk := s.blk.withErr f, reads := d }

/-- Machines that differ only in their flags and in what the host has read are each other with other flags and reads. -/
theorem exists_withErr_of_withoutFlags_eq {s s' : State} (h : s.withoutFlags = s'.withoutFlags) :
    ∃ f d, s' = s.withErr f d := by
  obtain ⟨p, b, inbox, rsps, reads⟩ := s
  obtain ⟨p', b', inbox', rsps', reads'⟩ := s'
  injection h with hp hb hinbox hrsps _
  subst hp hinbox hrsps
  refine ⟨b'.err, reads', ?_⟩
  have hb' : b'.withErr b'.err = b.withErr b'.err := congrArg (·.withErr b'.err) (eq_of_heq hb).symm
  exact congrArg (State.mk p · inbox rsps reads') hb'

/-- Outcomes that agree but for the flags and what the host has read (R145). -/
def SameButFlags : Host.Outcome State Fault Refusal → Host.Outcome State Fault Refusal → Prop
  | .next t, .next t' => t.withoutFlags = t'.withoutFlags
  | .fault f, .fault f' => f = f'
  | _, _ => False

/-- What a body answers, with the flags taken out of the block. -/
def withoutErr {p : Params} (r : Except Fault (Block p × Rsp)) : Except Fault (Block p × Rsp) :=
  r.map fun a => (a.1.withErr ⟨false, false, false, false, false⟩, a.2)

@[simp] theorem Block.withErr_root {p : Params} (b : Block p) (f : ErrFlags) : (b.withErr f).root = b.root := rfl
@[simp] theorem Block.withErr_rootValid {p : Params} (b : Block p) (f : ErrFlags) :
    (b.withErr f).rootValid = b.rootValid := rfl
@[simp] theorem Block.withErr_cur {p : Params} (b : Block p) (f : ErrFlags) : (b.withErr f).cur = b.cur := rfl
@[simp] theorem Block.withErr_freq {p : Params} (b : Block p) (f : ErrFlags) : (b.withErr f).freq = b.freq := rfl
@[simp] theorem Block.withErr_node {p : Params} (b : Block p) (f : ErrFlags) : (b.withErr f).node = b.node := rfl
@[simp] theorem freqAt_withErr {p : Params} (b : Block p) (f : ErrFlags) (i : Nat) :
    freqAt (b.withErr f) i = freqAt b i := rfl
@[simp] theorem codeAt_withErr {p : Params} (b : Block p) (f : ErrFlags) (i : Nat) :
    codeAt (b.withErr f) i = codeAt b i := rfl
@[simp] theorem codeTable_withErr {p : Params} (b : Block p) (f : ErrFlags) : codeTable (b.withErr f) = codeTable b := rfl

/-- A transition of the cursor does not read the flags. -/
theorem moveCursor_withErr {p : Params} (bit : Bool) (b : Block p) (f : ErrFlags) :
    withoutErr (moveCursor bit (b.withErr f)) = withoutErr (moveCursor bit b) := by
  simp only [moveCursor, Block.withErr_node, Block.withErr_cur]
  cases nodeAt b.node b.cur with
  | error g => rfl
  | ok here =>
    by_cases hleaf : here.isLeaf = true
    · simp only [hleaf, if_true]
    · cases hnode : nodeAt b.node (here.child bit) with
      | error g => simp only [hleaf, hnode]
      | ok next =>
        simp only [hleaf, hnode]
        by_cases hnext : next.isLeaf = true <;> simp only [hnext] <;> rfl

/-- The body of `DEC` does not read the flags. -/
theorem decBody_withErr {p : Params} (bit : Bool) (b : Block p) (f : ErrFlags) :
    withoutErr (decBody bit (b.withErr f)) = withoutErr (decBody bit b) := by
  simp only [decBody, Block.withErr_rootValid, Block.withErr_node, Block.withErr_root]
  by_cases hvalid : b.rootValid = true
  · cases nodeAt b.node b.root with
    | error g => simp only [hvalid, if_true]
    | ok top =>
      by_cases hleaf : top.isLeaf = true
      · simp only [hvalid, hleaf]; rfl
      · simp only [hvalid, hleaf]; exact moveCursor_withErr bit b f
  · simp only [hvalid]; rfl

/-- No body reads the flags: with other flags it answers the same block but for the flags, the same response, or the same
stop (R145). -/
theorem bodyOf_withErr {p : Params} (i : Instr) (b : Block p) (f : ErrFlags) :
    withoutErr (bodyOf i (b.withErr f)) = withoutErr (bodyOf i b) := by
  cases i with
  | nop | clr => rfl
  | cnt sym =>
    simp only [bodyOf, cntBody, freqAt_withErr]
    by_cases hmax : (freqAt b (symIndex sym)).toNat = p.cntMax <;> simp only [hmax] <;> rfl
  | bld =>
    simp only [bodyOf, bldBody, Block.withErr_freq, Block.withErr_node]
    by_cases hempty : (buildLeaves b.freq b.node).2 = 0 <;> simp only [hempty] <;> rfl
  | tbl =>
    simp only [bodyOf, tblBody, codeTable_withErr]
    cases codeTable b <;> rfl
  | enc sym =>
    simp only [bodyOf, encBody, codeAt_withErr]
    by_cases hlen : (codeAt b (symIndex sym)).len = 0 <;> simp only [hlen] <;> rfl
  | dec bit => exact decBody_withErr bit b f
  | endStream =>
    simp only [bodyOf, endBody, Block.withErr_cur, Block.withErr_root]
    by_cases hcur : b.cur = b.root <;> simp only [ne_eq, hcur] <;> rfl

/-- Answers that agree but for the flags leave machines that do. -/
theorem answer_withErr (s : State) (f : ErrFlags) (d : List (ReadWord s.params)) {a a' : Block s.params × Rsp}
    (h : withoutErr (.ok a') = withoutErr (.ok a)) :
    (s.answer a).withoutFlags = ((s.withErr f d).answer a').withoutFlags := by
  obtain ⟨hblk, hrsp⟩ := Prod.ext_iff.1 (Except.ok.inj h)
  exact congrArg₂ (fun b r => State.mk s.params b s.inbox (s.rsps ++ [r]) []) hblk.symm hrsp.symm

/-- A command runs alike on machines that differ only in flags and reads (R145). -/
theorem exec_withErr (i : Instr) (s : State) (f : ErrFlags) (d : List (ReadWord s.params)) :
    SameButFlags (exec i s) (exec i (s.withErr f d)) := by
  have hcheck' : firstError i (s.withErr f d).blk = firstError i s.blk := rfl
  cases hcheck : firstError i s.blk with
  | some e =>
    rw [exec_of_error hcheck, exec_of_error (hcheck'.trans hcheck)]
    exact answer_withErr s f d rfl
  | none =>
    have hsame := bodyOf_withErr i s.blk f
    cases hbody : bodyOf i s.blk with
    | ok a =>
      cases hbody' : bodyOf i (s.blk.withErr f) with
      | ok a' =>
        rw [hbody, hbody'] at hsame
        rw [exec_of_ok hcheck hbody, exec_of_ok (hcheck'.trans hcheck) hbody']
        exact answer_withErr s f d hsame
      | error g' => rw [hbody, hbody'] at hsame; cases hsame
    | error g =>
      cases hbody' : bodyOf i (s.blk.withErr f) with
      | ok a' => rw [hbody, hbody'] at hsame; cases hsame
      | error g' =>
        rw [hbody, hbody'] at hsame
        rw [exec_fault.2 ⟨hcheck, hbody⟩, exec_fault.2 ⟨hcheck'.trans hcheck, hbody'⟩]
        exact (Except.error.inj hsame).symm

/-- With nothing presented a step leaves the machine (R149). -/
theorem step_idle {s : State} (hinbox : s.inbox = []) : step s = .next s := by
  unfold step fetch
  rw [hinbox]

/-- A read-port access only adds the word read to the host's log (R52). -/
theorem step_read {s : State} {e : HostEvent} {rest : List HostEvent} (hinbox : s.inbox = e :: rest)
    (hcmd : ∀ w, e ≠ .cmd w) (hrst : e ≠ .rst) : ∃ d, step s = .next ((s.withInbox rest).readDone d) := by
  cases e with
  | cmd w => exact absurd rfl (hcmd w)
  | rst => exact absurd rfl hrst
  | readFreq _ | readNode _ | readCode _ | readCsr _ =>
    rw [step_served (by unfold fetch; rw [hinbox])]
    exact ⟨_, rfl⟩

/-- Settles O15: by what is presented; only a command reads the block. -/
theorem flagsGateNothing : Obligations.FlagsGateNothing := by
  unfold Obligations.FlagsGateNothing
  intro s s' h
  obtain ⟨f, d, rfl⟩ := exists_withErr_of_withoutFlags_eq h
  show SameButFlags (step s) (step (s.withErr f d))
  cases hinbox : s.inbox with
  | nil =>
    rw [step_idle hinbox, step_idle (s := s.withErr f d) hinbox]
    exact h
  | cons e rest =>
    have hinbox' : (s.withErr f d).inbox = e :: rest := hinbox
    cases e with
    | cmd w =>
      cases hdecode : decode s.params w with
      | ok i =>
        rw [step_cmd hinbox hdecode, step_cmd hinbox' hdecode]
        exact exec_withErr i (s.withInbox rest) f d
      | error e =>
        rw [step_illegal hinbox hdecode, step_illegal hinbox' hdecode]
        exact answer_withErr (s.withInbox rest) f d rfl
    | rst =>
      rw [step_rst hinbox, step_rst hinbox']
      rfl
    | readFreq _ | readNode _ | readCode _ | readCsr _ =>
      obtain ⟨_, hstep⟩ := step_read hinbox (by simp) (by simp)
      obtain ⟨_, hstep'⟩ := step_read hinbox' (by simp) (by simp)
      rw [hstep, hstep']
      rfl

end Sys2Proof.Machine

/-! Proofs for 20_memory: one event per step (O7), what a command may write (O38), and the windows in which nothing is
written (O41). -/

namespace Sys2Proof.Machine

open Sys2Proof (Params Instr Symbol)

/-! ## One event per step -/

/-- Settles O7: each case of `step_block` names its event and what it adds to the host's two logs. -/
theorem oneEventPerStep : Obligations.OneEventPerStep := by
  unfold Obligations.OneEventPerStep
  intro s t hstep
  rcases step_block hstep with hidle | ⟨w, rest, _, a, hinbox, -, -, rfl⟩ | ⟨w, rest, _, hinbox, -, rfl⟩ |
    ⟨rest, hinbox, rfl⟩ | ⟨e, rest, d, hinbox, hcmd, hrst, rfl⟩
  · exact .inl hidle
  · exact .inr ⟨.cmd w, rest, a.1, [a.2], [], hinbox, by simp, fun _ => ⟨rfl, rfl⟩, nofun, fun h => absurd rfl (h w)⟩
  · exact .inr ⟨.cmd w, rest, (raise .illegal s.blk).1, [Rsp.error .illegal], [], hinbox, by simp,
      fun _ => ⟨rfl, rfl⟩, nofun, fun h => absurd rfl (h w)⟩
  · exact .inr ⟨.rst, rest, Block.reset s.params, [], [], hinbox, by simp, nofun, fun _ => ⟨rfl, rfl⟩,
      fun _ h => absurd rfl h⟩
  · exact .inr ⟨e, rest, s.blk, [], [d], hinbox, by simp, fun ⟨w, h⟩ => absurd h (hcmd w), fun h => absurd h hrst,
      fun _ _ => ⟨rfl, rfl, rfl⟩⟩

/-! ## Which command writes which space -/

/-- Two blocks with the same tree: NODE and its registers (R24 to R26, R33). -/
structure SameTree {p : Params} (b c : Block p) : Prop where
  node : c.node = b.node
  nleaf : c.nleaf = b.nleaf
  nnode : c.nnode = b.nnode
  root : c.root = b.root
  rootValid : c.rootValid = b.rootValid

/-- The writers of R51, `CLR` apart: from `b` to `c` only `CNT` wrote FREQ, only `BLD` the tree, only `TBL` CODE. -/
structure Writes {p : Params} (i : Instr) (b c : Block p) : Prop where
  freq : (∀ sym, i ≠ .cnt sym) → c.freq = b.freq
  tree : i ≠ .bld → SameTree b c
  code : i ≠ .tbl → c.code = b.code

/-- A change of the cursor, `HALT` and the flags alone is within any command's writes. -/
theorem writes_control {p : Params} (i : Instr) (b : Block p) (cur : BitVec p.idxW) (halt : Bool) (err : ErrFlags) :
    Writes i b { b with cur := cur, halt := halt, err := err } :=
  ⟨fun _ => rfl, fun _ => ⟨rfl, rfl, rfl, rfl, rfl⟩, fun _ => rfl⟩

/-- Raising an error writes no space (R141). -/
theorem writes_raise {p : Params} (i : Instr) (e : Err) (b : Block p) : Writes i b (raise e b).1 :=
  writes_control i b _ _ _

/-- The body of any command but `CLR` writes its own space only (R51). -/
theorem bodyOf_writes {p : Params} {b : Block p} {i : Instr} {a : Block p × Rsp} (hbody : bodyOf i b = .ok a)
    (hclr : i ≠ .clr) : Writes i b a.1 := by
  cases i with
  | nop => cases hbody; exact writes_control _ b _ _ _
  | clr => exact absurd rfl hclr
  | cnt sym =>
    cases hbody
    rcases cntBody_cases sym b with ⟨-, hcnt⟩ | ⟨-, hcnt⟩ <;> rw [hcnt]
    · exact writes_raise _ _ b
    · exact ⟨fun h => absurd rfl (h sym), fun _ => ⟨rfl, rfl, rfl, rfl, rfl⟩, fun _ => rfl⟩
  | bld =>
    cases hbody
    exact ⟨fun _ => (bldBody_frame b).freq, fun h => absurd rfl h, fun _ => (bldBody_frame b).code⟩
  | tbl =>
    obtain ⟨_, -, rfl⟩ := tblBody_ok hbody
    exact ⟨fun _ => rfl, fun _ => ⟨rfl, rfl, rfl, rfl, rfl⟩, fun h => absurd rfl h⟩
  | enc sym =>
    cases hbody
    rcases encBody_cases sym b with ⟨-, henc⟩ | ⟨-, henc⟩ <;> rw [henc] <;>
      exact writes_control _ b _ _ _
  | dec bit =>
    rcases decBody_ok hbody with ⟨-, rfl⟩ | ⟨-, -, rfl⟩ | ⟨-, -, -, ⟨-, rfl⟩ | ⟨-, rfl⟩⟩ <;>
      exact writes_control _ b _ _ _
  | endStream =>
    cases hbody
    rcases endBody_cases b with ⟨-, hend⟩ | ⟨-, hend⟩ <;> rw [hend] <;>
      exact writes_control _ b _ _ _

/-- The body of `CNT` leaves every count but its symbol's (R91, R92). -/
theorem freqAt_cntBody_other {p : Params} {b : Block p} {sym : Symbol} {x : Nat} (hx : sym.toNat ≠ x) :
    freqAt (cntBody sym b).1 x = freqAt b x := by
  rcases cntBody_cases sym b with ⟨-, hcnt⟩ | ⟨-, hcnt⟩ <;> rw [hcnt]
  · rfl
  · exact Memory.read_write_other _ _ _ _ _ hx.symm

/-! ## What an answered command leaves -/

section answers

variable {p : Params} {b : Block p} {i : Instr} {a : Block p × Rsp}

/-- Whatever a command but `CLR` answers, it wrote its own space only (R51). -/
theorem Answers.writes (ha : Answers i b a) (hclr : i ≠ .clr) : Writes i b a.1 := by
  rcases ha with ⟨e, -, rfl⟩ | ⟨-, hbody⟩
  · exact writes_raise i e b
  · exact bodyOf_writes hbody hclr

/-- A command but `CLR` leaves every count that is not its own symbol's. -/
theorem Answers.freqAt_other (ha : Answers i b a) (hclr : i ≠ .clr) {x : Nat}
    (hx : ∀ sym, i = .cnt sym → sym.toNat ≠ x) : freqAt a.1 x = freqAt b x := by
  by_cases hcnt : ∃ sym, i = .cnt sym
  · obtain ⟨sym, rfl⟩ := hcnt
    rcases ha with ⟨_, -, rfl⟩ | ⟨-, hbody⟩
    · rfl
    · cases hbody
      exact freqAt_cntBody_other (hx sym rfl)
  · exact freqAt_congr ((ha.writes hclr).freq fun sym h => hcnt ⟨sym, h⟩) x

/-- A command that is none of the phase's writers leaves it (R23). -/
theorem Answers.phase_eq (ha : Answers i b a) (hclr : i ≠ .clr) (hbld : i ≠ .bld) (htbl : i ≠ .tbl) :
    a.1.phase = b.phase := by
  rcases ha with ⟨_, -, rfl⟩ | ⟨-, hbody⟩
  · rfl
  · by_contra hmoved
    rcases bodyOf_phase hbody hmoved with ⟨h, -⟩ | ⟨h, -⟩ | ⟨h, -⟩
    exacts [hbld h, htbl h, hclr h]

/-- A command that is none of the cursor's writers leaves it (R27). -/
theorem Answers.cur_eq (ha : Answers i b a) (hclr : i ≠ .clr) (hbld : i ≠ .bld) (hdec : ∀ bit, i ≠ .dec bit)
    (hend : i ≠ .endStream) : a.1.cur = b.cur := by
  rcases ha with ⟨_, -, rfl⟩ | ⟨-, hbody⟩
  · rfl
  · by_contra hmoved
    rcases bodyOf_cur hbody hmoved with h | h | h | ⟨bit, h⟩
    exacts [hbld h, hclr h, hend h, hdec bit h]

/-- An `OK` response accounts for no change of `HALT` or the flags (R28, R29). -/
theorem Accounts.same_of_ok (h : Accounts b a) (hok : a.2.err = none) : a.1.halt = b.halt ∧ a.1.err = b.err := by
  obtain ⟨herr, hhalt⟩ := h
  rw [hok] at herr hhalt
  exact ⟨hhalt.trans (Bool.or_false _), herr⟩

end answers

/-- Settles O38: `exec_block` gives the block and the response, the lemmas above what the block keeps. -/
theorem commandFrame : Obligations.CommandFrame := by
  unfold Obligations.CommandFrame
  intro s t i hexec
  obtain ⟨a, ha, rfl⟩ := exec_block.1 hexec
  refine ⟨a.1, a.2, rfl, fun hclr => ?_⟩
  obtain ⟨-, htree, hcode⟩ := ha.writes hclr
  refine ⟨fun x => ha.freqAt_other hclr, fun hbld => ?_, hcode, ha.phase_eq hclr, ha.cur_eq hclr,
    (ha.accounts hclr).same_of_ok⟩
  obtain ⟨hnode, hnleaf, hnnode, hroot, hrootValid⟩ := htree hbld
  exact ⟨hnode, hnleaf, hnnode, hroot, hrootValid⟩

/-! ## The immutability windows -/

/-- What may not change in a step from `b` to `c` once the tree is built (R61): FREQ and the tree, and CODE once the table
is built too. -/
structure WindowKept {p : Params} (b c : Block p) : Prop where
  freq : c.freq = b.freq
  tree : SameTree b c
  code : b.phase = .table → c.code = b.code

/-- A change of the cursor, `HALT` and the flags alone keeps the windows. -/
theorem windowKept_control {p : Params} (b : Block p) (cur : BitVec p.idxW) (halt : Bool) (err : ErrFlags) :
    WindowKept b { b with cur := cur, halt := halt, err := err } := ⟨rfl, ⟨rfl, rfl, rfl, rfl, rfl⟩, fun _ => rfl⟩

/-- Outside phase `COUNT` the checks refuse `CNT` and `BLD`, and in phase `TABLE` also `TBL`, so a command that does not
return to phase `COUNT` keeps the windows (R61, R73). -/
theorem Answers.windowKept {p : Params} {b : Block p} {i : Instr} {a : Block p × Rsp} (ha : Answers i b a)
    (hbefore : b.phase ≠ .count) (hafter : a.1.phase ≠ .count) : WindowKept b a.1 := by
  rcases ha with ⟨_, -, rfl⟩ | ⟨hcheck, hbody⟩
  · exact windowKept_control b _ _ _
  · obtain ⟨-, -, haccepted⟩ := firstError_none.1 hcheck
    have hclr : i ≠ .clr := by rintro rfl; cases hbody; exact hafter rfl
    have hcnt : ∀ sym, i ≠ .cnt sym := by rintro sym rfl; exact hbefore (by simpa [acceptedIn] using haccepted)
    have hbld : i ≠ .bld := by rintro rfl; exact hbefore (by simpa [acceptedIn] using haccepted)
    have hwrites := bodyOf_writes hbody hclr
    refine ⟨hwrites.freq hcnt, hwrites.tree hbld, fun htable => hwrites.code ?_⟩
    rintro rfl
    simp [acceptedIn, htable] at haccepted

/-- Every step that starts and ends outside phase `COUNT` keeps the windows. -/
theorem step_windowKept {s t : State} (hstep : step s = .next t) (hbefore : s.blk.phase ≠ .count)
    (hafter : t.blk.phase ≠ .count) :
    ∃ b l rs rd, t = ⟨s.params, b, l, rs, rd⟩ ∧ WindowKept s.blk b := by
  rcases step_block hstep with ⟨-, rfl⟩ | ⟨_, _, _, a, -, -, ha, rfl⟩ | ⟨_, _, _, -, -, rfl⟩ | ⟨_, -, rfl⟩ |
    ⟨_, _, _, -, -, -, rfl⟩
  · exact ⟨_, _, _, _, rfl, windowKept_control _ _ _ _⟩
  · exact ⟨_, _, _, _, rfl, ha.windowKept hbefore hafter⟩
  · exact ⟨_, _, _, _, rfl, windowKept_control _ _ _ _⟩
  · exact absurd rfl hafter
  · exact ⟨_, _, _, _, rfl, windowKept_control _ _ _ _⟩

/-- Settles O41, by `step_windowKept`. -/
theorem immutabilityWindows : Obligations.ImmutabilityWindows := by
  unfold Obligations.ImmutabilityWindows
  intro s t hstep hbefore hafter
  obtain ⟨b, l, rs, rd, ht, hfreq, ⟨hnode, hnleaf, hnnode, hroot, hrootValid⟩, hcode⟩ :=
    step_windowKept hstep hbefore hafter
  exact ⟨b, l, rs, rd, ht, hfreq, hnode, hnleaf, hnnode, hroot, hrootValid, hcode⟩

end Sys2Proof.Machine

/-! Proofs for 30_encoding: the decoder and the encoder as inverses (O1, O2), the match and mask columns of the command table
(O3), the illegal words (O4), and the shape and the word of a response (O42, O43). -/

namespace Sys2Proof.Machine

open Sys2Proof (Params Instr Symbol Word opField rzField argField decodePlain decodeSymbol decodeBit decode
  commandWord encode)

/-! ## The decoder and the encoder -/

/-- Settles O1: each row's word has its operand back from its fields (`decode_encode_of_wf`). -/
theorem decodeOfEncode : Obligations.DecodeOfEncode := by
  unfold Obligations.DecodeOfEncode
  exact fun _ _ => decode_encode_of_wf

/-- Settles O2: a decoded word has no bit outside its row's fields (`encode_of_decode`). -/
theorem encodeOfDecode : Obligations.EncodeOfDecode := by
  unfold Obligations.EncodeOfDecode
  exact fun _ _ _ => encode_of_decode

/-- The decoder reads a command from exactly one word: the command's own, when the command is legal (R73, R75). -/
theorem decode_eq_ok_iff {p : Params} {w : Word} {i : Instr} : decode p w = .ok i ↔ i.wf p = true ∧ encode i = w := by
  constructor
  · exact encode_of_decode
  · rintro ⟨hwf, rfl⟩
    exact decode_encode_of_wf hwf

/-- No two legal commands share a word: each is what the decoder reads from it (R75). -/
theorem encode_injective_of_wf {p : Params} {i j : Instr} (hi : i.wf p = true) (hj : j.wf p = true)
    (h : encode i = encode j) : i = j := by
  have hdecode := decode_encode_of_wf hi
  rw [h, decode_encode_of_wf hj] at hdecode
  exact (Except.ok.inj hdecode).symm

/-! ## Match and mask -/

/-- A match `c` inside the mask `m` and an operand `x` are the two parts of a word exactly when the operand lies outside the
mask and the word is both put together. -/
theorem masked_iff {w m c x : Word} (hc : c &&& m = c) :
    w &&& m = c ∧ w &&& ~~~m = x ↔ x &&& ~~~m = x ∧ c ||| x = w := by
  constructor
  · rintro ⟨rfl, rfl⟩
    refine ⟨by rw [BitVec.and_assoc, BitVec.and_self], ?_⟩
    rw [← BitVec.and_or_distrib_left, BitVec.or_not_self, BitVec.and_allOnes]
  · rintro ⟨hx, rfl⟩
    have hcx : c &&& ~~~m = 0 := by rw [← hc, BitVec.and_assoc, BitVec.and_not_self]; exact BitVec.and_zero
    have hxm : x &&& m = 0 := by
      rw [← hx, BitVec.and_assoc, BitVec.and_comm (~~~m), BitVec.and_not_self]; exact BitVec.and_zero
    rw [BitVec.and_or_distrib_right, BitVec.and_or_distrib_right, hc, hx, hcx, hxm]
    exact ⟨BitVec.or_zero, BitVec.zero_or⟩

/-- A row of the command table with an operand: its mask `m` and match `c` decide the command, and the operand `x` is the
unmasked rest, when the operands that lie outside the mask are the legal ones (R72, R73). -/
theorem decode_eq_ok_iff_masked {p : Params} {w m c x : Word} {i : Instr} (hc : c &&& m = c)
    (hwf : i.wf p = true ↔ x &&& ~~~m = x) (hword : encode i = c ||| x) :
    decode p w = .ok i ↔ w &&& m = c ∧ w &&& ~~~m = x := by
  rw [decode_eq_ok_iff, masked_iff hc, hwf, hword]

/-- A row of the command table without an operand: the mask is all ones (R73). -/
theorem decode_eq_ok_iff_eq {p : Params} {w c : Word} {i : Instr} (hwf : i.wf p = true) (hword : encode i = c) :
    decode p w = .ok i ↔ w &&& 0xFFFFFFFF = c := by
  have hmask : w &&& 0xFFFFFFFF = w := BitVec.and_allOnes
  rw [decode_eq_ok_iff, hmask, hword, eq_comm (a := w)]
  exact and_iff_right hwf

/-- A command word is its opcode above 28 zeros, with the operand put in the low bits (R71). -/
theorem commandWord_eq_or (op : BitVec 4) (arg : BitVec 24) :
    commandWord op arg = (op ++ (0 : BitVec 28)) ||| arg.setWidth 32 := by
  apply BitVec.eq_of_toNat_eq
  have harg : arg.toNat < 2 ^ 28 := by omega
  have hzero : (0 : BitVec 28).toNat = 0 := rfl
  rw [commandWord_toNat, BitVec.toNat_or, BitVec.toNat_append, hzero, Nat.or_zero,
    BitVec.toNat_setWidth_of_le (by decide), ← Nat.shiftLeft_add_eq_or_of_lt harg, Nat.shiftLeft_eq]

/-- A word with a symbol operand is its opcode above 28 zeros, with the symbol in the low bits (R72). -/
theorem commandWord_symbol (op : BitVec 4) (sym : Symbol) :
    commandWord op (sym.setWidth 24) = (op ++ (0 : BitVec 28)) ||| sym.setWidth 32 := by
  rw [commandWord_eq_or, BitVec.setWidth_setWidth (by decide)]

/-- The mask of the rows with a symbol operand: ones above the `SYM_W` bits of the symbol (R73). -/
def symbolMask (p : Params) : Word := ~~~BitVec.ofNat 32 (p.nsym - 1)

/-- The mask leaves the opcode and the reserved field, at both symbol widths. -/
theorem and_symbolMask (p : Params) (op : BitVec 4) :
    (op ++ (0 : BitVec 28)) &&& symbolMask p = op ++ (0 : BitVec 28) := by
  unfold symbolMask Params.nsym Params.symW
  cases p.symWidth <;> decide +revert

/-- A symbol lies outside the mask exactly when it is below `NSYM` (R72). -/
theorem lt_nsym_iff_outside_mask (p : Params) (sym : Symbol) :
    sym.toNat < p.nsym ↔ sym.setWidth 32 &&& ~~~symbolMask p = sym.setWidth 32 := by
  have hle := p.nsym_le
  have hmask : (BitVec.ofNat 32 (p.nsym - 1)).toNat = p.nsym - 1 := by
    rw [BitVec.toNat_ofNat, Nat.mod_eq_of_lt (by omega)]
  rw [symbolMask, BitVec.not_not, ← BitVec.toNat_inj, BitVec.toNat_and, hmask,
    BitVec.toNat_setWidth_of_le (by decide), Nat.and_two_pow_sub_one_eq_mod, Nat.mod_eq_iff_lt p.nsym_pos.ne']

/-- The rows with a symbol operand (R73). -/
theorem decode_eq_ok_iff_symbol {p : Params} {w : Word} {op : BitVec 4} {sym : Symbol} {i : Instr}
    (hwf : i.wf p = true ↔ sym.toNat < p.nsym) (hword : encode i = commandWord op (sym.setWidth 24)) :
    decode p w = .ok i ↔
      w &&& symbolMask p = op ++ (0 : BitVec 28) ∧ w &&& ~~~symbolMask p = sym.setWidth 32 :=
  decode_eq_ok_iff_masked (and_symbolMask p op) (hwf.trans (lt_nsym_iff_outside_mask p sym))
    (hword.trans (commandWord_symbol op sym))

/-- The row of `DEC`: the mask leaves out the one bit of the operand (R73). -/
theorem decode_eq_ok_dec_iff {p : Params} {w : Word} {bit : Bool} :
    decode p w = .ok (.dec bit) ↔ w &&& 0xFFFFFFFE = 0x60000000 ∧ w &&& 1 = if bit then 1 else 0 := by
  have hbit : (if bit then 1 else 0) &&& ~~~(0xFFFFFFFE : Word) = if bit then 1 else 0 := by cases bit <;> rfl
  have hword : encode (.dec bit) = 0x60000000 ||| if bit then 1 else 0 := by cases bit <;> rfl
  exact decode_eq_ok_iff_masked rfl (iff_of_true rfl hbit) hword

/-- Settles O3: the symbol's mask is `symbolMask`, and each row is one of the table's three forms. -/
theorem matchAndMask : Obligations.MatchAndMask := by
  unfold Obligations.MatchAndMask
  intro p w symMask hsymMask
  obtain rfl : symMask = symbolMask p := by
    rw [hsymMask]
    unfold symbolMask Params.nsym Params.symW
    cases p.symWidth <;> rfl
  have hcnt : ∀ sym, (Instr.cnt sym).wf p = true ↔ sym.toNat < p.nsym := fun _ => decide_eq_true_iff
  have henc : ∀ sym, (Instr.enc sym).wf p = true ↔ sym.toNat < p.nsym := fun _ => decide_eq_true_iff
  exact ⟨decode_eq_ok_iff_eq rfl rfl, decode_eq_ok_iff_eq rfl rfl, fun sym => decode_eq_ok_iff_symbol (hcnt sym) rfl,
    decode_eq_ok_iff_eq rfl rfl, decode_eq_ok_iff_eq rfl rfl, fun sym => decode_eq_ok_iff_symbol (henc sym) rfl,
    fun _ => decode_eq_ok_dec_iff, decode_eq_ok_iff_eq rfl rfl⟩

/-! ## Illegal words -/

/-- A word without an operand is illegal exactly when `arg` is not zero (R74). -/
theorem decodePlain_error_iff {arg : BitVec 24} {i : Instr} :
    (∃ e, decodePlain arg i = .error e) ↔ arg.toNat ≠ 0 := by
  unfold decodePlain
  split
  · next h => simp [h]
  · next h => simpa [← BitVec.toNat_inj] using h

/-- A word with a symbol operand is illegal exactly when `arg` is at least `NSYM` (R74). -/
theorem decodeSymbol_error_iff {p : Params} {arg : BitVec 24} {mk : Symbol → Instr} :
    (∃ e, decodeSymbol p arg mk = .error e) ↔ p.nsym ≤ arg.toNat := by
  unfold decodeSymbol
  split
  · next h => simpa using h
  · next h => simpa using h

/-- A word with a bit operand is illegal exactly when `arg` exceeds 1 (R74). -/
theorem decodeBit_error_iff {arg : BitVec 24} {mk : Bool → Instr} :
    (∃ e, decodeBit arg mk = .error e) ↔ 1 < arg.toNat := by
  unfold decodeBit
  split
  · next h => simpa using h
  · next h => simpa using h

/-- `wordIllegal` in the decoder's terms, the three fields of the word (R71, R74). -/
theorem wordIllegal_iff_fields {p : Params} {w : Word} :
    wordIllegal p w ↔
      8 ≤ (opField w).toNat ∨ rzField w ≠ 0 ∨
        ((opField w).toNat ∈ [0, 1, 3, 4, 7] ∧ (argField w).toNat ≠ 0) ∨
        ((opField w).toNat ∈ [2, 5] ∧ p.nsym ≤ (argField w).toNat) ∨
        ((opField w).toNat = 6 ∧ 1 < (argField w).toNat) := by
  have hrz : rzField w = 0 ↔ w.toNat / 2 ^ 24 % 16 = 0 := by
    rw [← rzField_toNat, ← BitVec.toNat_inj]; rfl
  rw [opField_toNat, argField_toNat, Ne, hrz]
  rfl

/-- The decoder refuses exactly the illegal words: a reserved field that is not zero, else by the opcode (R74). -/
theorem decode_error_iff {p : Params} {w : Word} : (∃ e, decode p w = .error e) ↔ wordIllegal p w := by
  rw [wordIllegal_iff_fields]
  unfold decode
  split
  case isFalse hrz => exact iff_of_true ⟨_, rfl⟩ (.inr (.inl hrz))
  next hrz =>
  split
  case h_1 hop | h_2 hop | h_4 hop | h_5 hop | h_8 hop => simp [decodePlain_error_iff, hop, hrz]
  case h_3 hop | h_6 hop => simp [decodeSymbol_error_iff, hop, hrz]
  case h_7 hop => simp [decodeBit_error_iff, hop, hrz]
  case h_9 =>
    simp only [imp_false] at *
    exact iff_of_true ⟨_, rfl⟩ (.inl (by omega))

/-- Raising `ILLEGAL` sets `ERR.ILL` and nothing else: it is not fatal (R141). -/
theorem raise_illegal {p : Params} (b : Block p) :
    raise .illegal b = ({ b with err := { b.err with ill := true } }, Rsp.error .illegal) := by
  simp [raise, ErrFlags.raised, Err.fatal]

/-- Settles O4: an illegal word is one that the decoder refuses, so that the step rejects it (`step_illegal`). -/
theorem illegalWords : Obligations.IllegalWords := by
  unfold Obligations.IllegalWords
  refine ⟨fun _ _ => decode_error_iff, fun s w rest hinbox hillegal => ?_, fun _ _ _ => encode_injective_of_wf⟩
  obtain ⟨e, he⟩ := decode_error_iff.2 hillegal
  rw [step_illegal hinbox he, rejectIllegal, raise_illegal]
  rfl

/-! ## Responses -/

/-- The four kinds of response, each with the commands that give it (R76): an error, from any command; `OK` alone, from any
command but `ENC`; a symbol, from `DEC`; the bits of a code that is there, from `ENC`. -/
inductive Responds (p : Params) : Instr → Rsp → Prop
  | error (i : Instr) (e : Err) : Responds p i (Rsp.error e)
  | plain {i : Instr} (h : ∀ sym, i ≠ .enc sym) : Responds p i Rsp.plain
  | symbol (bit : Bool) (x : BitVec p.symW) : Responds p (.dec bit) (Rsp.symbol x)
  | code (sym : Symbol) {c : CodeWord p} (h : c.len ≠ 0) : Responds p (.enc sym) (Rsp.code c.toBits)

/-- The body of every command gives one of its own kinds of response. -/
theorem bodyOf_responds {p : Params} {b : Block p} {i : Instr} {a : Block p × Rsp} (hbody : bodyOf i b = .ok a) :
    Responds p i a.2 := by
  cases i with
  | nop | clr => cases hbody; exact .plain nofun
  | cnt sym =>
    cases hbody
    rcases cntBody_cases sym b with ⟨-, hcnt⟩ | ⟨-, hcnt⟩ <;> rw [hcnt]
    · exact .error _ _
    · exact .plain nofun
  | bld =>
    cases hbody
    rw [bldBody_rsp]
    exact .plain nofun
  | tbl =>
    obtain ⟨_, -, rfl⟩ := tblBody_ok hbody
    exact .plain nofun
  | enc sym =>
    cases hbody
    rcases encBody_cases sym b with ⟨-, henc⟩ | ⟨hlen, henc⟩ <;> rw [henc]
    · exact .error _ _
    · exact .code sym hlen
  | dec bit =>
    rcases decBody_ok hbody with ⟨-, rfl⟩ | ⟨-, -, rfl⟩ | ⟨-, -, -, ⟨-, rfl⟩ | ⟨-, rfl⟩⟩
    · exact .error _ _
    · exact .symbol bit _
    · exact .symbol bit _
    · exact .plain nofun
  | endStream =>
    cases hbody
    rcases endBody_cases b with ⟨-, hend⟩ | ⟨-, hend⟩ <;> rw [hend]
    · exact .error _ _
    · exact .plain nofun

/-- Whatever a command answers, the response is of one of its kinds. -/
theorem Answers.responds {p : Params} {b : Block p} {i : Instr} {a : Block p × Rsp} (ha : Answers i b a) :
    Responds p i a.2 := by
  rcases ha with ⟨e, -, rfl⟩ | ⟨-, hbody⟩
  · exact .error i e
  · exact bodyOf_responds hbody

/-- A decoded symbol, zero-extended to the response, is still below `NSYM` (R76). -/
theorem symbol_sym_lt_nsym {p : Params} (x : BitVec p.symW) : (Rsp.symbol x).sym.toNat < p.nsym := by
  rw [Rsp.symbol_sym, BitVec.toNat_setWidth_of_le p.symW_le]
  exact x.isLt

/-- The code of a CODE word whose `len` is not 0 has 1 to `MAXLEN` bits (R8, R34). -/
theorem CodeWord.length_toBits_bounds {p : Params} {c : CodeWord p} (h : c.len ≠ 0) :
    1 ≤ c.toBits.length ∧ c.toBits.length ≤ p.maxLen := by
  rw [CodeWord.length_toBits]
  exact ⟨Nat.one_le_iff_ne_zero.2 fun hzero => h (BitVec.eq_of_toNat_eq hzero), Nat.le_sub_one_of_lt c.len.isLt⟩

/-- Settles O42, by the kind of the response (`Responds`). -/
theorem responseShape : Obligations.ResponseShape := by
  unfold Obligations.ResponseShape
  intro s t i hexec
  obtain ⟨a, ha, rfl⟩ := exec_block.1 hexec
  obtain ⟨b, r⟩ := a
  refine ⟨r, rfl, ?_⟩
  have hpos : (0 : Symbol).toNat < s.params.nsym := s.params.nsym_pos
  cases ha.responds with
  | error i e => exact ⟨fun _ => ⟨rfl, rfl, rfl⟩, nofun, fun _ => rfl, hpos, fun h => absurd rfl h, nofun⟩
  | plain h =>
    exact ⟨fun h => absurd rfl h, nofun, fun _ => rfl, hpos, fun h => absurd rfl h, fun sym hi => absurd hi (h sym)⟩
  | symbol bit x =>
    exact ⟨fun h => absurd rfl h, fun _ => ⟨bit, rfl⟩, nofun, symbol_sym_lt_nsym x, fun h => absurd rfl h, nofun⟩
  | code sym hlen =>
    exact ⟨fun h => absurd rfl h, nofun, fun _ => rfl, hpos, fun _ => ⟨sym, rfl⟩,
      fun _ _ _ => CodeWord.length_toBits_bounds hlen⟩

/-- Above its two lowest fields the response word is the symbol between zeros (R76). -/
theorem Rsp.extract_word (r : Rsp) {start len : Nat} (h : 5 ≤ start) :
    r.word.extractLsb' start len = ((0 : BitVec 8) ++ r.sym ++ (0 : BitVec 3)).extractLsb' (start - 5) len := by
  unfold Rsp.word
  rw [BitVec.extractLsb'_append_eq_of_le (by omega), BitVec.extractLsb'_append_eq_of_le (by omega), Nat.sub_sub]

/-- Settles O43: each extract passes over the fields below its own, which the append puts in the low bits. -/
theorem responseWord : Obligations.ResponseWord := by
  unfold Obligations.ResponseWord
  intro r
  refine ⟨?_, ?_, ?_, ?_, ?_⟩
  · refine BitVec.extractLsb'_append_eq_right.trans ?_
    cases r.err with
    | none => rfl
    | some e => cases e <;> rfl
  · unfold Rsp.word
    rw [BitVec.getLsbD_append, if_neg (by decide), BitVec.getLsbD_append, if_pos (by decide), BitVec.getLsbD_ofBool]
    rfl
  · rw [r.extract_word (by decide)]
    exact BitVec.extractLsb'_append_eq_right
  · rw [r.extract_word (by decide), BitVec.extractLsb'_append_eq_of_le (by decide)]
    exact BitVec.extractLsb'_append_eq_right
  · rw [r.extract_word (by decide), BitVec.extractLsb'_append_eq_of_le (by decide)]
    exact BitVec.extractLsb'_append_eq_left

end Sys2Proof.Machine

/-! Proofs for 40_freq_counter: what one `CNT` does below the bound and at it (O19, O20), and the order of a run of `CNT`
(O22). -/

namespace Sys2Proof.Machine

open Sys2Proof (Params Instr Symbol)

/-! ## One `CNT` -/

/-- Settles O19: an accepted `CNT` below the bound leaves `countOne`, which writes one word of FREQ. -/
theorem cntCountsOne : Obligations.CntCountsOne := by
  unfold Obligations.CntCountsOne
  intro s sym hsym hhalt hphase hlt
  refine ⟨(countOne s.blk sym).freq, exec_block.2 ⟨_, answers_cnt hsym hhalt hphase hlt, rfl⟩, ?_,
    fun i hi => Memory.read_write_other _ _ _ _ _ hi⟩
  have hone := freqAt_countOne s.blk sym hlt
  rwa [if_pos rfl] at hone

/-- `CNT` of a legal symbol at the bound raises `COUNT_OVERFLOW` (R92). -/
theorem answers_cnt_overflow {p : Params} {b : Block p} {sym : Symbol} (hsym : sym.toNat < p.nsym) (hhalt : b.halt = false)
    (hphase : b.phase = .count) (hmax : (freqAt b sym.toNat).toNat = p.cntMax) :
    Answers (.cnt sym) b (raise .countOverflow b) := by
  refine .inr ⟨firstError_none.2 ⟨decide_eq_true hsym, .inl hhalt, by rw [hphase]; rfl⟩, congrArg Except.ok ?_⟩
  rcases cntBody_cases sym b with ⟨-, hraise⟩ | ⟨hne, -⟩
  · exact hraise
  · exact absurd hmax hne

/-- `COUNT_OVERFLOW` sets `ERR.OVF` and, being fatal, `HALT`; every other field stays (R140, R141). -/
theorem raise_countOverflow {p : Params} (b : Block p) :
    raise .countOverflow b =
      ({ b with halt := true, err := { b.err with ovf := true } }, Rsp.error .countOverflow) := by
  simp [raise, ErrFlags.raised, Err.fatal]

/-- Settles O20: the block and the response of the answer are those of `raise_countOverflow`. -/
theorem cntOverflowHalts : Obligations.CntOverflowHalts := by
  unfold Obligations.CntOverflowHalts
  intro s sym hsym hhalt hphase hmax
  refine exec_block.2 ⟨_, answers_cnt_overflow hsym hhalt hphase hmax, ?_⟩
  rw [raise_countOverflow]
  rfl

/-! ## The order of the commands -/

/-- What every step keeps holds after any run that meets no fault and no refusal. -/
theorem run_keeps {P : State → Prop} (hstep : ∀ s t, P s → step s = .next t → P t) (n : Nat) :
    ∀ {s t : State}, P s → run n s = .next t → P t := by
  induction n with
  | zero =>
    intro s t hs hrun
    cases hrun
    exact hs
  | succ n ih =>
    intro s t hs hrun
    rw [run_eq] at hrun
    split at hrun
    case h_1 u hu => exact ih (hstep s u hs hu) hrun
    all_goals cases hrun

/-- A run from reset ends with its memories in the canonical form (`memoryFormKept`). -/
theorem run_present_memoryWf {p : Params} {n : Nat} {l : List Instr} {t : State}
    (hrun : run n ((State.resetAt p).present l) = .next t) : t.blk.MemoryWf :=
  run_keeps (P := fun s => s.blk.MemoryWf) (fun s t hs hstep => (memoryFormKept s t hs hstep).1) n
    (Block.MemoryWf.reset p) hrun

/-- A canonical FREQ reads zero at an index that no symbol has. -/
theorem freqAt_eq_zero_of_nsym_le {p : Params} {b : Block p} (hb : b.MemoryWf) {i : Nat} (hi : p.nsym ≤ i) :
    freqAt b i = 0 :=
  Memory.read_unlisted _ _ _ fun c hc => ((hb.freqBelow c hc).trans_le hi).ne

/-- Two canonical FREQ memories with the same count for every symbol are the same memory. -/
theorem freq_eq_of_toNat_eq {p : Params} {b c : Block p} (hb : b.MemoryWf) (hc : c.MemoryWf)
    (h : ∀ x : Symbol, (freqAt b x.toNat).toNat = (freqAt c x.toNat).toNat) : b.freq = c.freq := by
  refine Memory.ext_of_wf 0 _ _ hb.freq hc.freq fun i => ?_
  change freqAt b i = freqAt c i
  rcases Nat.lt_or_ge i p.nsym with hi | hi
  · have hx : (BitVec.ofNat 16 i).toNat = i :=
      (BitVec.toNat_ofNat i 16).trans (Nat.mod_eq_of_lt (hi.trans_le p.nsym_le))
    rw [← hx]
    exact BitVec.eq_of_toNat_eq (h _)
  · rw [freqAt_eq_zero_of_nsym_le hb hi, freqAt_eq_zero_of_nsym_le hc hi]

/-- Settles O22: `freqIsCount` gives both orders the same counts and otherwise the same machine, and counts determine the
canonical FREQ. -/
theorem countOrderIrrelevant : Obligations.CountOrderIrrelevant := by
  unfold Obligations.CountOrderIrrelevant
  intro p l l' hperm hsyms hbound
  obtain ⟨f, hrun, hcount⟩ := freqIsCount p l hsyms hbound
  obtain ⟨f', hrun', hcount'⟩ := freqIsCount p l' (fun x hx => hsyms x (hperm.mem_iff.2 hx))
    (fun x => hperm.count_eq x ▸ hbound x)
  have hwf : Block.MemoryWf { Block.reset p with freq := f } := run_present_memoryWf hrun
  have hwf' : Block.MemoryWf { Block.reset p with freq := f' } := run_present_memoryWf hrun'
  have hfreq : f = f' := freq_eq_of_toNat_eq hwf hwf' fun x =>
    (hcount x).trans ((hperm.count_eq x).trans (hcount' x).symm)
  refine ⟨_, hrun, ?_⟩
  rw [hrun', hfreq, List.map_const', List.map_const', hperm.length_eq]

end Sys2Proof.Machine

/-! Proofs for 41_tree_builder: what an accepted `BLD` leaves (O24, O25, O26, O27), and that its tree is a function of the
counts alone (O28). -/

namespace Sys2Proof.Machine

open Sys2Proof (Params)

/-! ## One `BLD` -/

/-- An accepted `BLD` answers `OK` and leaves what its body makes (R97). -/
theorem exec_bld {s : State} (hhalt : s.blk.halt = false) (hphase : s.blk.phase = .count) :
    exec .bld s = .next { s with blk := (bldBody s.blk).1, rsps := s.rsps ++ [⟨none, false, 0, []⟩] } := by
  rw [exec_of_ok (firstError_bld hhalt hphase) rfl, State.answer, bldBody_rsp]
  rfl

section tree

variable {p : Params} (b : Block p)

/-- An index between `NLEAF` and `NNODE` exists only when something was counted, and is one of `K .. 2K-2` (R100). -/
theorem bldBody_inner_range {n : Nat} (hleaf : (bldBody b).1.nleaf.toNat ≤ n) (hnode : n < (bldBody b).1.nnode.toNat) :
    keyCount b ≠ 0 ∧ keyCount b ≤ n ∧ n < 2 * keyCount b - 1 := by
  rw [bldBody_nleaf] at hleaf
  by_cases hkeys : keyCount b = 0
  · obtain ⟨-, hzero, -⟩ := bldBody_empty b hkeys
    simp [hzero] at hnode
  · exact ⟨hkeys, hleaf, (bldBody_tree b hkeys).nnode ▸ hnode⟩

/-- The fields of an internal node that `BLD` makes, its exact weight among them (R97, R101). -/
theorem bldBody_innerNode {n : Nat} (hleaf : (bldBody b).1.nleaf.toNat ≤ n) (hnode : n < (bldBody b).1.nnode.toNat) :
    InnerNode (bldBody b).1.node n := by
  obtain ⟨hkeys, hlow, hhigh⟩ := bldBody_inner_range b hleaf hnode
  exact (bldBody_tree b hkeys).inner n hlow hhigh

/-- An internal node that `BLD` makes joins the two least nodes of its queue (R98, R99). -/
theorem bldBody_leastTwo {n : Nat} (hleaf : (bldBody b).1.nleaf.toNat ≤ n) (hnode : n < (bldBody b).1.nnode.toNat) :
    LeastTwo (bldBody b).1.node (bldBody b).1.nleaf.toNat n := by
  obtain ⟨hkeys, hlow, hhigh⟩ := bldBody_inner_range b hleaf hnode
  rw [bldBody_nleaf]
  exact (bldBody_tree b hkeys).least n hlow hhigh

/-- A node below `NLEAF` is a leaf (R97). -/
theorem bldBody_isLeaf {i : Nat} (hi : i < (bldBody b).1.nleaf.toNat) : (nodeOf (bldBody b).1 i).isLeaf = true := by
  rw [bldBody_nleaf, ← keysBelow_length] at hi
  rw [bldBody_leaf b i hi]
  rfl

end tree

/-- Settles O24: `LeastTwo` of each node that `BLD` makes, in the words of `inQueue` and `queueKey`. -/
theorem bldMergesLeastTwo : Obligations.BldMergesLeastTwo := by
  unfold Obligations.BldMergesLeastTwo
  intro s hhalt hphase
  refine ⟨_, exec_bld hhalt hphase, fun n hleaf hnode => ?_⟩
  have htwo := bldBody_leastTwo s.blk hleaf hnode
  exact ⟨htwo.left, htwo.right, htwo.ordered, htwo.least⟩

/-- Settles O26: the weight of an `InnerNode` is the sum of its children's weights as numbers. -/
theorem weightsAreExact : Obligations.WeightsAreExact := by
  unfold Obligations.WeightsAreExact
  intro s hhalt hphase
  exact ⟨_, exec_bld hhalt hphase, fun i hleaf hnode => (bldBody_innerNode s.blk hleaf hnode).weight⟩

/-- Settles O25: the registers, parents and root weight of `TreeMade`. -/
theorem bldTreeShape : Obligations.BldTreeShape := by
  unfold Obligations.BldTreeShape
  intro s hhalt hphase hcounted
  have htree := bldBody_tree s.blk (by omega)
  refine ⟨_, exec_bld hhalt hphase, htree.nleaf, htree.nnode, htree.root, htree.rootValid,
    fun i hi => bldBody_isLeaf s.blk hi, fun i hleaf hnode => ?_, fun j hj hroot => ?_, htree.weight⟩
  · have hinner := bldBody_innerNode s.blk hleaf hnode
    exact ⟨hinner.notLeaf, hinner.left, hinner.right⟩
  · rw [htree.nnode] at hj ⊢
    rw [htree.root] at hroot
    rw [htree.nleaf]
    exact htree.parent j (by omega)

/-- Settles O27: `bldBody_empty` with nothing counted, and the tree of one leaf, whose index 0 is the root, with one
symbol. -/
theorem bldEdgeCases : Obligations.BldEdgeCases := by
  unfold Obligations.BldEdgeCases
  intro s hhalt hphase
  have hframe := bldBody_frame s.blk
  refine ⟨_, exec_bld hhalt hphase, hframe.phase, fun hnone => ?_, fun hone => ?_⟩
  · obtain ⟨hnleaf, hnnode, hroot, hvalid, hnodes, -⟩ := bldBody_empty s.blk hnone
    simp [hframe.cur, hnleaf, hnnode, hroot, hvalid, hnodes]
  · have htree := bldBody_tree s.blk (by omega)
    have hnleaf : (bldBody s.blk).1.nleaf.toNat = 1 := htree.nleaf.trans hone
    have hroot : (bldBody s.blk).1.root.toNat = 0 := by rw [htree.root, hone]
    refine ⟨hnleaf, by rw [htree.nnode, hone], htree.rootValid, hroot, by rw [hframe.cur, hroot],
      bldBody_isLeaf s.blk (by omega), ?_⟩
    rw [← htree.weight, hroot]

/-! ## The tree as a function of the counts -/

section unique

variable {p : Params} {m m' : Memory (NodeWord p)} {k i : Nat}

/-- The left child is the least of the queue (R98, R99). -/
theorem LeastTwo.left_least (h : LeastTwo m k i) {c : Nat} (hc : memInQueue m k i c)
    (hne : c ≠ (nodeRead m i).left.toNat) : pairLess (memKey m (nodeRead m i).left.toNat) (memKey m c) := by
  by_cases hright : c = (nodeRead m i).right.toNat
  · exact hright ▸ h.ordered
  · exact pairLess_trans h.ordered (h.least c hc hne hright)

/-- The two children differ: no key is below itself. -/
theorem LeastTwo.right_ne_left (h : LeastTwo m k i) : (nodeRead m i).right.toNat ≠ (nodeRead m i).left.toNat :=
  fun he => pairLess_irrefl _ (he ▸ h.ordered)

/-- Two indices of which each would come before the other are one index: the queue's order is strict (R98). -/
theorem eq_of_least_of_least {a a' : Nat} (h : a' ≠ a → pairLess (memKey m a) (memKey m a'))
    (h' : a ≠ a' → pairLess (memKey m a') (memKey m a)) : a = a' := by
  by_contra hne
  exact pairLess_irrefl _ (pairLess_trans (h (Ne.symm hne)) (h' hne))

/-- Over the same nodes the children of internal node `i` are the same: each is least of what is left of the queue, and
the order by weight and index has one least element (R98). -/
theorem LeastTwo.children_eq (h : LeastTwo m k i) (h' : LeastTwo m' k i)
    (hbelow : ∀ j, j < i → nodeRead m' j = nodeRead m j) :
    (nodeRead m i).left = (nodeRead m' i).left ∧ (nodeRead m i).right = (nodeRead m' i).right := by
  have hqueue : ∀ c, memInQueue m' k i c ↔ memInQueue m k i c := fun c => memInQueue_congr hbelow
  have hkey : ∀ c, c < i → memKey m' c = memKey m c := fun c hc => memKey_congr (hbelow c hc)
  have hleft : (nodeRead m i).left.toNat = (nodeRead m' i).left.toNat := by
    refine eq_of_least_of_least (m := m) (h.left_least ((hqueue _).1 h'.left)) fun hne => ?_
    rw [← hkey _ h'.left.1, ← hkey _ h.left.1]
    exact h'.left_least ((hqueue _).2 h.left) hne
  have hright : (nodeRead m i).right.toNat = (nodeRead m' i).right.toNat := by
    refine eq_of_least_of_least (m := m) (h.least _ ((hqueue _).1 h'.right) (hleft ▸ h'.right_ne_left)) fun hdiff => ?_
    rw [← hkey _ h'.right.1, ← hkey _ h.right.1]
    exact h'.least _ ((hqueue _).2 h.right) (hleft ▸ h.right_ne_left) hdiff
  exact ⟨BitVec.eq_of_toNat_eq hleft, BitVec.eq_of_toNat_eq hright⟩

/-- Internal nodes with the same children over the same nodes are the same word. -/
theorem InnerNode.eq_of_children (h : InnerNode m i) (h' : InnerNode m' i)
    (hbelow : ∀ j, j < i → nodeRead m' j = nodeRead m j) (hleft : (nodeRead m i).left = (nodeRead m' i).left)
    (hright : (nodeRead m i).right = (nodeRead m' i).right) : nodeRead m' i = nodeRead m i := by
  have hweight : (nodeRead m' i).weight = (nodeRead m i).weight := by
    apply BitVec.eq_of_toNat_eq
    rw [h.weight, h'.weight, ← hleft, ← hright, hbelow _ h.left, hbelow _ h.right]
  have hsym := h'.sym.trans h.sym.symm
  have hkind := h'.notLeaf.trans h.notLeaf.symm
  revert hleft hright hweight hsym hkind
  cases nodeRead m i
  cases nodeRead m' i
  simp_all

/-- The leaves determine the tree: every internal node follows from the nodes below it (R96). -/
theorem nodes_eq_of_leaves_eq {n : Nat} (hleaves : ∀ j, j < k → nodeRead m' j = nodeRead m j)
    (hinner : ∀ j, k ≤ j → j < n → InnerNode m j) (hinner' : ∀ j, k ≤ j → j < n → InnerNode m' j)
    (hleast : ∀ j, k ≤ j → j < n → LeastTwo m k j) (hleast' : ∀ j, k ≤ j → j < n → LeastTwo m' k j) :
    ∀ j, j < n → nodeRead m' j = nodeRead m j := by
  intro j
  induction j using Nat.strong_induction_on with
  | _ j ih =>
    intro hj
    by_cases hleaf : j < k
    · exact hleaves j hleaf
    · have hk : k ≤ j := by omega
      have hbelow : ∀ l, l < j → nodeRead m' l = nodeRead m l := fun l hl => ih l hl (by omega)
      obtain ⟨hleft, hright⟩ := (hleast j hk hj).children_eq (hleast' j hk hj) hbelow
      exact (hinner j hk hj).eq_of_children (hinner' j hk hj) hbelow hleft hright

end unique

/-- Equal counts give the same counted symbols. -/
theorem keysBelow_congr {p : Params} {f g : Memory (BitVec p.cntW)} {n : Nat}
    (h : ∀ x, x < n → Memory.read 0 f x = Memory.read 0 g x) : keysBelow f n = keysBelow g n :=
  List.filter_congr fun x hx => by rw [h x (List.mem_range.1 hx)]

section sameCounts

variable {p : Params} {b c : Block p} (h : ∀ x, x < p.nsym → freqAt b x = freqAt c x)

include h

theorem keyCount_eq_of_freqAt_eq : keyCount b = keyCount c := by
  rw [← keysBelow_length, ← keysBelow_length, keysBelow_congr h]

/-- Equal counts give the same leaves (R96 (a)). -/
theorem bldBody_leaf_eq_of_freqAt_eq {i : Nat} (hi : i < keyCount b) :
    nodeOf (bldBody c).1 i = nodeOf (bldBody b).1 i := by
  have hkeys : keysBelow b.freq p.nsym = keysBelow c.freq p.nsym := keysBelow_congr h
  have hlen : i < (keysBelow b.freq p.nsym).length := (keysBelow_length b).symm ▸ hi
  rw [bldBody_leaf b i hlen, bldBody_leaf c i (hkeys ▸ hlen)]
  simp only [← hkeys]
  rw [h _ (keysBelow_getElem _ _ i hlen).1]

/-- Equal counts give the same registers (R96). -/
theorem bldBody_registers_eq_of_freqAt_eq :
    (bldBody b).1.nleaf = (bldBody c).1.nleaf ∧ (bldBody b).1.nnode = (bldBody c).1.nnode ∧
      (bldBody b).1.root = (bldBody c).1.root ∧ (bldBody b).1.rootValid = (bldBody c).1.rootValid := by
  have hcount := keyCount_eq_of_freqAt_eq h
  by_cases hkeys : keyCount b = 0
  · obtain ⟨hnleaf, hnnode, hroot, hvalid, -⟩ := bldBody_empty b hkeys
    obtain ⟨hnleaf', hnnode', hroot', hvalid', -⟩ := bldBody_empty c (hcount ▸ hkeys)
    exact ⟨hnleaf.trans hnleaf'.symm, hnnode.trans hnnode'.symm, hroot.trans hroot'.symm, hvalid.trans hvalid'.symm⟩
  · have htree := bldBody_tree b hkeys
    have htree' := bldBody_tree c (hcount ▸ hkeys)
    refine ⟨BitVec.eq_of_toNat_eq ?_, BitVec.eq_of_toNat_eq ?_, BitVec.eq_of_toNat_eq ?_,
      htree.rootValid.trans htree'.rootValid.symm⟩
    · rw [htree.nleaf, htree'.nleaf, hcount]
    · rw [htree.nnode, htree'.nnode, hcount]
    · rw [htree.root, htree'.root, hcount]

/-- Equal counts give the same nodes (R96, R103). -/
theorem bldBody_node_eq_of_freqAt_eq {i : Nat} (hi : i < (bldBody b).1.nnode.toNat) :
    nodeOf (bldBody c).1 i = nodeOf (bldBody b).1 i := by
  obtain ⟨hnleaf, hnnode, -⟩ := bldBody_registers_eq_of_freqAt_eq h
  refine nodes_eq_of_leaves_eq (m := (bldBody b).1.node) (m' := (bldBody c).1.node)
    (k := (bldBody b).1.nleaf.toNat) (n := (bldBody b).1.nnode.toNat)
    (fun j hj => bldBody_leaf_eq_of_freqAt_eq h (bldBody_nleaf b ▸ hj))
    (fun j => bldBody_innerNode b) ?_ (fun j => bldBody_leastTwo b) ?_ i hi
  · rw [hnleaf, hnnode]
    exact fun j => bldBody_innerNode c
  · rw [hnleaf, hnnode]
    exact fun j => bldBody_leastTwo c

end sameCounts

/-- Settles O28: equal counts give the same leaves, and the leaves determine every node that is made from them. -/
theorem treeDependsOnCountsAlone : Obligations.TreeDependsOnCountsAlone := by
  unfold Obligations.TreeDependsOnCountsAlone
  intro s c hhalt hphase hhalt' hphase' hcounts
  obtain ⟨hnleaf, hnnode, hroot, hvalid⟩ := bldBody_registers_eq_of_freqAt_eq hcounts
  refine ⟨_, _, exec_bld hhalt hphase, exec_bld (s := { s with blk := c }) hhalt' hphase', hnleaf, hnnode, hroot, hvalid,
    ?_, fun i hi => (bldBody_node_eq_of_freqAt_eq hcounts hi).symm⟩
  rw [(bldBody_frame s.blk).cur, hroot]
  exact (bldBody_frame c).cur.symm

end Sys2Proof.Machine

/-! Proofs for 41_tree_builder: the Kraft sum of an assignment of lengths, and the exchange argument of Huffman's algorithm on
it (O54). Nothing here speaks of the machine. -/

namespace Sys2Proof.Machine

/-! ## Kraft's inequality -/

/-- A code without the empty word in which no word is the beginning of another is uniquely decodable. -/
theorem uniquelyDecodable_of_prefixFree {α : Type} {S : Set (List α)} (hne : [] ∉ S)
    (hpre : ∀ u ∈ S, ∀ v ∈ S, u <+: v → u = v) : InformationTheory.UniquelyDecodable S := by
  intro L₁
  induction L₁ with
  | nil =>
    rintro (_ | ⟨v, L₂⟩) - h₂ hflat
    · rfl
    · have hv : v = [] := (List.append_eq_nil_iff.1 hflat.symm).1
      exact absurd (hv ▸ h₂ v List.mem_cons_self) hne
  | cons u L₁ ih =>
    rintro (_ | ⟨v, L₂⟩) h₁ h₂ hflat
    · have hu : u = [] := (List.append_eq_nil_iff.1 hflat).1
      exact absurd (hu ▸ h₁ u List.mem_cons_self) hne
    · obtain ⟨hu, hL₁⟩ := List.forall_mem_cons.1 h₁
      obtain ⟨hv, hL₂⟩ := List.forall_mem_cons.1 h₂
      rw [List.flatten_cons, List.flatten_cons] at hflat
      have huv : u = v := by
        rcases List.prefix_or_prefix_of_prefix ⟨_, hflat⟩ ⟨_, rfl⟩ with h | h
        · exact hpre u hu v hv h
        · exact (hpre v hv u hu h).symm
      subst huv
      rw [ih L₂ hL₁ hL₂ (List.append_cancel_left hflat)]

/-- The lengths `len` of the members of `q` meet Kraft's inequality. -/
def KraftOn (q : Finset ℕ) (len : ℕ → ℕ) : Prop := ∑ i ∈ q, (1 / 2 : ℝ) ^ len i ≤ 1

/-- The weighted sum of lengths over `q` (R103). -/
def weightedLength (q : Finset ℕ) (w len : ℕ → ℕ) : ℕ := ∑ i ∈ q, w i * len i

section weightedLength

variable {q : Finset ℕ} {w len len' : ℕ → ℕ}

theorem weightedLength_mono (h : ∀ i ∈ q, len i ≤ len' i) : weightedLength q w len ≤ weightedLength q w len' :=
  Finset.sum_le_sum fun i hi => Nat.mul_le_mul_left _ (h i hi)

theorem weightedLength_congr (h : ∀ i ∈ q, len i = len' i) : weightedLength q w len = weightedLength q w len' :=
  Finset.sum_congr rfl fun i hi => by rw [h i hi]

theorem KraftOn.congr (hk : KraftOn q len) (h : ∀ i ∈ q, len' i = len i) : KraftOn q len' := by
  unfold KraftOn at hk ⊢
  rwa [Finset.sum_congr rfl fun i hi => by rw [h i hi]]

end weightedLength

/-- The lengths of a code in which no word is empty or the beginning of another meet Kraft's inequality. -/
theorem kraftOn_of_prefixFree {q : Finset ℕ} {c : ℕ → List Bool} (hne : ∀ i ∈ q, c i ≠ [])
    (hpre : ∀ i ∈ q, ∀ j ∈ q, i ≠ j → ¬ c i <+: c j) : KraftOn q fun i => (c i).length := by
  have hinj : Set.InjOn c q := fun i hi j hj he => by
    by_contra hij
    exact hpre i hi j hj hij (he ▸ List.prefix_rfl)
  have hud : InformationTheory.UniquelyDecodable (q.image c : Set (List Bool)) := by
    refine uniquelyDecodable_of_prefixFree (by simpa using hne) ?_
    simp only [Finset.coe_image, Set.forall_mem_image]
    intro i hi j hj hij
    by_contra hdiff
    exact hpre i hi j hj (fun he => hdiff (he ▸ rfl)) hij
  have hkraft := InformationTheory.kraft_mcmillan_inequality hud
  rw [Finset.sum_image hinj] at hkraft
  simpa [KraftOn] using hkraft

/-- Below 1 the Kraft sum leaves room for one more word of the greatest length. -/
theorem kraft_room {q : Finset ℕ} {len : ℕ → ℕ} {M : ℕ} (hlen : ∀ i ∈ q, len i ≤ M)
    (hlt : ∑ i ∈ q, (1 / 2 : ℝ) ^ len i < 1) : ∑ i ∈ q, (1 / 2 : ℝ) ^ len i + (1 / 2) ^ M ≤ 1 := by
  have hpow : ∀ i ∈ q, (1 / 2 : ℝ) ^ len i = ((2 ^ (M - len i) : ℕ) : ℝ) * (1 / 2) ^ M := fun i hi => by
    obtain ⟨d, hd⟩ := Nat.exists_eq_add_of_le (hlen i hi)
    rw [hd, Nat.add_sub_cancel_left, pow_add]
    push_cast
    rw [mul_left_comm, ← mul_pow]
    norm_num
  have hM : (2 : ℝ) ^ M * (1 / 2) ^ M = 1 := by rw [← mul_pow]; norm_num
  rw [Finset.sum_congr rfl hpow, ← Finset.sum_mul, ← Nat.cast_sum] at hlt ⊢
  generalize ∑ i ∈ q, 2 ^ (M - len i) = N at hlt ⊢
  have hhalf : (0 : ℝ) < (1 / 2) ^ M := by positivity
  have hN : N < 2 ^ M := by
    have hlt' : (N : ℝ) < 2 ^ M := lt_of_mul_lt_mul_right (hlt.trans_eq hM.symm) hhalf.le
    exact_mod_cast hlt'
  have hN' : (N : ℝ) + 1 ≤ 2 ^ M := by exact_mod_cast hN
  calc (N : ℝ) * (1 / 2) ^ M + (1 / 2) ^ M = (N + 1) * (1 / 2) ^ M := by ring
    _ ≤ 2 ^ M * (1 / 2) ^ M := mul_le_mul_of_nonneg_right hN' hhalf.le
    _ = 1 := hM

/-! ## The exchange argument -/

section exchange

variable {q : Finset ℕ} {w len : ℕ → ℕ}

/-- Exchanging the lengths of two members leaves the Kraft sum as it is. -/
theorem KraftOn.swap (h : KraftOn q len) {a x : ℕ} (ha : a ∈ q) (hx : x ∈ q) :
    KraftOn q fun i => len (Equiv.swap a x i) := by
  unfold KraftOn at h ⊢
  rwa [Equiv.Perm.sum_comp (Equiv.swap a x) q (fun i => (1 / 2 : ℝ) ^ len i)]
  intro i hi
  rcases Equiv.swap_apply_ne_self_iff.1 hi with ⟨-, rfl | rfl⟩
  · exact ha
  · exact hx

/-- A sum over `q`, two of its members taken out. -/
theorem sum_eq_add_add_erase {β : Type} [AddCommMonoid β] (f : ℕ → β) {a x : ℕ} (ha : a ∈ q) (hx : x ∈ q)
    (hne : x ≠ a) : ∑ i ∈ q, f i = f a + (f x + ∑ i ∈ (q.erase a).erase x, f i) := by
  rw [Finset.add_sum_erase _ _ (Finset.mem_erase.2 ⟨hne, hx⟩), Finset.add_sum_erase _ _ ha]

/-- Giving the greater length to the lighter member does not lengthen the whole. -/
theorem weightedLength_swap_le {a x : ℕ} (ha : a ∈ q) (hx : x ∈ q) (hw : w a ≤ w x) (hlen : len a ≤ len x) :
    weightedLength q w (fun i => len (Equiv.swap a x i)) ≤ weightedLength q w len := by
  by_cases hne : x = a
  · simp [hne]
  · unfold weightedLength
    have hrest : ∑ i ∈ (q.erase a).erase x, w i * len (Equiv.swap a x i) = ∑ i ∈ (q.erase a).erase x, w i * len i :=
      Finset.sum_congr rfl fun i hi => by
        obtain ⟨hix, hi⟩ := Finset.mem_erase.1 hi
        rw [Equiv.swap_apply_of_ne_of_ne (Finset.ne_of_mem_erase hi) hix]
    rw [sum_eq_add_add_erase _ ha hx hne, sum_eq_add_add_erase _ ha hx hne, hrest]
    simp only [Equiv.swap_apply_left, Equiv.swap_apply_right]
    have := mul_add_mul_le_mul_add_mul hw hlen
    omega

/-- The lightest member `a` of a part `r` of `q` can be given the greatest length of that part. -/
theorem exists_longest {r : Finset ℕ} (hrq : r ⊆ q) (hk : KraftOn q len) {a : ℕ} (ha : a ∈ r)
    (hw : ∀ i ∈ r, w a ≤ w i) :
    ∃ len', KraftOn q len' ∧ weightedLength q w len' ≤ weightedLength q w len ∧ (∀ i ∈ r, len' i ≤ len' a) ∧
      (∀ i, i ∉ r → len' i = len i) ∧ ∃ x ∈ r, len' a = len x := by
  obtain ⟨x, hx, hmax⟩ := Finset.exists_max_image r len ⟨a, ha⟩
  refine ⟨fun i => len (Equiv.swap a x i), hk.swap (hrq ha) (hrq hx),
    weightedLength_swap_le (hrq ha) (hrq hx) (hw x hx) (hmax a ha), fun i hi => ?_, fun i hi => ?_, x, hx, ?_⟩
  · have hmem : Equiv.swap a x i ∈ r := by
      rw [Equiv.swap_apply_def]
      split_ifs <;> assumption
    simpa using hmax _ hmem
  · exact congrArg len
      (Equiv.swap_apply_of_ne_of_ne (ne_of_mem_of_not_mem ha hi).symm (ne_of_mem_of_not_mem hx hi).symm)
  · exact congrArg len (Equiv.swap_apply_left a x)

/-- The two lightest members can be given the same length, without lengthening the whole: first the greatest length for the
lightest, then the next for the other, and then the longer of the two cut down to the shorter. -/
theorem exists_siblings (hk : KraftOn q len) {a b : ℕ} (ha : a ∈ q) (hb : b ∈ q) (hne : b ≠ a)
    (hwa : ∀ i ∈ q, w a ≤ w i) (hwb : ∀ i ∈ q.erase a, w b ≤ w i) :
    ∃ len', KraftOn q len' ∧ weightedLength q w len' ≤ weightedLength q w len ∧ len' a = len' b := by
  obtain ⟨len₁, hk₁, hle₁, hmax₁, -, -⟩ := exists_longest subset_rfl hk ha hwa
  obtain ⟨len₂, hk₂, hle₂, hmax₂, hsame, x, hx, hlenb⟩ :=
    exists_longest (Finset.erase_subset a q) hk₁ (Finset.mem_erase.2 ⟨hne, hb⟩) hwb
  have hlonger : len₂ b ≤ len₂ a := by
    rw [hlenb, hsame a (Finset.notMem_erase a q)]
    exact hmax₁ x (Finset.mem_of_mem_erase hx)
  have hrest : ∀ i ∈ q.erase a, Function.update len₂ a (len₂ b) i = len₂ i := fun i hi =>
    Function.update_of_ne (Finset.ne_of_mem_erase hi) _ _
  refine ⟨Function.update len₂ a (len₂ b), ?_, le_trans ?_ (hle₂.trans hle₁), ?_⟩
  · unfold KraftOn at hk₂ ⊢
    rw [← Finset.add_sum_erase _ _ ha] at hk₂ ⊢
    rw [Function.update_self, Finset.sum_congr rfl fun i hi => by rw [hrest i hi], add_comm]
    have hpos : (0 : ℝ) < (1 / 2) ^ len₂ a := by positivity
    exact kraft_room hmax₂ (by linarith)
  · refine weightedLength_mono fun i hi => ?_
    by_cases hia : i = a
    · rwa [hia, Function.update_self]
    · exact (hrest i (Finset.mem_erase.2 ⟨hia, hi⟩)).le
  · rw [Function.update_self, Function.update_of_ne hne]

end exchange

/-! ## One merge -/

section merge

variable {q : Finset ℕ} {w len : ℕ → ℕ} {a b n : ℕ}

/-- What the queue `q` becomes when `a` and `b` leave it and `n` enters (R97). -/
def mergedQueue (q : Finset ℕ) (a b n : ℕ) : Finset ℕ := insert n ((q.erase a).erase b)

theorem sum_mergedQueue {β : Type} [AddCommMonoid β] (f : ℕ → β) (hn : n ∉ q) :
    ∑ i ∈ mergedQueue q a b n, f i = f n + ∑ i ∈ (q.erase a).erase b, f i :=
  Finset.sum_insert fun h => hn (Finset.mem_of_mem_erase (Finset.mem_of_mem_erase h))

variable (ha : a ∈ q) (hb : b ∈ q) (hne : b ≠ a) (hn : n ∉ q)

include ha hb hne hn

/-- A word that is one bit shorter takes the room of the two words below it. -/
theorem KraftOn.merge (h : KraftOn q len) (hlena : len a = len n + 1) (hlenb : len b = len n + 1) :
    KraftOn (mergedQueue q a b n) len := by
  unfold KraftOn at h ⊢
  rw [sum_eq_add_add_erase _ ha hb hne, hlena, hlenb, pow_succ] at h
  rw [sum_mergedQueue _ hn]
  linarith

/-- Two siblings count their parent's length once each, and one bit more. -/
theorem weightedLength_merge (hw : w n = w a + w b) (hlena : len a = len n + 1) (hlenb : len b = len n + 1) :
    weightedLength q w len = weightedLength (mergedQueue q a b n) w len + w n := by
  unfold weightedLength
  rw [sum_eq_add_add_erase _ ha hb hne, sum_mergedQueue _ hn, hlena, hlenb, hw]
  ring

/-- Huffman's step: lengths for the queue give lengths for the queue with the two lightest members joined, which weigh less
by at least the weight of the new node. -/
theorem exists_merged (hk : KraftOn q len) (hw : w n = w a + w b) (hwa : ∀ i ∈ q, w a ≤ w i)
    (hwb : ∀ i ∈ q.erase a, w b ≤ w i) :
    ∃ len', KraftOn (mergedQueue q a b n) len' ∧
      weightedLength (mergedQueue q a b n) w len' + w n ≤ weightedLength q w len := by
  obtain ⟨len₁, hk₁, hle, heq⟩ := exists_siblings hk ha hb hne hwa hwb
  have hpos : len₁ b ≠ 0 := fun h0 => by
    unfold KraftOn at hk₁
    rw [sum_eq_add_add_erase _ ha hb hne, heq, h0, pow_zero] at hk₁
    have : (0 : ℝ) ≤ ∑ i ∈ (q.erase a).erase b, (1 / 2) ^ len₁ i := by positivity
    linarith
  have hold : ∀ i ∈ q, Function.update len₁ n (len₁ b - 1) i = len₁ i := fun i hi =>
    Function.update_of_ne (ne_of_mem_of_not_mem hi hn) _ _
  have hlena : Function.update len₁ n (len₁ b - 1) a = Function.update len₁ n (len₁ b - 1) n + 1 := by
    rw [hold a ha, Function.update_self, heq]; omega
  have hlenb : Function.update len₁ n (len₁ b - 1) b = Function.update len₁ n (len₁ b - 1) n + 1 := by
    rw [hold b hb, Function.update_self]; omega
  refine ⟨Function.update len₁ n (len₁ b - 1), KraftOn.merge ha hb hne hn (hk₁.congr hold) hlena hlenb, ?_⟩
  rwa [← weightedLength_merge ha hb hne hn hw hlena hlenb, weightedLength_congr hold]

end merge

end Sys2Proof.Machine

/-! Proofs for 41_tree_builder: the code table that `BLD` and `TBL` make is optimal (O54): every queue of the merge loop is, by
the exchange argument, no better served by other lengths than by the depths of its nodes. -/

namespace Sys2Proof.Machine

open Sys2Proof (Params)

variable {p : Params}

/-! ## Depths -/

/-- The number of steps from `j` up to `top`, each to the index `par` gives. -/
def stepsUp (par : ℕ → ℕ) (top j : ℕ) : ℕ :=
  if j < par j ∧ j < top then stepsUp par top (par j) + 1 else 0
termination_by top - j

/-- `d` gives the depth of every node of the tree with leaves `0 .. k-1` and internal nodes `k .. n-1`, the root the last
(R100). -/
structure Depths (m : Memory (NodeWord p)) (k n : Nat) (d : ℕ → ℕ) : Prop where
  root : d (n - 1) = 0
  child : ∀ i, k ≤ i → i < n → ∀ bit, d ((nodeRead m i).child bit).toNat = d i + 1

/-- A tree in which every node but the root has one parent has depths: the steps up to the root (R100). -/
theorem IsTree.exists_depths {m : Memory (NodeWord p)} {k n : Nat} (h : IsTree m k n)
    (hparent : ∀ j, j + 1 < n → ∃! e, isEdgeTo m k n e j) : ∃ d, Depths m k n d := by
  choose! par hpar honly using hparent
  refine ⟨stepsUp (fun j => (par j).1) (n - 1), ?_, fun i hk hi bit => ?_⟩
  · rw [stepsUp, if_neg (by omega)]
  · have hlt := h.child_lt hk hi bit
    have hedge : (i, bit) = par ((nodeRead m i).child bit).toNat := honly _ (by omega) (i, bit) ⟨hk, hi, rfl⟩
    rw [stepsUp, ← hedge, if_pos ⟨hlt, by omega⟩]

/-- A path from node `i` to a leaf has as many bits as the leaf lies below `i`. -/
theorem Depths.leafAt_depth {m : Memory (NodeWord p)} {k n : Nat} {d : ℕ → ℕ} (hd : Depths m k n d) (h : IsTree m k n)
    (l : List Bool) : ∀ {i : BitVec p.idxW} {x : BitVec p.symW}, i.toNat < n → leafAt m i l = some x →
      ∃ j, j < k ∧ (nodeRead m j).sym = x ∧ d j = d i.toNat + l.length := by
  induction l with
  | nil =>
    intro i x hi hx
    rw [leafAt_nil] at hx
    split at hx
    · next hleaf => exact ⟨i.toNat, (h.leaf_iff hi).1 hleaf, Option.some.inj hx, rfl⟩
    · cases hx
  | cons bit l ih =>
    intro i x hi hx
    rw [leafAt_cons] at hx
    split at hx
    · cases hx
    · next hinner =>
      have hk : k ≤ i.toNat := by
        by_contra hk
        exact hinner (h.leaf _ (by omega))
      obtain ⟨j, hj, hsym, hdepth⟩ := ih (by have := h.child_lt hk hi bit; omega) hx
      refine ⟨j, hj, hsym, ?_⟩
      rw [hdepth, hd.child _ hk hi bit, List.length_cons]
      omega

/-! ## The queues -/

/-- The weight of a node as a number. -/
def memWeight (m : Memory (NodeWord p)) (i : Nat) : Nat := (nodeRead m i).weight.toNat

/-- `q` is the queue from which node `n` is made (R97). -/
def IsQueue (m : Memory (NodeWord p)) (k n : Nat) (q : Finset ℕ) : Prop := ∀ c, c ∈ q ↔ memInQueue m k n c

/-- An index that comes before another in the queue's order is no heavier (R98). -/
theorem memWeight_le_of_pairLess {m : Memory (NodeWord p)} {i j : Nat} (h : pairLess (memKey m i) (memKey m j)) :
    memWeight m i ≤ memWeight m j := by
  rcases h with hlt | ⟨heq, -⟩
  · exact hlt.le
  · exact heq.le

/-- The left child is the lightest of the queue. -/
theorem LeastTwo.left_lightest {m : Memory (NodeWord p)} {k n c : Nat} (h : LeastTwo m k n) (hc : memInQueue m k n c) :
    memWeight m (nodeRead m n).left.toNat ≤ memWeight m c := by
  by_cases hleft : c = (nodeRead m n).left.toNat
  · rw [hleft]
  · exact memWeight_le_of_pairLess (h.left_least hc hleft)

/-- The right child is the lightest of the queue but for the left child. -/
theorem LeastTwo.right_lightest {m : Memory (NodeWord p)} {k n c : Nat} (h : LeastTwo m k n) (hc : memInQueue m k n c)
    (hleft : c ≠ (nodeRead m n).left.toNat) : memWeight m (nodeRead m n).right.toNat ≤ memWeight m c := by
  by_cases hright : c = (nodeRead m n).right.toNat
  · rw [hright]
  · exact memWeight_le_of_pairLess (h.least c hc hleft hright)

/-- The first queue holds the leaves (R97). -/
theorem isQueue_leaves (m : Memory (NodeWord p)) (k : Nat) : IsQueue m k k (Finset.range k) := fun c => by
  rw [Finset.mem_range]
  exact ⟨fun h => ⟨h, fun j hk hj => absurd hj (Nat.not_lt.2 hk)⟩, fun h => h.1⟩

section queue

variable {m : Memory (NodeWord p)} {k n : Nat} {q : Finset ℕ} (hq : IsQueue m k n q)

include hq

/-- Making node `n` takes its children out of the queue and puts `n` in (R97). -/
theorem IsQueue.succ (hle : k ≤ n) (hinner : ∀ i, k ≤ i → i ≤ n → InnerNode m i) :
    IsQueue m k (n + 1) (mergedQueue q (nodeRead m n).left.toNat (nodeRead m n).right.toNat n) := by
  intro c
  rw [mergedQueue, Finset.mem_insert, Finset.mem_erase, Finset.mem_erase, hq c]
  constructor
  · rintro (rfl | ⟨hright, hleft, hlt, hfree⟩)
    · refine ⟨Nat.lt_succ_self c, fun j hk hj => ?_⟩
      have hj' := hinner j hk (Nat.le_of_lt_succ hj)
      have := hj'.left
      have := hj'.right
      omega
    · refine ⟨hlt.trans (Nat.lt_succ_self n), fun j hk hj => ?_⟩
      rcases Nat.lt_succ_iff_lt_or_eq.1 hj with hjn | rfl
      · exact hfree j hk hjn
      · exact ⟨Ne.symm hleft, Ne.symm hright⟩
  · rintro ⟨hlt, hfree⟩
    rcases Nat.lt_succ_iff_lt_or_eq.1 hlt with hcn | rfl
    · obtain ⟨hleft, hright⟩ := hfree n hle (Nat.lt_succ_self n)
      exact .inr ⟨Ne.symm hright, Ne.symm hleft, hcn, fun j hk hj => hfree j hk (hj.trans (Nat.lt_succ_self n))⟩
    · exact .inl rfl

/-- When all nodes are made only the root is in the queue (R97, R100). -/
theorem IsQueue.eq_root (hp : HasParents m k n) {c : Nat} (hc : c ∈ q) : c = n - 1 := by
  have hin := (hq c).1 hc
  by_contra hne
  obtain ⟨e, he⟩ := hp c (by have := hin.1; omega)
  exact hin.no_edge e he

end queue

/-- From every queue on, the depths of the queued nodes give the least weighted sum of all lengths that meet Kraft's
inequality: of the last queue because the root has depth 0, and of an earlier one because making a node adds its weight to
the sum of the depths, and at least its weight to any other. -/
theorem Depths.optimal {m : Memory (NodeWord p)} {k n : Nat} {d : ℕ → ℕ} (hd : Depths m k n d) (hp : HasParents m k n)
    (hinner : ∀ i, k ≤ i → i < n → InnerNode m i) (hleast : ∀ i, k ≤ i → i < n → LeastTwo m k i) (r : Nat) :
    ∀ {i : Nat} {q : Finset ℕ} {len : ℕ → ℕ}, k ≤ i → i + r = n → IsQueue m k i q → KraftOn q len →
      weightedLength q (memWeight m) d ≤ weightedLength q (memWeight m) len := by
  induction r with
  | zero =>
    rintro i q len hk rfl hq -
    have hzero : weightedLength q (memWeight m) d = 0 :=
      Finset.sum_eq_zero fun c hc => by rw [hq.eq_root hp hc, show d (i - 1) = 0 from hd.root, Nat.mul_zero]
    omega
  | succ r ih =>
    intro i q len hk hi hq hkraft
    have hin : i < n := by omega
    have htwo := hleast i hk hin
    have hl := (hq _).2 htwo.left
    have hr := (hq _).2 htwo.right
    have hnew : i ∉ q := fun h => lt_irrefl i ((hq i).1 h).1
    have hweight := (hinner i hk hin).weight
    obtain ⟨len', hkraft', hless⟩ := exists_merged (w := memWeight m) hl hr htwo.right_ne_left hnew hkraft hweight
      (fun c hc => htwo.left_lightest ((hq c).1 hc))
      fun c hc => by
        obtain ⟨hcl, hcq⟩ := Finset.mem_erase.1 hc
        exact htwo.right_lightest ((hq c).1 hcq) hcl
    have hdepth := weightedLength_merge (w := memWeight m) hl hr htwo.right_ne_left hnew hweight (hd.child i hk hin false)
      (hd.child i hk hin true)
    have hrec := ih (by omega) (by omega) (hq.succ hk fun j hkj hj => hinner j hkj (by omega)) hkraft'
    omega

/-! ## The code table -/

section table

variable {b : Block p}

/-- Two leaves have two symbols (R97). -/
theorem Block.TreeShape.sym_injOn (hs : b.TreeShape) :
    Set.InjOn (fun i => (nodeOf b i).sym.toNat) (Finset.range b.nleaf.toNat : Set ℕ) := by
  refine StrictMonoOn.injOn fun i _ j hj hlt => ?_
  obtain ⟨d, rfl⟩ := Nat.exists_eq_add_of_lt hlt
  exact hs.sym_lt i d (by simpa using hj)

/-- A sum over the symbols with their counts is the sum over the leaves with their weights (R97). -/
theorem Block.TreeShape.sum_counted (hs : b.TreeShape) (g : ℕ → ℕ) :
    ((List.range p.nsym).map fun x => (freqAt b x).toNat * g x).sum =
      weightedLength (Finset.range b.nleaf.toNat) (memWeight b.node) fun i => g (nodeOf b i).sym.toNat := by
  refine (Finset.sum_of_injOn (t := Finset.range p.nsym) (g := fun x => (freqAt b x).toNat * g x) _ hs.sym_injOn
    (fun i _ => ?_) (fun x hx hnot => ?_) fun i hi => ?_).symm
  · exact Finset.mem_coe.2 (Finset.mem_range.2 (nodeOf b i).sym.isLt)
  · have hzero : freqAt b x = 0 := by
      by_contra hcounted
      obtain ⟨i, hi, hsym⟩ := hs.keys x (Finset.mem_range.1 hx) hcounted
      exact hnot ⟨i, Finset.mem_coe.2 (Finset.mem_range.2 hi), hsym⟩
    simp [hzero]
  · obtain ⟨-, -, -, -, hweight⟩ := hs.leaf i (Finset.mem_range.1 hi)
    exact congrArg (· * g (nodeOf b i).sym.toNat) hweight

section codes

variable (hs : b.TreeShape) (ht : b.TableOk) {i : Nat} (hi : i < b.nleaf.toNat)

include hs ht hi

/-- The symbol of a leaf has a code that `CodeOf` describes (R106). -/
theorem Block.TableOk.codeOf_leaf : b.CodeOf (nodeOf b i).sym.toNat := by
  obtain ⟨-, -, -, hcounted, -⟩ := hs.leaf i hi
  have hlt := (nodeOf b i).sym.isLt
  exact ht.codes _ hlt ((ht.keys _ hlt).2 hcounted)

variable (hr : b.TreeRegisters)

include hr

/-- A single leaf has the fallback code, of one bit (R110). -/
theorem Block.TableOk.len_eq_one (hone : b.nleaf.toNat = 1) : (codeAt b (nodeOf b i).sym.toNat).len.toNat = 1 := by
  have hcode := ht.codeOf_leaf hs hi
  rw [← CodeWord.length_toBits, (hcode.fallback ((hs.root_leaf_iff hr (by omega)).2 hone)).1, List.length_singleton]

/-- Below an internal root a code is as long as its leaf is deep (R106, R107). -/
theorem Block.TableOk.len_eq_depth {d : ℕ → ℕ} (hd : Depths b.node b.nleaf.toNat b.nnode.toNat d)
    (htwo : b.nleaf.toNat ≠ 1) : (codeAt b (nodeOf b i).sym.toNat).len.toNat = d i := by
  have hlast := hr.root_last (by omega)
  have hinner : (nodeOf b b.root.toNat).isLeaf = false :=
    Bool.eq_false_iff.2 fun hleaf => htwo ((hs.root_leaf_iff hr (by omega)).1 hleaf)
  obtain ⟨x, hpath, hx⟩ := Option.map_eq_some_iff.1 ((ht.codeOf_leaf hs hi).path hinner)
  obtain ⟨j, hj, hsym, hdepth⟩ := hd.leafAt_depth (hs.isTree hr) _ (by omega) hpath
  have hij : j = i := hs.sym_injOn (by simpa using hj) (by simpa using hi) ((congrArg BitVec.toNat hsym).trans hx)
  have hroot : d b.root.toNat = 0 := by
    rw [show b.root.toNat = b.nnode.toNat - 1 by omega]
    exact hd.root
  rw [← hij, hdepth, hroot, Nat.zero_add, hij, CodeWord.length_toBits]

end codes

/-- The fields of an internal node of the tree of R38 item 4. -/
theorem Block.TreeShape.innerNode (hs : b.TreeShape) {i : Nat} (hleaf : b.nleaf.toNat ≤ i) (hnode : i < b.nnode.toNat) :
    InnerNode b.node i := by
  obtain ⟨hkind, hsym, hleft, hright, -, hweight⟩ := hs.inner i hleaf hnode
  exact ⟨hkind, hsym, hleft, hright, hweight⟩

section anyCode

variable {code : ℕ → List Bool} (hne : ∀ x, x < p.nsym → freqAt b x ≠ 0 → code x ≠ [])

include hne

/-- The leaves' symbols are counted, so each has a word of the code. -/
theorem Block.TreeShape.code_leaf_ne_nil (hs : b.TreeShape) {i : Nat} (hi : i < b.nleaf.toNat) :
    code (nodeOf b i).sym.toNat ≠ [] := by
  obtain ⟨-, -, -, hcounted, -⟩ := hs.leaf i hi
  exact hne _ (nodeOf b i).sym.isLt hcounted

variable (hpre : ∀ x y, x < p.nsym → y < p.nsym → x ≠ y → freqAt b x ≠ 0 → freqAt b y ≠ 0 → ¬ code x <+: code y)

include hpre

/-- The lengths such a code gives the leaves meet Kraft's inequality. -/
theorem Block.TreeShape.kraftOn_leaves (hs : b.TreeShape) :
    KraftOn (Finset.range b.nleaf.toNat) fun i => (code (nodeOf b i).sym.toNat).length := by
  refine kraftOn_of_prefixFree (fun i hi => hs.code_leaf_ne_nil hne (Finset.mem_range.1 hi)) fun i hi j hj hij => ?_
  obtain ⟨-, -, -, hcounted, -⟩ := hs.leaf i (Finset.mem_range.1 hi)
  obtain ⟨-, -, -, hcounted', -⟩ := hs.leaf j (Finset.mem_range.1 hj)
  exact hpre _ _ (nodeOf b i).sym.isLt (nodeOf b j).sym.isLt
    (fun he => hij (hs.sym_injOn (Finset.mem_coe.2 hi) (Finset.mem_coe.2 hj) he)) hcounted hcounted'

/-- The table of a tree whose internal nodes join the two least of their queues is optimal (R95, R103): a single leaf's
code has the one bit that every code needs, and otherwise the lengths are depths. -/
theorem Block.Inv.table_optimal (h : b.Inv) (hphase : b.phase = .table)
    (hleast : ∀ i, b.nleaf.toNat ≤ i → i < b.nnode.toNat → LeastTwo b.node b.nleaf.toNat i) :
    ((List.range p.nsym).map (fun x => (freqAt b x).toNat * (codeAt b x).len.toNat)).sum ≤
      ((List.range p.nsym).map (fun x => (freqAt b x).toNat * (code x).length)).sum := by
  have hbuilt : b.phase ≠ .count := by rw [hphase]; decide
  have hr := h.registers hbuilt
  have hs := h.shape hbuilt
  have ht := h.table hphase
  rw [hs.sum_counted fun x => (codeAt b x).len.toNat, hs.sum_counted fun x => (code x).length]
  by_cases hone : b.nleaf.toNat = 1
  · refine weightedLength_mono fun i hi => ?_
    rw [ht.len_eq_one hs (Finset.mem_range.1 hi) hr hone]
    exact List.length_pos_iff.2 (hs.code_leaf_ne_nil hne (Finset.mem_range.1 hi))
  · obtain ⟨d, hd⟩ := (hs.isTree hr).exists_depths hs.parent
    have hle : b.nleaf.toNat ≤ b.nnode.toNat := by
      by_cases hempty : b.nleaf.toNat = 0
      · omega
      · exact (hr.root_last hempty).2
    rw [weightedLength_congr fun i hi => ht.len_eq_depth hs (Finset.mem_range.1 hi) hr hd hone]
    exact hd.optimal hs.hasParents (fun i => hs.innerNode) hleast _ le_rfl (Nat.add_sub_of_le hle)
      (isQueue_leaves _ _) (hs.kraftOn_leaves hne hpre)

end anyCode

end table

/-- Settles O54: `BLD` and `TBL` complete (`Block.Inv.bld`, `Block.Inv.tbl`), and the table they make is that of a tree
whose internal nodes join the two least of their queues. -/
theorem huffmanOptimal : Obligations.HuffmanOptimal := by
  unfold Obligations.HuffmanOptimal
  intro s hinv hhalt hphase
  have hframe := bldBody_frame s.blk
  obtain ⟨table, hbody, htable⟩ := (Block.Inv.bld hinv hphase).tbl hframe.phase
  have htbl := exec_of_ok (s := s.answer (bldBody s.blk))
    (firstError_tbl (hframe.halt.trans hhalt) hframe.phase) hbody
  refine ⟨s.answer (bldBody s.blk), { (bldBody s.blk).1 with code := table, phase := .table },
    exec_of_ok (firstError_bld hhalt hphase) rfl, ?_, fun code hne hpre => ?_⟩
  · rw [htbl]
    simp only [State.answer, bldBody_rsp, List.append_assoc]
    rfl
  · have hoptimal := htable.table_optimal (code := code) (hphase := rfl)
      (hleast := fun i => bldBody_leastTwo s.blk)
    simp only [freqAt, hframe.freq] at hoptimal
    exact hoptimal hne hpre

end Sys2Proof.Machine

/-! Proofs for 42_codebook_rom: the length of a code (O30), and the bits of a code given to the decoder (O52). -/

namespace Sys2Proof.Machine

open Sys2Proof (Params Instr Symbol)

/-! ## The codes of a table -/

section codes

variable {p : Params} {b : Block p} {x : Nat}

/-- Below an internal root the code of a symbol that has one is a path to a leaf with that symbol (R107). -/
theorem Block.TableOk.code_path (ht : b.TableOk) (hx : x < p.nsym) (hcode : (codeAt b x).len ≠ 0)
    (hinner : (nodeOf b b.root.toNat).isLeaf = false) :
    ∃ y, leafAt b.node b.root (codeAt b x).toBits = some y ∧ y.toNat = x :=
  Option.map_eq_some_iff.1 ((ht.codes x hx hcode).path hinner)

/-- With two leaves or more a code is no longer than one less than the number of leaves (R109). -/
theorem Block.Inv.len_le (h : b.Inv) (hphase : b.phase = .table) (htwo : 2 ≤ b.nleaf.toNat) (hx : x < p.nsym) :
    (codeAt b x).len.toNat ≤ b.nleaf.toNat - 1 := by
  have hbuilt : b.phase ≠ .count := by rw [hphase]; decide
  have hr := h.registers hbuilt
  have hs := h.shape hbuilt
  by_cases hcode : (codeAt b x).len = 0
  · simp [hcode]
  · have hinner : (nodeOf b b.root.toNat).isLeaf = false :=
      Bool.eq_false_iff.2 fun hleaf => by
        have := (hs.root_leaf_iff hr (by omega)).1 hleaf
        omega
    obtain ⟨y, hpath, -⟩ := (h.table hphase).code_path hx hcode hinner
    rw [← CodeWord.length_toBits]
    exact hs.path_length hr (by omega) hpath

end codes

/-- Settles O30: there are at most `NSYM` leaves (`keyCount_le`), and a code is a path (`Block.Inv.len_le`). -/
theorem codeLengthBound : Obligations.CodeLengthBound := by
  unfold Obligations.CodeLengthBound
  intro s hinv hphase htwo
  have hr := hinv.registers (by rw [hphase]; decide)
  refine ⟨Nat.sub_le_sub_right (hr.nleaf ▸ keyCount_le s.blk) 1, fun x hx => ?_⟩
  exact Block.Inv.len_le hinv hphase htwo hx

/-! ## The bits of a code through `DEC` -/

/-- A response without a symbol adds nothing to the decoded sequence (R10). -/
theorem decodedSequence_plain_cons (rs : List Rsp) : decodedSequence (Rsp.plain :: rs) = decodedSequence rs := rfl

/-- A response with a symbol alone decodes to that symbol (R10). -/
theorem decodedSequence_symbol {n : Nat} (x : BitVec n) : decodedSequence [Rsp.symbol x] = [x.setWidth 16] := rfl

/-- A leaf's symbol, zero-extended as a response carries it, is the symbol operand of the same value (R76). -/
theorem setWidth_eq_of_toNat_eq {n : Nat} {y : BitVec n} {sym : Symbol} (h : y.toNat = sym.toNat) : y.setWidth 16 = sym :=
  BitVec.eq_of_toNat_eq (by rw [BitVec.toNat_setWidth, h, Nat.mod_eq_of_lt sym.isLt])

/-- One accepted `DEC`, then the rest of the bits, on an idle machine. -/
theorem run_dec_cons {s : State} {bit : Bool} {a : Block s.params × Rsp} (l : List Bool) (hidle : s.inbox = [])
    (hhalt : s.blk.halt = false) (hbuilt : s.blk.phase ≠ .count) (hbody : decBody bit s.blk = .ok a) :
    run (bit :: l).length (s.present ((bit :: l).map .dec)) = run l.length ((s.answer a).present (l.map .dec)) :=
  run_present _ _ hidle (decode_encode_of_wf rfl) (.inr ⟨firstError_dec bit hhalt hbuilt, hbody⟩)

/-- A path from the cursor to a leaf below an internal root, given to `DEC` bit by bit, emits the leaf's symbol and nothing
else, and takes the cursor back to the root (R119, R120). -/
theorem run_dec_path (l : List Bool) :
    ∀ (s : State) (x : BitVec s.params.symW), s.Inv → s.inbox = [] → s.blk.halt = false → s.blk.phase ≠ .count →
      s.blk.rootValid = true → (nodeOf s.blk s.blk.root.toNat).isLeaf = false →
      leafAt s.blk.node s.blk.cur l = some x →
      ∃ rs, run l.length (s.present (l.map .dec)) = .next { s with
          blk := { s.blk with cur := s.blk.root }, rsps := s.rsps ++ rs } ∧
        errorFree rs ∧ decodedSequence rs = [x.setWidth 16] := by
  induction l with
  | nil =>
    intro s x hinv _ _ hbuilt hvalid hroot hpath
    obtain ⟨-, -, hcur, -⟩ := Block.Inv.cursor_inner hinv hbuilt hvalid hroot
    rw [leafAt_nil, hcur] at hpath
    cases hpath
  | cons bit l ih =>
    intro s x hinv hidle hhalt hbuilt hvalid hroot hpath
    obtain ⟨a, hbody, hinv'⟩ := Block.Inv.dec hinv hbuilt bit
    rw [run_dec_cons l hidle hhalt hbuilt hbody]
    rcases decBody_ok hbody with ⟨hinvalid, -⟩ | ⟨-, hleaf, -⟩ | ⟨-, -, hcur, hnext⟩
    · rw [hvalid] at hinvalid; cases hinvalid
    · exact absurd hleaf (Bool.eq_false_iff.1 hroot)
    rw [leafAt_cons, hcur, if_neg Bool.false_ne_true] at hpath
    rcases hnext with ⟨hleaf, rfl⟩ | ⟨-, rfl⟩
    case inl =>
      cases l with
      | nil =>
        rw [leafAt_nil, if_pos hleaf] at hpath
        cases hpath
        exact ⟨[Rsp.symbol _], by simp [State.answer], List.forall_mem_singleton.2 rfl, decodedSequence_symbol _⟩
      | cons _ _ => rw [leafAt_cons, if_pos hleaf] at hpath; cases hpath
    case inr =>
      obtain ⟨rs, hrun, hok, hdecoded⟩ :=
        ih (s.answer ({ s.blk with cur := (nodeRead s.blk.node s.blk.cur.toNat).child bit }, Rsp.plain)) x hinv' hidle
          hhalt hbuilt hvalid hroot hpath
      refine ⟨Rsp.plain :: rs, ?_, List.forall_mem_cons.2 ⟨rfl, hok⟩, (decodedSequence_plain_cons rs).trans hdecoded⟩
      rw [hrun]
      simp [State.answer]

/-- With the cursor at the root, the code of a counted symbol given to `DEC` bit by bit emits that symbol and nothing else, and
leaves the block as it was: below an internal root the code is a path, and a single leaf answers its symbol to the one bit of
the fallback code (R119, R120, R121). -/
theorem run_dec_code {s : State} {sym : Symbol} (hinv : s.Inv) (hidle : s.inbox = []) (hhalt : s.blk.halt = false)
    (hphase : s.blk.phase = .table) (hcur : s.blk.cur = s.blk.root) (hsym : sym.toNat < s.params.nsym)
    (hcounted : freqAt s.blk sym.toNat ≠ 0) :
    ∃ rs, run (codeAt s.blk sym.toNat).toBits.length (s.present ((codeAt s.blk sym.toNat).toBits.map .dec)) =
        .next { s with rsps := s.rsps ++ rs } ∧
      errorFree rs ∧ decodedSequence rs = [sym] := by
  have hbuilt : s.blk.phase ≠ .count := by rw [hphase]; decide
  have hr := hinv.registers hbuilt
  have hs := hinv.shape hbuilt
  have ht := hinv.table hphase
  have hcode := (ht.keys _ hsym).2 hcounted
  obtain ⟨i, hi, -⟩ := hs.keys _ hsym hcounted
  have hvalid := hr.rootValid_iff.2 (Nat.ne_zero_of_lt hi)
  cases hroot : (nodeOf s.blk s.blk.root.toNat).isLeaf with
  | false =>
    obtain ⟨y, hpath, hy⟩ := ht.code_path hsym hcode hroot
    obtain ⟨rs, hrun, hok, hdecoded⟩ :=
      run_dec_path _ s y hinv hidle hhalt hbuilt hvalid hroot (by rw [hcur]; exact hpath)
    refine ⟨rs, ?_, hok, by rw [hdecoded, setWidth_eq_of_toNat_eq hy]⟩
    rw [hrun, ← hcur]
  | true =>
    obtain ⟨hbits, hy⟩ := (ht.codes _ hsym hcode).fallback hroot
    have hlast := hr.root_last (Nat.ne_zero_of_lt hi)
    have hrange := (hs.isTree hr).range
    have hbody := decBody_single (bit := false) hvalid (by omega) hroot
    refine ⟨[Rsp.symbol (nodeOf s.blk s.blk.root.toNat).sym], ?_, List.forall_mem_singleton.2 rfl, ?_⟩
    · rw [hbits, run_dec_cons [] hidle hhalt hbuilt hbody]
      simp [State.answer, nodeOf]
    · rw [decodedSequence_symbol, setWidth_eq_of_toNat_eq hy]

/-- An idle machine answers `ENC` of a symbol with a code with the code's bits (R114). -/
theorem run_enc {s : State} {sym : Symbol} (l : List Instr) (n : Nat) (hidle : s.inbox = []) (hhalt : s.blk.halt = false)
    (hphase : s.blk.phase = .table) (hsym : sym.toNat < s.params.nsym) (hcode : (codeAt s.blk sym.toNat).len ≠ 0) :
    run (n + 1) (s.present (.enc sym :: l)) =
      run n ((s.answer (s.blk, Rsp.code (codeAt s.blk sym.toNat).toBits)).present l) :=
  run_present l n hidle (decode_encode_of_wf (decide_eq_true hsym))
    (.inr ⟨firstError_enc hsym hhalt hphase, congrArg Except.ok (encBody_of_len_ne_zero hcode)⟩)

/-- Settles O52: `ENC` answers the symbol's code (`run_enc`), and `DEC` reads it back (`run_dec_code`). -/
theorem symbolRoundTrip : Obligations.SymbolRoundTrip := by
  unfold Obligations.SymbolRoundTrip
  intro s sym hinv hhalt hphase hidle hcur hsym hcounted
  have hcode := ((hinv.table hphase).keys _ hsym).2 hcounted
  obtain ⟨rs, hrun, hok, hdecoded⟩ := run_dec_code (s := s.answer (s.blk, Rsp.code (codeAt s.blk sym.toNat).toBits))
    hinv hidle hhalt hphase hcur hsym hcounted
  refine ⟨_, _, _, ?_, State.newSince_of_append rfl, hrun, ?_, ?_, congrArg _ hcur⟩
  · rw [run_enc [] 0 hidle hhalt hphase hsym hcode, State.present_nil, run_zero]
  · rwa [State.newSince_of_append rfl]
  · rwa [State.newSince_of_append rfl]

end Sys2Proof.Machine

/-! Proofs for 43_encoder: what `ENC` of a symbol without a code does (O32), and the length of the stream that encodes the
counted input (O33). -/

namespace Sys2Proof.Machine

open Sys2Proof (Params Instr Symbol)

/-! ## A symbol without a code -/

/-- `ENC` of a legal symbol without a code raises `SYMBOL_NOT_IN_TABLE` (R115). -/
theorem answers_enc_absent {p : Params} {b : Block p} {sym : Symbol} (hsym : sym.toNat < p.nsym) (hhalt : b.halt = false)
    (hphase : b.phase = .table) (hlen : (codeAt b sym.toNat).len = 0) :
    Answers (.enc sym) b (raise .symbolNotInTable b) := by
  refine .inr ⟨firstError_enc hsym hhalt hphase, congrArg Except.ok ?_⟩
  rcases encBody_cases sym b with ⟨-, hraise⟩ | ⟨hne, -⟩
  · exact hraise
  · exact absurd hlen hne

/-- `SYMBOL_NOT_IN_TABLE` sets `ERR.NOSYM` and, being fatal, `HALT`; every other field stays (R140, R141). -/
theorem raise_symbolNotInTable {p : Params} (b : Block p) :
    raise .symbolNotInTable b =
      ({ b with halt := true, err := { b.err with nosym := true } }, Rsp.error .symbolNotInTable) := by
  simp [raise, ErrFlags.raised, Err.fatal]

/-- Settles O32: the block and the response of the answer are those of `raise_symbolNotInTable`. -/
theorem encAbsentHalts : Obligations.EncAbsentHalts := by
  unfold Obligations.EncAbsentHalts
  intro s sym hsym hhalt hphase hlen
  have hzero : (codeAt s.blk sym.toNat).len = 0 := BitVec.eq_of_toNat_eq (hlen.trans BitVec.toNat_zero.symm)
  refine exec_block.2 ⟨_, answers_enc_absent hsym hhalt hphase hzero, ?_⟩
  rw [raise_symbolNotInTable]
  rfl

/-! ## The stream of a sequence of symbols -/

/-- What `ENC` answers to each symbol of a sequence when all of them have a code: its bits (R114). -/
def codeRsps {p : Params} (b : Block p) (l : List Symbol) : List Rsp :=
  l.map fun x => Rsp.code (codeAt b x.toNat).toBits

theorem codeRsps_cons {p : Params} (b : Block p) (sym : Symbol) (l : List Symbol) :
    codeRsps b (sym :: l) = Rsp.code (codeAt b sym.toNat).toBits :: codeRsps b l := rfl

theorem errorFree_codeRsps {p : Params} (b : Block p) (l : List Symbol) : errorFree (codeRsps b l) :=
  List.forall_mem_map.2 fun _ _ => rfl

/-- The stream of an `OK` response to `ENC` begins with its bits (R10). -/
theorem encodedStream_code_cons (bits : List Bool) (rs : List Rsp) :
    encodedStream (Rsp.code bits :: rs) = bits ++ encodedStream rs := rfl

/-- The stream that encodes a sequence is as long as its codes together. -/
theorem length_encodedStream_codeRsps {p : Params} (b : Block p) (l : List Symbol) :
    (encodedStream (codeRsps b l)).length = (l.map fun x => (codeAt b x.toNat).len.toNat).sum := by
  induction l with
  | nil => rfl
  | cons sym l ih =>
    rw [codeRsps_cons, encodedStream_code_cons, List.length_append, CodeWord.length_toBits, ih, List.map_cons,
      List.sum_cons]

/-- A run of `ENC` on an idle machine, of symbols that all have a code, answers their codes in order and leaves the block
(R114). -/
theorem run_encs (l : List Symbol) :
    ∀ s : State, s.inbox = [] → s.blk.halt = false → s.blk.phase = .table → (∀ x ∈ l, x.toNat < s.params.nsym) →
      (∀ x ∈ l, (codeAt s.blk x.toNat).len ≠ 0) →
      run l.length (s.present (l.map .enc)) = .next { s with rsps := s.rsps ++ codeRsps s.blk l } := by
  induction l with
  | nil =>
    intro s _ _ _ _ _
    simp [codeRsps]
  | cons sym l ih =>
    intro s hidle hhalt hphase hsyms hcodes
    obtain ⟨hsym, hsyms⟩ := List.forall_mem_cons.1 hsyms
    obtain ⟨hcode, hcodes⟩ := List.forall_mem_cons.1 hcodes
    rw [List.length_cons, List.map_cons, run_enc _ _ hidle hhalt hphase hsym hcode,
      ih (s.answer (s.blk, Rsp.code (codeAt s.blk sym.toNat).toBits)) hidle hhalt hphase hsyms hcodes, codeRsps_cons]
    simp [State.answer]

/-! ## The weighted path length -/

/-- Every number below `NSYM` is a symbol's (R8). -/
theorem exists_symbol_of_lt {p : Params} {n : Nat} (h : n < p.nsym) : ∃ x : Symbol, x.toNat = n :=
  ⟨BitVec.ofNat 16 n, (BitVec.toNat_ofNat n 16).trans (Nat.mod_eq_of_lt (h.trans_le p.nsym_le))⟩

/-- A sum over a sequence of symbols is the sum over the symbol values, each as often as the sequence has it. -/
theorem sum_map_eq_sum_range {p : Params} {l : List Symbol} {c : ℕ → ℕ} (g : ℕ → ℕ) (hsyms : ∀ x ∈ l, x.toNat < p.nsym)
    (hcount : ∀ x : Symbol, x.toNat < p.nsym → l.count x = c x.toNat) :
    (l.map fun x => g x.toNat).sum = ((List.range p.nsym).map fun n => c n * g n).sum := by
  rw [Finset.sum_list_map_count]
  refine Finset.sum_of_injOn (t := Finset.range p.nsym) (g := fun n => c n * g n) BitVec.toNat
    (fun x _ y _ => BitVec.eq_of_toNat_eq) (fun x hx => ?_) (fun n hn hnot => ?_) fun x hx => ?_
  · exact Finset.mem_coe.2 (Finset.mem_range.2 (hsyms x (List.mem_toFinset.1 hx)))
  · obtain ⟨x, rfl⟩ := exists_symbol_of_lt (Finset.mem_range.1 hn)
    have hnotin : x ∉ l := fun hx => hnot ⟨x, List.mem_toFinset.2 hx, rfl⟩
    rw [← hcount x (Finset.mem_range.1 hn), List.count_eq_zero.2 hnotin, Nat.zero_mul]
  · rw [hcount x (hsyms x (List.mem_toFinset.1 hx)), smul_eq_mul]

/-- Settles O33: the symbols of the sequence are counted, so they have codes; `run_encs` gives the stream, whose length is
summed by symbol instead of by position. -/
theorem streamLength : Obligations.StreamLength := by
  unfold Obligations.StreamLength
  intro s l hinv hhalt hphase hidle hsyms hcount
  have hcodes : ∀ x ∈ l, (codeAt s.blk x.toNat).len ≠ 0 := fun x hx => by
    refine ((hinv.table hphase).keys _ (hsyms x hx)).2 fun hzero => (List.count_pos_iff.2 hx).ne' ?_
    rw [hcount x (hsyms x hx), hzero]
    exact BitVec.toNat_zero
  refine ⟨_, run_encs l s hidle hhalt hphase hsyms hcodes, ?_, ?_⟩
  · rw [State.newSince_of_append rfl]
    exact errorFree_codeRsps s.blk l
  · rw [State.newSince_of_append rfl, length_encodedStream_codeRsps]
    exact sum_map_eq_sum_range (fun n => (codeAt s.blk n).len.toNat) hsyms hcount

end Sys2Proof.Machine

/-! Proofs for 44_decoder: what one `DEC` does with a tree, with a single leaf and with none (O34, O35, O36), what `END` checks
(O37), and the round trip from counting to the decoded sequence (O53). -/

namespace Sys2Proof.Machine

open Sys2Proof (Params Instr Symbol Word decode)

/-! ## One `DEC` -/

/-- Settles O36: outside phase `COUNT` the checks pass, and `decBody_move` says where the cursor goes; `next` is the child the
bit chooses. -/
theorem decMovesCursor : Obligations.DecMovesCursor := by
  unfold Obligations.DecMovesCursor
  rintro s bit _ hhalt hbuilt hvalid hroot hinner hcur hcurInner rfl hnext
  have hcheck := firstError_dec bit hhalt hbuilt
  have hmove := decBody_move (bit := bit) hvalid hroot hinner hcur hcurInner hnext
  exact ⟨fun hleaf => exec_of_ok hcheck (hmove.trans (congrArg Except.ok (if_pos hleaf))),
    fun hnode => exec_of_ok hcheck (hmove.trans (congrArg Except.ok (if_neg (Bool.eq_false_iff.1 hnode))))⟩

/-- `MALFORMED_DECODE_INPUT` sets `ERR.MAL` and is not fatal; every other field stays (R140, R141). -/
theorem raise_malformedDecodeInput {p : Params} (b : Block p) :
    raise .malformedDecodeInput b = ({ b with err := { b.err with mal := true } }, Rsp.error .malformedDecodeInput) := by
  simp [raise, ErrFlags.raised, Err.fatal]

/-- The body of `DEC` with no tree raises `MALFORMED_DECODE_INPUT` (R124). -/
theorem decBody_noTree {p : Params} {b : Block p} (bit : Bool) (hvalid : b.rootValid = false) :
    decBody bit b = .ok (raise .malformedDecodeInput b) :=
  if_neg (Bool.eq_false_iff.1 hvalid)

/-- Settles O34: the block and the response are those of `raise_malformedDecodeInput`. -/
theorem decWithoutTree : Obligations.DecWithoutTree := by
  unfold Obligations.DecWithoutTree
  intro s bit hhalt hbuilt hvalid
  rw [exec_of_ok (firstError_dec bit hhalt hbuilt) (decBody_noTree bit hvalid), raise_malformedDecodeInput]
  rfl

/-- Settles O35: the body answers the root's symbol and the block as it was (`decBody_single`). -/
theorem decSingleLeaf : Obligations.DecSingleLeaf := by
  unfold Obligations.DecSingleLeaf
  intro s bit hhalt hbuilt hvalid hroot hleaf
  exact exec_of_ok (firstError_dec bit hhalt hbuilt) (decBody_single hvalid hroot hleaf)

/-! ## `END` -/

/-- `END` passes the checks outside phase `COUNT` when the block is not halted (R143). -/
theorem firstError_endStream {p : Params} {b : Block p} (hhalt : b.halt = false) (hphase : b.phase ≠ .count) :
    firstError .endStream b = none :=
  firstError_none.2 ⟨rfl, .inl hhalt, by simpa [acceptedIn] using hphase⟩

/-- The body of `END` on a symbol boundary answers `OK` and leaves the block (R122). -/
theorem endBody_boundary {p : Params} {b : Block p} (hcur : b.cur = b.root) : endBody b = (b, Rsp.plain) :=
  if_neg (not_not.2 hcur)

/-- The body of `END` in the middle of a code returns the cursor to the root and raises `MALFORMED_DECODE_INPUT` (R123). -/
theorem endBody_midCode {p : Params} {b : Block p} (hcur : b.cur ≠ b.root) :
    endBody b = raise .malformedDecodeInput { b with cur := b.root } :=
  if_pos hcur

/-- Settles O37: `endBody_boundary` with the cursor at the root, `endBody_midCode` anywhere else. -/
theorem endChecksBoundary : Obligations.EndChecksBoundary := by
  unfold Obligations.EndChecksBoundary
  intro s hhalt hbuilt
  have hcheck := firstError_endStream hhalt hbuilt
  refine ⟨fun hcur => exec_of_ok hcheck (congrArg Except.ok (endBody_boundary hcur)), fun hcur => ?_⟩
  rw [exec_of_ok hcheck (congrArg Except.ok (endBody_midCode hcur)), raise_malformedDecodeInput]
  rfl

/-! ## Commands presented behind others -/

/-- Commands presented after others are presented as one list. -/
theorem State.present_present (s : State) (l l' : List Instr) : (s.present l).present l' = s.present (l ++ l') := by
  simp [State.present]

/-- A command answers the same with more commands behind it, and leaves them. -/
theorem exec_present {i : Instr} {s t : State} (l : List Instr) (h : exec i s = .next t) :
    exec i (s.present l) = .next (t.present l) := by
  obtain ⟨a, ha, rfl⟩ := exec_block.1 h
  exact exec_block.2 ⟨a, ha, rfl⟩

/-- A word is run the same with more commands behind it. -/
theorem runWord_present {w : Word} {s t : State} (l : List Instr) (h : runWord w s = .next t) :
    runWord w (s.present l) = .next (t.present l) := by
  unfold runWord at h ⊢
  rw [State.present_params]
  cases hd : decode s.params w with
  | ok i => rw [hd] at h; exact exec_present l h
  | error e => rw [hd] at h; cases h; rfl

/-- A step that takes an event takes the same one with more commands behind it. -/
theorem step_present {s t : State} (l : List Instr) (hbusy : s.inbox ≠ []) (h : step s = .next t) :
    step (s.present l) = .next (t.present l) := by
  obtain ⟨p, b, inbox, rsps, reads⟩ := s
  cases inbox with
  | nil => exact absurd rfl hbusy
  | cons e rest => cases e with
    | cmd w => exact runWord_present l h
    | rst | readFreq _ | readNode _ | readCode _ | readCsr _ => cases h; rfl

/-- A step on a busy machine takes one event. -/
theorem step_takes_one {s t : State} (hbusy : s.inbox ≠ []) (h : step s = .next t) :
    s.inbox.length = t.inbox.length + 1 := by
  rcases step_block h with ⟨hidle, -⟩ | ⟨_, _, _, _, hinbox, -, -, rfl⟩ | ⟨_, _, _, hinbox, -, rfl⟩ | ⟨_, hinbox, rfl⟩ |
    ⟨_, _, _, hinbox, -, -, rfl⟩
  · exact absurd hidle hbusy
  all_goals rw [hinbox, List.length_cons]

/-- A run that takes no more events than are there runs the same with more commands behind them. -/
theorem run_present_behind (l : List Instr) (n : Nat) : ∀ {s t : State}, n ≤ s.inbox.length → run n s = .next t →
    run n (s.present l) = .next (t.present l) := by
  induction n with
  | zero =>
    intro s t _ hrun
    cases hrun
    rfl
  | succ n ih =>
    intro s t hle hrun
    have hbusy : s.inbox ≠ [] := List.length_pos_iff.1 (Nat.lt_of_lt_of_le n.succ_pos hle)
    rw [run_eq] at hrun
    cases hstep : step s with
    | next u =>
      rw [hstep] at hrun
      rw [run_succ n (step_present l hbusy hstep)]
      exact ih (by have := step_takes_one hbusy hstep; omega) hrun
    | fault _ | refused _ => rw [hstep] at hrun; cases hrun

/-- A run of one list of commands, one step each, goes on as a run of the list presented behind it. -/
theorem run_present_append {m n : Nat} {s t : State} {l l' : List Instr} (hm : m ≤ l.length)
    (hrun : run m (s.present l) = .next t) : run (m + n) (s.present (l ++ l')) = run n (t.present l') := by
  rw [← State.present_present]
  refine run_add n (run_present_behind l' m ?_ hrun)
  simp only [State.present, List.length_append, List.length_map]
  omega

/-! ## What the host sees of a run -/

theorem encodedStream_append (rs rs' : List Rsp) : encodedStream (rs ++ rs') = encodedStream rs ++ encodedStream rs' := by
  simp [encodedStream]

theorem decodedSequence_append (rs rs' : List Rsp) :
    decodedSequence (rs ++ rs') = decodedSequence rs ++ decodedSequence rs' := by
  simp [decodedSequence]

theorem errorFree_append {rs rs' : List Rsp} (h : errorFree rs) (h' : errorFree rs') : errorFree (rs ++ rs') :=
  List.forall_mem_append.2 ⟨h, h'⟩

theorem errorFree_replicate_plain (n : ℕ) : errorFree (List.replicate n Rsp.plain) := fun r hr => by
  rw [List.eq_of_mem_replicate hr]
  rfl

/-- Responses without bits add nothing to the encoded stream (R10). -/
theorem encodedStream_replicate_plain (n : ℕ) : encodedStream (List.replicate n Rsp.plain) = [] :=
  List.flatMap_eq_nil_iff.2 fun r hr => by
    rw [List.eq_of_mem_replicate (List.mem_of_mem_filter hr)]
    rfl

/-- Responses without a symbol add nothing to the decoded sequence (R10). -/
theorem decodedSequence_eq_nil {rs : List Rsp} (h : ∀ r ∈ rs, r.symValid = false) : decodedSequence rs = [] := by
  unfold decodedSequence
  rw [List.filter_eq_nil_iff.2 fun r hr => by simp [h r hr], List.map_nil]

theorem decodedSequence_replicate_plain (n : ℕ) : decodedSequence (List.replicate n Rsp.plain) = [] :=
  decodedSequence_eq_nil fun r hr => by
    rw [List.eq_of_mem_replicate hr]
    rfl

/-- `ENC` answers no symbols. -/
theorem decodedSequence_codeRsps {p : Params} (b : Block p) (l : List Symbol) : decodedSequence (codeRsps b l) = [] :=
  decodedSequence_eq_nil (List.forall_mem_map.2 fun _ _ => rfl)

/-! ## The round trip -/

/-- A block ready to encode and decode a sequence: in a state of R38 with its table and not halted, the cursor on a symbol
boundary, and every symbol of the sequence counted. -/
structure Block.ReadyFor {p : Params} (b : Block p) (l : List Symbol) : Prop where
  inv : b.Inv
  halt : b.halt = false
  phase : b.phase = .table
  cur : b.cur = b.root
  legal : ∀ x ∈ l, x.toNat < p.nsym
  counted : ∀ x ∈ l, freqAt b x.toNat ≠ 0

/-- `BLD` and `TBL` on an idle counting machine of R38 leave a block ready for any sequence of counted symbols. -/
theorem run_bld_tbl {s : State} {l : List Symbol} (hinv : s.Inv) (hidle : s.inbox = []) (hhalt : s.blk.halt = false)
    (hphase : s.blk.phase = .count) (hlegal : ∀ x ∈ l, x.toNat < s.params.nsym)
    (hcounted : ∀ x ∈ l, freqAt s.blk x.toNat ≠ 0) :
    ∃ b : Block s.params,
      run 2 (s.present [.bld, .tbl]) = .next { s with blk := b, rsps := s.rsps ++ [Rsp.plain, Rsp.plain] } ∧
        b.ReadyFor l := by
  have hframe := bldBody_frame s.blk
  have hhalt' := hframe.halt.trans hhalt
  obtain ⟨table, hbody, htable⟩ := (Block.Inv.bld hinv hphase).tbl hframe.phase
  refine ⟨{ (bldBody s.blk).1 with code := table, phase := .table }, ?_, htable, hhalt', rfl, hframe.cur, hlegal,
    fun x hx => (freqAt_congr hframe.freq x.toNat).trans_ne (hcounted x hx)⟩
  rw [run_present [.tbl] 1 hidle (decode_encode_of_wf rfl) (.inr ⟨firstError_bld hhalt hphase, rfl⟩),
    run_present (s := s.answer (bldBody s.blk)) [] 0 hidle (decode_encode_of_wf rfl)
      (.inr ⟨firstError_tbl hhalt' hframe.phase, hbody⟩)]
  simp [State.answer, bldBody_rsp]

/-- Counting a sequence from reset, then `BLD` and `TBL`, leave a block ready for the sequence (R90, R97, R106). -/
theorem run_cnts_bld_tbl {p : Params} {l : List Symbol} (hlegal : ∀ x ∈ l, x.toNat < p.nsym)
    (hbound : ∀ x, l.count x ≤ p.cntMax) :
    ∃ b : Block p,
      run (l.length + 2) ((State.resetAt p).present (l.map .cnt ++ [.bld, .tbl])) = .next { State.resetAt p with
        blk := b, rsps := List.replicate (l.length + 2) Rsp.plain } ∧ b.ReadyFor l := by
  obtain ⟨f, hrun, hcount⟩ := freqIsCount p l hlegal hbound
  have hinv := run_keeps (s := (State.resetAt p).present _) invariantKept _ (invariantAtReset p) hrun
  obtain ⟨b, hbuild, hready⟩ := run_bld_tbl (l := l) hinv rfl rfl rfl hlegal fun x hx hzero => by
    have hpos := List.count_pos_iff.2 hx
    rw [← hcount x] at hpos
    exact hpos.ne' ((congrArg BitVec.toNat hzero).trans BitVec.toNat_zero)
  refine ⟨b, (run_present_append (by simp) hrun).trans hbuild |>.trans ?_, hready⟩
  rw [List.replicate_add, ← List.map_const']
  rfl

/-- The encoded stream of a ready sequence, given to an idle machine's `DEC` bit by bit, emits the sequence, symbol by symbol
(`run_dec_code`), and leaves the block as it was. -/
theorem run_dec_stream (l : List Symbol) :
    ∀ s : State, s.inbox = [] → s.blk.ReadyFor l →
      ∃ rs, run (encodedStream (codeRsps s.blk l)).length (s.present ((encodedStream (codeRsps s.blk l)).map .dec)) =
          .next { s with rsps := s.rsps ++ rs } ∧
        errorFree rs ∧ decodedSequence rs = l := by
  induction l with
  | nil =>
    intro s _ _
    exact ⟨[], by simp [codeRsps, encodedStream], List.forall_mem_nil _, rfl⟩
  | cons sym l ih =>
    intro s hidle ⟨hinv, hhalt, hphase, hcur, hlegal, hcounted⟩
    obtain ⟨hsym, hlegal⟩ := List.forall_mem_cons.1 hlegal
    obtain ⟨hsymCounted, hcounted⟩ := List.forall_mem_cons.1 hcounted
    obtain ⟨rs, hrun, hok, hdecoded⟩ := run_dec_code hinv hidle hhalt hphase hcur hsym hsymCounted
    obtain ⟨rs', hrun', hok', hdecoded'⟩ :=
      ih { s with rsps := s.rsps ++ rs } hidle ⟨hinv, hhalt, hphase, hcur, hlegal, hcounted⟩
    refine ⟨rs ++ rs', ?_, errorFree_append hok hok', by rw [decodedSequence_append, hdecoded, hdecoded']; rfl⟩
    rw [codeRsps_cons, encodedStream_code_cons, List.length_append, List.map_append,
      run_present_append (by simp) hrun, hrun', List.append_assoc]

/-- A ready sequence is encoded to the codes of its symbols, by `run_encs`. -/
theorem Block.ReadyFor.run_encs {s : State} {l : List Symbol} (h : s.blk.ReadyFor l) (hidle : s.inbox = []) :
    run l.length (s.present (l.map .enc)) = .next { s with rsps := s.rsps ++ codeRsps s.blk l } :=
  Machine.run_encs l s hidle h.halt h.phase h.legal fun x hx =>
    ((h.inv.table h.phase).keys _ (h.legal x hx)).2 (h.counted x hx)

/-- On a symbol boundary an idle machine answers `END` with `OK` and leaves the block (R122). -/
theorem run_endStream {s : State} (hidle : s.inbox = []) (hhalt : s.blk.halt = false) (hbuilt : s.blk.phase ≠ .count)
    (hcur : s.blk.cur = s.blk.root) :
    run 1 (s.present [.endStream]) = .next { s with rsps := s.rsps ++ [Rsp.plain] } := by
  rw [run_present [] 0 hidle (decode_encode_of_wf rfl)
    (.inr ⟨firstError_endStream hhalt hbuilt, congrArg Except.ok (endBody_boundary hcur)⟩), State.present_nil]
  rfl

/-- A ready sequence's stream through `DEC` and `END` behind it: `END` finds the cursor at the root. -/
theorem run_dec_stream_endStream {s : State} {l : List Symbol} (hidle : s.inbox = []) (hready : s.blk.ReadyFor l) :
    ∃ rs, run ((encodedStream (codeRsps s.blk l)).length + 1)
          (s.present ((encodedStream (codeRsps s.blk l)).map .dec ++ [.endStream])) =
        .next { s with rsps := s.rsps ++ rs } ∧
      errorFree rs ∧ decodedSequence rs = l := by
  obtain ⟨rs, hrun, hok, hdecoded⟩ := run_dec_stream l s hidle hready
  have hbuilt : s.blk.phase ≠ .count := by rw [hready.phase]; decide
  refine ⟨rs ++ [Rsp.plain], ?_, errorFree_append hok (errorFree_replicate_plain 1), ?_⟩
  · rw [run_present_append (by simp) hrun, ← List.append_assoc]
    exact run_endStream hidle hready.halt hbuilt hready.cur
  · rw [decodedSequence_append, hdecoded]
    exact List.append_nil l

/-- Counting a sequence from reset, `BLD`, `TBL` and encoding the sequence answer `OK` without bits up to `TBL`, then the
sequence's codes, and leave a block ready for the sequence. -/
theorem run_cnts_bld_tbl_encs {p : Params} {l : List Symbol} (hlegal : ∀ x ∈ l, x.toNat < p.nsym)
    (hbound : ∀ x, l.count x ≤ p.cntMax) :
    ∃ t : State,
      run (2 * l.length + 2) ((State.resetAt p).present (l.map .cnt ++ [.bld, .tbl] ++ l.map .enc)) = .next t ∧
        t.inbox = [] ∧ t.blk.ReadyFor l ∧
        t.rsps = List.replicate (l.length + 2) Rsp.plain ++ codeRsps t.blk l := by
  obtain ⟨b, hbuild, hready⟩ := run_cnts_bld_tbl hlegal hbound
  rw [show 2 * l.length + 2 = l.length + 2 + l.length by omega]
  exact ⟨_, (run_present_append (by simp) hbuild).trans (hready.run_encs rfl), rfl, hready, rfl⟩

/-- Settles O53: the runs that count, build and encode (`run_cnts_bld_tbl_encs`) and that decode and end
(`run_dec_stream_endStream`) follow one another; the bits come from `ENC` alone and the symbols from `DEC` alone. -/
theorem pipelineRoundTrip : Obligations.PipelineRoundTrip := by
  unfold Obligations.PipelineRoundTrip
  intro p l hlegal hbound
  obtain ⟨t, hencode, hidle, hready, hrsps⟩ := run_cnts_bld_tbl_encs hlegal hbound
  obtain ⟨rs, hdecode, hdecodeOk, hdecoded⟩ := run_dec_stream_endStream hidle hready
  have hencodeOk : errorFree t.rsps := by
    rw [hrsps]
    exact errorFree_append (errorFree_replicate_plain _) (errorFree_codeRsps t.blk l)
  have hstream : encodedStream t.rsps = encodedStream (codeRsps t.blk l) := by
    rw [hrsps, encodedStream_append, encodedStream_replicate_plain, List.nil_append]
  have hnoSymbols : decodedSequence t.rsps = [] := by
    rw [hrsps, decodedSequence_append, decodedSequence_replicate_plain, decodedSequence_codeRsps, List.append_nil]
  refine ⟨t, _, hencode, hencodeOk, hstream ▸ hdecode, errorFree_append hencodeOk hdecodeOk, ?_⟩
  rw [decodedSequence_append, hnoSymbols, hdecoded, List.nil_append]

end Sys2Proof.Machine

/-! Proofs for 45_control: `NOP` (O17). -/

namespace Sys2Proof.Machine

/-- `NOP` passes the checks in every phase when the block is not halted (R73, R143). -/
theorem firstError_nop {p : Params} {b : Block p} (hhalt : b.halt = false) : firstError .nop b = none :=
  firstError_none.2 ⟨rfl, .inl hhalt, rfl⟩

/-- Settles O17: the checks refuse `NOP` only on a halted block, where the refusal writes nothing (`raise_halted`); its body
leaves the block. -/
theorem nopDoesNothing : Obligations.NopDoesNothing := by
  unfold Obligations.NopDoesNothing
  refine fun s => ⟨fun hhalt => exec_of_ok (firstError_nop hhalt) rfl, fun hhalt => ?_⟩
  have hcheck : firstError .nop s.blk = some .halted := (firstError_halted rfl).2 ⟨hhalt, nofun⟩
  rw [exec_of_error hcheck, raise_halted]
  rfl

end Sys2Proof.Machine

/-! Proofs for 60_exceptions: the order of the checks (O12), an error-free run and `STATUS` (O16), and the empty input
(O51). -/

namespace Sys2Proof.Machine

open Sys2Proof (Params Instr Symbol)

/-! ## The order of the checks -/

/-- Raising `SEQ` sets `ERR.SEQ` and nothing else: it is not fatal (R141). -/
theorem raise_seq {p : Params} (b : Block p) :
    raise .seq b = ({ b with err := { b.err with seq := true } }, Rsp.error .seq) := by
  simp [raise, ErrFlags.raised, Err.fatal]

/-- The errors that the bodies report, each with its command and its condition (R140). -/
inductive BodyError {p : Params} (b : Block p) : Instr → Err → Prop
  | countOverflow (sym : Symbol) (h : (freqAt b sym.toNat).toNat = p.cntMax) : BodyError b (.cnt sym) .countOverflow
  | symbolNotInTable (sym : Symbol) (h : (codeAt b sym.toNat).len = 0) : BodyError b (.enc sym) .symbolNotInTable
  | midCode (h : b.cur ≠ b.root) : BodyError b .endStream .malformedDecodeInput
  | noTree (bit : Bool) (h : b.rootValid = false) : BodyError b (.dec bit) .malformedDecodeInput

/-- A body reports an error only as its own command does, under the error's condition. -/
theorem bodyError_of_bodyOf {p : Params} {b : Block p} {i : Instr} {a : Block p × Rsp} {e : Err}
    (hbody : bodyOf i b = .ok a) (herr : a.2.err = some e) : BodyError b i e := by
  cases i with
  | nop | clr => cases hbody; cases herr
  | cnt sym =>
    cases hbody
    rcases cntBody_cases sym b with ⟨hmax, hcnt⟩ | ⟨-, hcnt⟩ <;> rw [hcnt] at herr <;> cases herr
    exact .countOverflow sym hmax
  | bld =>
    cases hbody
    rw [bldBody_rsp] at herr
    cases herr
  | tbl =>
    obtain ⟨_, -, rfl⟩ := tblBody_ok hbody
    cases herr
  | enc sym =>
    cases hbody
    rcases encBody_cases sym b with ⟨hlen, henc⟩ | ⟨-, henc⟩ <;> rw [henc] at herr <;> cases herr
    exact .symbolNotInTable sym hlen
  | dec bit =>
    rcases decBody_ok hbody with ⟨hvalid, rfl⟩ | ⟨-, -, rfl⟩ | ⟨-, -, -, ⟨-, rfl⟩ | ⟨-, rfl⟩⟩ <;> cases herr
    exact .noTree bit hvalid
  | endStream =>
    cases hbody
    rcases endBody_cases b with ⟨hcur, hend⟩ | ⟨-, hend⟩ <;> rw [hend] at herr <;> cases herr
    exact .midCode hcur

/-- Settles O12: each check's refusal is its raised error, and past the checks an error is one of the body's own
(`bodyError_of_bodyOf`). -/
theorem checkOrder : Obligations.CheckOrder := by
  unfold Obligations.CheckOrder
  refine ⟨illegalWords.2.1, fun s i hwf hhalt hclr => ?_, fun s i hwf hhalt hphase => ?_,
    fun s t i r e hwf hhalt hphase hexec hrsps herr => ?_⟩
  · rw [exec_of_error ((firstError_halted hwf).2 ⟨hhalt, hclr⟩), raise_halted]
    rfl
  · rw [exec_of_error ((firstError_seq hwf hhalt).2 hphase), raise_seq]
    rfl
  · have hpass : firstError i s.blk = none :=
      firstError_none.2 ⟨hwf, hhalt.imp_right fun hclr => by rw [hclr]; rfl, hphase⟩
    obtain ⟨a, ⟨e', hcheck, -⟩ | ⟨-, hbody⟩, rfl⟩ := exec_block.1 hexec
    · cases hpass.symm.trans hcheck
    · cases List.append_cancel_left hrsps
      cases bodyError_of_bodyOf hbody herr with
      | countOverflow sym hmax => exact .inl ⟨rfl, sym, rfl, hmax⟩
      | symbolNotInTable sym hlen => exact .inr (.inl ⟨rfl, sym, rfl, hlen⟩)
      | midCode hcur => exact .inr (.inr ⟨rfl, .inl ⟨rfl, hcur⟩⟩)
      | noTree bit hvalid => exact .inr (.inr ⟨rfl, .inr ⟨⟨bit, rfl⟩, hvalid⟩⟩)

/-! ## `STATUS` over a run -/

/-- Not halted and no flag set: bits 8 to 3 of `STATUS` are zero (R31). -/
def Block.Unmarked {p : Params} (b : Block p) : Prop :=
  b.halt = false ∧ b.err = ⟨false, false, false, false, false⟩

/-- Bits 8 to 3 of `STATUS` are `HALT` and the five flags (R31). -/
theorem statusWord_extract_eq_zero_iff {p : Params} (b : Block p) :
    (statusWord b).extractLsb' 3 6 = 0 ↔ b.Unmarked := by
  obtain ⟨-, hhalt, hill, hseq, hovf, hnosym, hmal⟩ := statusWord_bits b
  have hbits : (statusWord b).extractLsb' 3 6 = 0 ↔ ∀ i < 6, (statusWord b).getLsbD (3 + i) = false := by
    rw [BitVec.eq_of_getLsbD_eq_iff]
    refine forall₂_congr fun i hi => ?_
    rw [BitVec.getLsbD_extractLsb', decide_eq_true hi, Bool.true_and]
    exact BitVec.getLsbD_zero ▸ Iff.rfl
  have hunmarked : b.Unmarked ↔ b.halt = false ∧ b.err.ill = false ∧ b.err.seq = false ∧ b.err.ovf = false ∧
      b.err.nosym = false ∧ b.err.mal = false := by
    rw [← ErrFlags.mk.injEq]
    exact Iff.rfl
  rw [hbits, hunmarked, ← hhalt, ← hill, ← hseq, ← hovf, ← hnosym, ← hmal]
  constructor
  · exact fun h => ⟨h 0 (by decide), h 1 (by decide), h 2 (by decide), h 3 (by decide), h 4 (by decide),
      h 5 (by decide)⟩
  · rintro ⟨h0, h1, h2, h3, h4, h5⟩ i hi
    interval_cases i <;> assumption

/-- An error leaves no flag set only when it is `HALTED`, which has none (R141). -/
theorem ErrFlags.raised_eq_clear_iff {f : ErrFlags} {e : Err} :
    f.raised e = ⟨false, false, false, false, false⟩ ↔ e = .halted ∧ f = ⟨false, false, false, false, false⟩ := by
  cases e <;> simp [ErrFlags.raised]

/-- A response that accounts for the block, with `HALTED` given on a halted block only, leaves it unmarked exactly when the
block was unmarked and the response is `OK` (R145). -/
theorem Accounts.unmarked_iff {p : Params} {b : Block p} {a : Block p × Rsp} (h : Accounts b a)
    (hhalted : a.2.err = some .halted → b.halt = true) : a.1.Unmarked ↔ b.Unmarked ∧ a.2.err = none := by
  unfold Block.Unmarked
  rw [h.err, h.halt]
  cases he : a.2.err with
  | none => simp [ErrFlags.after]
  | some e =>
    refine iff_of_false (fun ⟨hunhalted, hclear⟩ => ?_) nofun
    obtain ⟨rfl, -⟩ := ErrFlags.raised_eq_clear_iff.1 hclear
    rw [hhalted he] at hunhalted
    cases hunhalted

/-- A command other than `CLR` leaves the block unmarked exactly when it was and the answer is `OK`. -/
theorem Answers.unmarked_iff {p : Params} {b : Block p} {i : Instr} {a : Block p × Rsp} (ha : Answers i b a)
    (hclr : i ≠ .clr) : a.1.Unmarked ↔ b.Unmarked ∧ a.2.err = none :=
  (ha.accounts hclr).unmarked_iff fun hhalted => by
    have hcheck : firstError i b = some .halted := (answers_check_error (by simp)).1 ⟨a, ha, hhalted⟩
    rcases firstError_some hcheck with ⟨he, -⟩ | ⟨-, -, hhalt, -⟩ | ⟨he, -⟩
    · cases he
    · exact hhalt
    · cases he

/-- A step that takes neither `CLR` nor `rst` leaves the block unmarked exactly when it was and every new response is
`OK`. -/
theorem step_unmarked_iff {s t : State} (hstep : step s = .next t)
    (hclear : ∀ e ∈ s.inbox, e ≠ .rst ∧ e ≠ .cmd (encode .clr)) :
    ∃ rs, t.rsps = s.rsps ++ rs ∧ (t.blk.Unmarked ↔ s.blk.Unmarked ∧ errorFree rs) := by
  rcases step_block hstep with ⟨-, rfl⟩ | ⟨w, rest, i, a, hinbox, hdecode, ha, rfl⟩ | ⟨_, _, _, -, -, rfl⟩ |
    ⟨rest, hinbox, -⟩ | ⟨_, _, _, -, -, -, rfl⟩
  · exact ⟨[], by simp, by simp [errorFree]⟩
  · refine ⟨[a.2], rfl, ?_⟩
    have hclr : i ≠ .clr := by
      rintro rfl
      exact (hclear _ (inbox_eq_encode hinbox hdecode ▸ List.mem_cons_self)).2 rfl
    simpa [errorFree] using ha.unmarked_iff hclr
  · refine ⟨[Rsp.error .illegal], rfl, ?_⟩
    simpa [errorFree] using (accounts_raise .illegal s.blk).unmarked_iff nofun
  · exact absurd rfl (hclear _ (hinbox ▸ List.mem_cons_self)).1
  · exact ⟨[], by simp, by simp [errorFree]⟩

/-- A step takes at most the event in front. -/
theorem step_inbox {s t : State} (hstep : step s = .next t) : t.inbox = s.inbox.tail := by
  rcases step_block hstep with ⟨hidle, rfl⟩ | ⟨_, _, _, _, hinbox, -, -, rfl⟩ | ⟨_, _, _, hinbox, -, rfl⟩ |
    ⟨_, hinbox, rfl⟩ | ⟨_, _, _, hinbox, -, -, rfl⟩
  · rw [hidle, List.tail_nil]
  all_goals rw [hinbox, List.tail_cons]

/-- A run that takes neither `CLR` nor `rst` leaves the block unmarked exactly when it was and every new response is `OK`
(R145). -/
theorem run_unmarked_iff (n : Nat) : ∀ {s t : State}, (∀ e ∈ s.inbox, e ≠ .rst ∧ e ≠ .cmd (encode .clr)) →
    run n s = .next t → ∃ rs, t.rsps = s.rsps ++ rs ∧ (t.blk.Unmarked ↔ s.blk.Unmarked ∧ errorFree rs) := by
  induction n with
  | zero =>
    intro s t _ hrun
    cases hrun
    exact ⟨[], by simp, by simp [errorFree]⟩
  | succ n ih =>
    intro s t hclear hrun
    rw [run_eq] at hrun
    cases hstep : step s with
    | next u =>
      rw [hstep] at hrun
      obtain ⟨rs, hrsps, hunmarked⟩ := step_unmarked_iff hstep hclear
      have hrest := fun e he => hclear e (List.mem_of_mem_tail (step_inbox hstep ▸ he))
      obtain ⟨rs', hrsps', hunmarked'⟩ := ih hrest hrun
      refine ⟨rs ++ rs', by rw [hrsps', hrsps, List.append_assoc], ?_⟩
      rw [hunmarked', hunmarked, and_assoc, errorFree, errorFree, errorFree, List.forall_mem_append]
    | fault _ | refused _ => rw [hstep] at hrun; cases hrun

/-- Settles O16: the start is unmarked, and `STATUS[8:3]` says whether the end is. -/
theorem errorFreeIffStatusClear : Obligations.ErrorFreeIffStatusClear := by
  unfold Obligations.ErrorFreeIffStatusClear
  intro n s t hhalt herr hclear hrun
  obtain ⟨rs, hrsps, hunmarked⟩ := run_unmarked_iff n hclear hrun
  rw [statusWord_extract_eq_zero_iff, hunmarked, State.newSince_of_append hrsps]
  exact (and_iff_right ⟨hhalt, herr⟩).symm

/-! ## Empty input -/

/-- The leaf loop over an empty frequency map makes no leaf and writes no node (R97, R102). -/
theorem buildLeaves_nil {p : Params} (node : Memory (NodeWord p)) : buildLeaves [] node = (node, 0) :=
  List.foldl_fixed' (fun _ => rfl) _

/-- With no tree `TBL` leaves an empty table (R106). -/
theorem codeTable_noTree {p : Params} {b : Block p} (hvalid : b.rootValid = false) : codeTable b = .ok [] :=
  if_neg (Bool.eq_false_iff.1 hvalid)

/-- `BLD` on the reset block moves the phase alone (R102, R148). -/
theorem bldBody_reset (p : Params) :
    bldBody (Block.reset p) = ({ Block.reset p with phase := .tree }, Rsp.plain) := by
  unfold bldBody
  rw [show buildLeaves (Block.reset p).freq (Block.reset p).node = ([], 0) from buildLeaves_nil []]
  rfl

/-- The empty run: `BLD` and `TBL` on the reset block move the phase alone, and `END` finds the cursor at the root (R148). -/
theorem run_empty (p : Params) :
    run 3 ((State.resetAt p).present [.bld, .tbl, .endStream]) = .next { State.resetAt p with
      blk := { Block.reset p with phase := .table }, rsps := [Rsp.plain, Rsp.plain, Rsp.plain] } := by
  have hbld : Answers .bld (Block.reset p) ({ Block.reset p with phase := .tree }, Rsp.plain) :=
    .inr ⟨firstError_bld rfl rfl, congrArg Except.ok (bldBody_reset p)⟩
  have htbl : Answers .tbl { Block.reset p with phase := .tree } ({ Block.reset p with phase := .table }, Rsp.plain) :=
    .inr ⟨firstError_tbl rfl rfl, tblBody_of_ok (b := { Block.reset p with phase := .tree }) (codeTable_noTree rfl)⟩
  have hbuilt : Phase.table ≠ .count := by decide
  exact (run_present (s := State.resetAt p) _ 2 rfl (decode_encode_of_wf rfl) hbld).trans <|
    (run_present _ 1 rfl (decode_encode_of_wf rfl) htbl).trans (run_endStream rfl rfl hbuilt rfl)

/-- Settles O51: the run is `run_empty`, and the memories stay empty. -/
theorem emptyInput : Obligations.EmptyInput := by
  unfold Obligations.EmptyInput
  exact fun p => ⟨_, run_empty p, rfl, rfl, fun _ => rfl, fun _ => rfl⟩

end Sys2Proof.Machine

/-! Proofs for 70_reset_and_hazards and for the worked encodings of 30_encoding and 95_test_vectors: the `rst` pin (O8), and
the words that the spec writes out, with the reason of each refusal (O5). -/

namespace Sys2Proof.Machine

open Sys2Proof (Params Word opField rzField argField decode)

/-! ## The `rst` pin -/

/-- Settles O8: `rst` leaves the reset block (`step_rst`) and touches nothing of the host's logs. -/
theorem resetPin : Obligations.ResetPin := by
  unfold Obligations.ResetPin
  exact fun s _ hinbox => ⟨Block.reset s.params, step_rst hinbox, Block.atReset_reset s.params⟩

/-! ## Why a word is refused -/

section refusals

variable {p : Params} {w : Word}

/-- A reserved field that is not zero is the reason of refusal whatever the opcode (R74, R75). -/
theorem decode_of_rzField_ne_zero (hrz : rzField w ≠ 0) : decode p w = .error .reservedField := if_neg hrz

/-- An opcode from 8 on names no command (R74, R75). -/
theorem decode_of_eight_le_opField (hrz : rzField w = 0) (hop : 8 ≤ (opField w).toNat) :
    decode p w = .error .reservedOp := by
  unfold decode
  rw [if_pos hrz]
  split
  case h_9 => rfl
  all_goals omega

/-- The rows of `CNT` and `ENC` refuse an operand that is no symbol at this width (R72, R74). -/
theorem decode_of_nsym_le_argField (hrz : rzField w = 0) (hop : (opField w).toNat = 2 ∨ (opField w).toNat = 5)
    (harg : p.nsym ≤ (argField w).toNat) : decode p w = .error .symbolOutOfRange := by
  unfold decode
  rw [if_pos hrz]
  rcases hop with hop | hop
  all_goals rw [hop]; exact if_neg (Nat.not_lt.2 harg)

/-- The row of `DEC` refuses an operand that is no bit (R72, R74). -/
theorem decode_of_one_lt_argField (hrz : rzField w = 0) (hop : (opField w).toNat = 6) (harg : 1 < (argField w).toNat) :
    decode p w = .error .bitOutOfRange := by
  unfold decode
  rw [if_pos hrz, hop]
  exact if_neg (Nat.not_le.2 harg)

/-- The rows without an operand refuse any other field `arg` than zero (R72, R74). -/
theorem decode_of_argField_ne_zero (hrz : rzField w = 0) (hop : (opField w).toNat ∈ [0, 1, 3, 4, 7])
    (harg : argField w ≠ 0) : decode p w = .error .argNotZero := by
  unfold decode
  rw [if_pos hrz]
  simp only [List.mem_cons, List.not_mem_nil, or_false] at hop
  rcases hop with hop | hop | hop | hop | hop
  all_goals rw [hop]; exact if_neg harg

end refusals

/-- Settles O5: an accepted word is the word of its command (`decode_eq_ok_iff`), a refused one has the field that R74 names
against it. -/
theorem workedEncodings : Obligations.WorkedEncodings := by
  unfold Obligations.WorkedEncodings
  intro p q
  refine ⟨?nop, ?clr, ?cnt, ?bld, ?tbl, ?enc, ?dec, ?endStream, ?reservedOp, ?reservedField, ?narrowSymbol, ?wideSymbol,
    ?bit, ?arg⟩
  case reservedOp => exact decode_of_eight_le_opField (by decide) (by decide)
  case reservedField => exact decode_of_rzField_ne_zero (by decide)
  case narrowSymbol => exact decode_of_nsym_le_argField (by decide) (by decide) (by decide)
  case bit => exact decode_of_one_lt_argField (by decide) (by decide) (by decide)
  case arg => exact decode_of_argField_ne_zero (by decide) (by decide) (by decide)
  all_goals exact decode_eq_ok_iff.2 ⟨rfl, rfl⟩

end Sys2Proof.Machine
